-- ==== Sys2Proof/Word.lean ====
section
/-! DEFINITION. The word of the block: the 64-bit registers of 10_state.md R20 and the 32-bit encodings of binary32
(00_scope.md R10). -/

namespace Sys2Proof

/-- A 64-bit register value, a command word or a binary64 encoding. -/
abbrev Word := BitVec 64

/-- A binary32 encoding. -/
abbrev Word32 := BitVec 32

end Sys2Proof
end

