-- ==== Sys2Proof/Config.lean ====
section
/-! DEFINITION. What an implementation fixes (00_scope.md R5) and the free values of the spec.

CATALOG, the parameter of 00_scope.md R5, is constant state of the block (10_state.md R38) and stands in State
(log entry 1). LATENCY and WINDOW_BASE are read by no rule and are left out (log entries 9 and 10). -/

namespace Sys2Proof.Config

/-- NF_MAX of 00_scope.md R5: the largest number of fields in one definition. -/
def nfMax : Nat := 16

/-- The largest N_MSG of 00_scope.md R5. -/
def nMsgMax : Nat := 256

/-- The free draws behind NAN_DRAW for binary64 (00_scope.md R5, R10; 93_implementation_defined.md I10): the first
argument counts the commands that have taken draws, the second is the index of the field in the command. No body, so
nothing can evaluate it (log entry 4). -/
opaque nanDraw64 : Nat → Nat → Word

/-- The free draws behind NAN_DRAW for binary32, indexed as `nanDraw64` (log entry 4). -/
opaque nanDraw32 : Nat → Nat → Word32

/-- The free value behind `setw` (30_encoding.md R88): the word written where the sum of the shifted widths, the
argument, passes 64 bits, for which the spec states no `imm64` (log entry 13). -/
opaque wideSum : Nat → Word

end Sys2Proof.Config
end

