-- ==== Sys2Proof/Syntax.lean ====
section
/-! DEFINITION. The five commands of 30_encoding.md R81, one constructor per row of spec/opcode_table.json. -/

namespace Sys2Proof

/-- A command of the block. The operands are the natural numbers of 30_encoding.md R82 and R83. -/
inductive Instr where
  /-- LOOKUP (40_catalog.md R110). -/
  | lookup
  /-- ENCODE of the definition at catalog index `idx` (41_scalar_codec.md R140). -/
  | encode (idx : Nat)
  /-- DECODE by the definition at catalog index `idx` (41_scalar_codec.md R150). -/
  | decode (idx : Nat)
  /-- PACKBITS of `n` fields (42_bitfield_packer.md R190). -/
  | packbits (n : Nat)
  /-- TRUNCF keeping `k` bytes (42_bitfield_packer.md R192). -/
  | truncf (k : Nat)
deriving DecidableEq, Repr

end Sys2Proof
end

