-- ==== Sys2Proof/WellFormed.lean ====
section
/-! DEFINITION. Which terms of `Instr` a command word can spell (30_encoding.md R81 to R83). -/

namespace Sys2Proof

/-- IDX is eight bits wide and every value is legal (30_encoding.md R82). -/
def Instr.idxFits (idx : Nat) : Bool := decide (idx < 256)

/-- The number of PACKBITS fields is 1 to NF_MAX (30_encoding.md R83). -/
def Instr.fieldCountLegal (n : Nat) : Bool := decide (1 ≤ n) && decide (n ≤ Config.nfMax)

/-- The number of bytes TRUNCF keeps is 1 to 4 (30_encoding.md R83). -/
def Instr.keepBytesLegal (k : Nat) : Bool := decide (1 ≤ k) && decide (k ≤ 4)

/-- The operand ranges of 30_encoding.md R81. -/
def Instr.wf : Instr → Bool
  | .lookup => true
  | .encode idx => Instr.idxFits idx
  | .decode idx => Instr.idxFits idx
  | .packbits n => Instr.fieldCountLegal n
  | .truncf k => Instr.keepBytesLegal k

end Sys2Proof
end

