-- ==== Sys2Proof/Decode.lean ====
section
/-! DEFINITION. The command word: its fields, the decoder and the encoder (30_encoding.md R80 to R85, R87). -/

namespace Sys2Proof

/-- Why a command word is illegal (30_encoding.md R85). Every reason has the same effect, IllegalCommand
(60_exceptions.md R211); only the name differs (log entry 16). -/
inductive DecodeReject where
  /-- RSV, bits 63:24, is not zero. -/
  | reservedBitsSet
  /-- OP is 0x00 or 0x06 to 0xFF. -/
  | reservedOpcode
  /-- ARG is not zero in a command that does not use it. -/
  | argNotZero
  /-- IDX is not zero in a command that does not use it. -/
  | idxNotZero
  /-- PACKBITS with n = 0 or n > 16, or TRUNCF with k = 0 or k > 4. -/
  | countOutOfRange
deriving DecidableEq, Repr

/-- OP, bits 7:0 (30_encoding.md R80). -/
def cmdOp (v : Word) : BitVec 8 := v.extractLsb' 0 8

/-- ARG, bits 15:8 (30_encoding.md R80). -/
def cmdArg (v : Word) : BitVec 8 := v.extractLsb' 8 8

/-- IDX, bits 23:16 (30_encoding.md R80). -/
def cmdIdx (v : Word) : BitVec 8 := v.extractLsb' 16 8

/-- RSV, bits 63:24 (30_encoding.md R80). -/
def cmdRsv (v : Word) : BitVec 40 := v.extractLsb' 24 40

/-- The opcode of each command (30_encoding.md R81). -/
def opcode : Instr → BitVec 8
  | .lookup => 0x01
  | .encode _ => 0x02
  | .decode _ => 0x03
  | .packbits _ => 0x04
  | .truncf _ => 0x05

/-- A command whose only operand is IDX, so ARG must be zero. -/
def decodeIndexed (mk : Nat → Instr) (v : Word) : Except DecodeReject Instr :=
  if cmdArg v ≠ 0 then .error .argNotZero else .ok (mk (cmdIdx v).toNat)

/-- A command whose only operand is the count in ARG, at most `most`, so IDX must be zero. -/
def decodeCounted (mk : Nat → Instr) (most : Nat) (v : Word) : Except DecodeReject Instr :=
  if cmdIdx v ≠ 0 then .error .idxNotZero
  else if 1 ≤ (cmdArg v).toNat ∧ (cmdArg v).toNat ≤ most then .ok (mk (cmdArg v).toNat)
  else .error .countOutOfRange

/-- The decoder of 30_encoding.md R81: total on 64-bit words, rejecting every word of R85 by name. -/
def decode (v : Word) : Except DecodeReject Instr :=
  if cmdRsv v ≠ 0 then .error .reservedBitsSet
  else if cmdOp v = 0x01 then
    if cmdArg v ≠ 0 then .error .argNotZero
    else if cmdIdx v ≠ 0 then .error .idxNotZero
    else .ok .lookup
  else if cmdOp v = 0x02 then decodeIndexed .encode v
  else if cmdOp v = 0x03 then decodeIndexed .decode v
  else if cmdOp v = 0x04 then decodeCounted .packbits Config.nfMax v
  else if cmdOp v = 0x05 then decodeCounted .truncf 4 v
  else .error .reservedOpcode

/-- The command word of a well-formed command, as 30_encoding.md R87 writes it. -/
def encode : Instr → Word
  | .lookup => 0x01
  | .encode idx => (BitVec.ofNat 64 idx <<< 16) ||| 0x02
  | .decode idx => (BitVec.ofNat 64 idx <<< 16) ||| 0x03
  | .packbits n => (BitVec.ofNat 64 n <<< 8) ||| 0x04
  | .truncf k => (BitVec.ofNat 64 k <<< 8) ||| 0x05

/-- A row of the match and mask table of 30_encoding.md R81. -/
structure OpRow where
  pattern : Word
  mask : Word
deriving DecidableEq, Repr

/-- The row of each command (30_encoding.md R81). -/
def opRow : Instr → OpRow
  | .lookup => ⟨0x0000000000000001, 0xFFFFFFFFFFFFFFFF⟩
  | .encode _ => ⟨0x0000000000000002, 0xFFFFFFFFFF00FFFF⟩
  | .decode _ => ⟨0x0000000000000003, 0xFFFFFFFFFF00FFFF⟩
  | .packbits _ => ⟨0x0000000000000004, 0xFFFFFFFFFFFF00FF⟩
  | .truncf _ => ⟨0x0000000000000005, 0xFFFFFFFFFFFF00FF⟩

/-- What the decoder reads from an opcode-table word of `nbits` bits. A command is one 64-bit host write
(30_encoding.md R80), so the word is the value written. -/
def decodeTableWord (nbits w : Nat) : Option Instr :=
  match decode (BitVec.ofNat 64 (w % 2 ^ nbits)) with
  | .ok i => some i
  | .error _ => none

end Sys2Proof
end

