-- ==== Sys2Proof/Machine/Bits.lean ====
section
/-! DEFINITION. Bit ranges of a 64-bit value and two's complement (00_scope.md R6, R7; 20_memory.md R62). -/

namespace Sys2Proof.Machine

/-- The `w` low bits set. -/
def lowMask (w : Nat) : Word := BitVec.ofNat 64 (1 <<< w - 1)

/-- `p[off + w - 1 : off]` as an unsigned value (00_scope.md R6). -/
def extractBits (p : Word) (off w : Nat) : Word := (p >>> off) &&& lowMask w

/-- `p` after `p[off + w - 1 : off] = r` (20_memory.md R62). -/
def insertBits (p : Word) (off w : Nat) (r : Word) : Word :=
  (p &&& ~~~(lowMask w <<< off)) ||| ((r &&& lowMask w) <<< off)

/-- `sint` of the `w` low bits of `raw`, `w ≥ 1` (00_scope.md R7). -/
def sintOf (w : Nat) (raw : Word) : Int :=
  let u := (extractBits raw 0 w).toNat
  if raw.getLsbD (w - 1) then (u : Int) - (1 <<< w : Nat) else u

/-- The `w`-bit two's complement of `r`, `r mod 2^w` (41_scalar_codec.md R132). -/
def twosComplement (w : Nat) (r : Int) : Word := BitVec.ofInt 64 (r % (1 <<< w : Nat))

end Sys2Proof.Machine
end

