-- ==== Sys2Proof/Machine/Numeric.lean ====
section
/-! DEFINITION. The numeric primitives of 00_scope.md R10, R11 and R13.

Every finite value of a binary format is a whole number of units, the unit being the format's least positive value:
2^-1074 for binary64 and 2^-149 for binary32. A value is its sign and its magnitude, the encoding less its sign bit, and
the arithmetic is exact on natural numbers of units until one rounding, `roundUnits`. The formats and the results on
infinities and zeros are IEEE 754's (log entry 8). -/

namespace Sys2Proof.Machine

/-- Fraction bits of binary64. -/
def frac64 : Nat := 52

/-- Fraction bits of binary32. -/
def frac32 : Nat := 23

/-- The magnitude of binary64 infinity. -/
def inf64 : Nat := 0x7FF0000000000000

/-- The magnitude of binary32 infinity. -/
def inf32 : Nat := 0x7F800000

/-- How many binary64 units make 1. -/
def one64 : Nat := 1 <<< 1074

/-- How many binary64 units make one binary32 unit, 2^(1074 - 149). -/
def unitRatio : Nat := 1 <<< 925

/-- The magnitude of a binary64 encoding. -/
def mag64 (x : Word) : Nat := x.toNat % 0x8000000000000000

/-- The magnitude of a binary32 encoding. -/
def mag32 (x : Word32) : Nat := x.toNat % 0x80000000

/-- The binary64 encoding with a sign and a magnitude. -/
def ofMag64 (sign : Bool) (mag : Nat) : Word :=
  BitVec.ofNat 64 ((if sign then 0x8000000000000000 else 0) + mag)

/-- The binary32 encoding with a sign and a magnitude. -/
def ofMag32 (sign : Bool) (mag : Nat) : Word32 :=
  BitVec.ofNat 32 ((if sign then 0x80000000 else 0) + mag)

def isNaN64 (x : Word) : Bool := decide (inf64 < mag64 x)

def isInf64 (x : Word) : Bool := decide (mag64 x = inf64)

def isFinite64 (x : Word) : Bool := decide (mag64 x < inf64)

def isZero64 (x : Word) : Bool := decide (mag64 x = 0)

def isNaN32 (x : Word32) : Bool := decide (inf32 < mag32 x)

def isInf32 (x : Word32) : Bool := decide (mag32 x = inf32)

def isFinite32 (x : Word32) : Bool := decide (mag32 x < inf32)

/-- The units of a finite magnitude in a format with `fb` fraction bits; a zero exponent field is a subnormal. -/
def unitsOf (fb mag : Nat) : Nat :=
  if mag >>> fb = 0 then mag
  else (1 <<< fb + mag % (1 <<< fb)) <<< (mag >>> fb - 1)

/-- The units of the magnitude of a finite binary64 value. -/
def units64 (x : Word) : Nat := unitsOf frac64 (mag64 x)

/-- The units of the magnitude of a finite binary32 value. -/
def units32 (x : Word32) : Nat := unitsOf frac32 (mag32 x)

/-- The natural number nearest to `n / d`, ties to even. -/
def rneDiv (n d : Nat) : Nat :=
  if 2 * (n % d) < d then n / d
  else if d < 2 * (n % d) then n / d + 1
  else n / d + n / d % 2

/-- The power of two, in units, of the last kept bit of a magnitude of `n / d` units. -/
def ulpLog (fb n d : Nat) : Nat :=
  if n / d < 1 <<< (fb + 1) then 0 else Nat.log2 (n / d) - fb

/-- The magnitude nearest to `n / d` units, ties to even, in the format with `fb` fraction bits and infinity at the
magnitude `inf` (00_scope.md R10). The kept bits carry into the exponent field by plain addition. -/
def roundUnits (fb inf n d : Nat) : Nat :=
  Nat.min inf (ulpLog fb n d <<< fb + rneDiv n (d <<< ulpLog fb n d))

/-- The draws of NAN_DRAW that one field of one command may take. -/
structure Draw where
  nan64 : Word
  nan32 : Word32
deriving DecidableEq, Repr

/-- A binary64 NaN: `b` itself where it is one, so that every NaN remains possible (93_implementation_defined.md I10:
"the result is always a NaN"). -/
def asNaN64 (b : Word) : Word := if isNaN64 b then b else b ||| 0x7FF8000000000000

/-- A binary32 NaN: `b` itself where it is one. -/
def asNaN32 (b : Word32) : Word32 := if isNaN32 b then b else b ||| 0x7FC00000

/-- The draws for field `i` of the command numbered `cmd` (log entry 4). -/
def drawAt (cmd i : Nat) : Draw where
  nan64 := asNaN64 (Config.nanDraw64 cmd i)
  nan32 := asNaN32 (Config.nanDraw32 cmd i)

/-- `mul64(a, b)` (00_scope.md R10); `nan` is the draw taken where the result is a NaN. -/
def mul64 (nan a b : Word) : Word :=
  if isNaN64 a || isNaN64 b then nan
  else if isInf64 a || isInf64 b then
    if isZero64 a || isZero64 b then nan else ofMag64 (a.msb ^^ b.msb) inf64
  else ofMag64 (a.msb ^^ b.msb) (roundUnits frac64 inf64 (units64 a * units64 b) one64)

/-- `div64(a, b)` (00_scope.md R10); `nan` is the draw taken where the result is a NaN. -/
def div64 (nan a b : Word) : Word :=
  if isNaN64 a || isNaN64 b then nan
  else if isInf64 a then
    if isInf64 b then nan else ofMag64 (a.msb ^^ b.msb) inf64
  else if isInf64 b then ofMag64 (a.msb ^^ b.msb) 0
  else if isZero64 b then
    if isZero64 a then nan else ofMag64 (a.msb ^^ b.msb) inf64
  else ofMag64 (a.msb ^^ b.msb) (roundUnits frac64 inf64 (units64 a * one64) (units64 b))

/-- `cvt32to64(b)`: exact, but that a NaN becomes the draw `nan` (00_scope.md R10). -/
def cvt32to64 (nan : Word) (b : Word32) : Word :=
  if isNaN32 b then nan
  else if isInf32 b then ofMag64 b.msb inf64
  else ofMag64 b.msb (roundUnits frac64 inf64 (units32 b * unitRatio) 1)

/-- `cvt64to32(x)`; `none` is the OVF of 00_scope.md R10: `x` is finite and the rounded result is infinite. A NaN
becomes the draw `nan`. -/
def cvt64to32 (nan : Word32) (x : Word) : Option Word32 :=
  if isNaN64 x then some nan
  else if isInf64 x then some (ofMag32 x.msb inf32)
  else if roundUnits frac32 inf32 (units64 x) unitRatio = inf32 then none
  else some (ofMag32 x.msb (roundUnits frac32 inf32 (units64 x) unitRatio))

/-- `cvtint64(n)` (00_scope.md R10). -/
def cvtInt64 (n : Int) : Word :=
  ofMag64 (decide (n < 0)) (roundUnits frac64 inf64 (n.natAbs * one64) 1)

/-- `rne_int(x)` for a finite `x` (00_scope.md R11). -/
def rneInt (x : Word) : Int :=
  if x.msb then -(rneDiv (units64 x) one64 : Int) else rneDiv (units64 x) one64

/-- The place of a binary64 value that is no NaN in the order of 00_scope.md R13: both zeros at 0, the infinities
outside every finite value. -/
def order64 (x : Word) : Int := if x.msb then -(mag64 x : Int) else mag64 x

/-- `a <= b` on binary64 values: false where either is a NaN (00_scope.md R13). -/
def le64 (a b : Word) : Bool :=
  !isNaN64 a && !isNaN64 b && decide (order64 a ≤ order64 b)

/-- The binary64 value nearest to `± n / d`, ties to even (30_encoding.md R88, `wrf`). -/
def ratio64 (sign : Bool) (n d : Nat) : Word :=
  ofMag64 sign (roundUnits frac64 inf64 (n * one64) d)

end Sys2Proof.Machine
end

