-- ==== Sys2Proof/Machine/State.lean ====
section
/-! DEFINITION. The state of the block: the registers of 10_state.md, the message catalog of 40_catalog.md, and the
model's own record of what the host does. -/

namespace Sys2Proof.Machine

/-- The field kinds of 40_catalog.md R102. -/
inductive Kind where
  /-- 32-bit IEEE float. -/
  | f32
  /-- Signed integer. -/
  | sint
  /-- Unsigned integer. -/
  | uint
  /-- Truncated float. -/
  | trunc
  /-- Sub-byte bit field. -/
  | bits
deriving DecidableEq, Repr

/-- A field, BTE's FieldSpec (40_catalog.md R101). `min`, `max` and `scale` are the 64-bit encodings of R103. `name`
and `unit` are read by no rule but the catalog check WF12 (log entry 12). -/
structure FieldSpec where
  name : String
  kind : Kind
  /-- Bit offset of the least significant raw bit in the payload. -/
  off : Nat
  /-- Width in bits. -/
  w : Nat
  scale : Word
  min : Word
  max : Word
  unit : String
deriving DecidableEq, Repr

/-- A definition, BTE's MessageDefinition (40_catalog.md R100). `name` is read by WF12 only and `periodicity` by no
rule (log entry 12). -/
structure Definition where
  id : Nat
  /-- True for a 29-bit extended id. -/
  ext : Bool
  name : String
  /-- Payload byte count (DLC). -/
  length : Nat
  /-- The fields in declared order. -/
  fields : List FieldSpec
  periodicity : Rat
deriving DecidableEq, Repr

/-- CATALOG: the definitions in catalog order, index 0 first (00_scope.md R5). -/
abbrev Catalog := List Definition

/-- The named checks of 40_catalog.md R104, and the bound on N_MSG of 00_scope.md R5 (`nMsg`). -/
inductive WfCheck where
  | nMsg | wf1 | wf2 | wf3 | wf4 | wf5 | wf6 | wf7 | wf8 | wf9 | wf10 | wf11 | wf12 | wf13
deriving DecidableEq, Repr

/-- What a refused configuration names: the check, the definition and, where the check is about one, the field
(40_catalog.md R105). -/
structure CatalogFault where
  check : WfCheck
  definition : Nat
  field : Option Nat
deriving DecidableEq, Repr

/-- One thing the host, or the platform for it, does (00_scope.md R8; log entry 2). Offsets are byte offsets in the
register window; `bits` is the width of the access. -/
inductive HostOp where
  /-- The block's one reset (70_reset_and_hazards.md R240). -/
  | reset
  /-- A host read. -/
  | read (off bits : Nat)
  /-- A host write of `v`. -/
  | write (off bits : Nat) (v : Word)
  /-- `chk`: read STATUS, and stop the host program where CODE is not 0 (30_encoding.md R88). -/
  | check
deriving DecidableEq, Repr

/-- The state of the block. Registers are held at the width 10_state.md R20 uses (log entry 5). -/
structure State where
  /-- STATUS (10_state.md R22). -/
  status : BitVec 28
  /-- QID (10_state.md R23). -/
  qid : BitVec 29
  /-- MIDX (10_state.md R24). -/
  midx : BitVec 8
  /-- PLEN (10_state.md R25). -/
  plen : BitVec 4
  /-- PAYLOAD (10_state.md R26). -/
  payload : Word
  /-- FRAME (10_state.md R27). -/
  frame : BitVec 36
  /-- ACC (10_state.md R28). -/
  acc : Word
  /-- WIDLO (10_state.md R29). -/
  widlo : Word
  /-- WIDHI (10_state.md R29). -/
  widhi : Word
  /-- ERRMIN (10_state.md R30). -/
  errmin : Word
  /-- ERRMAX (10_state.md R30). -/
  errmax : Word
  /-- V[0] to V[15] (10_state.md R31). -/
  v : Vector Word 16
  /-- CATALOG, constant state (10_state.md R38; log entry 1). -/
  catalog : Catalog
  /-- The model's own: what the host does next, oldest first (log entry 2). -/
  host : List HostOp
  /-- The model's own: the values the host's reads returned, oldest first (log entry 3). -/
  answers : List Word
  /-- The model's own: how many commands have taken NAN_DRAW draws (log entry 4). -/
  nanDraws : Nat
deriving DecidableEq, Repr

/-- Reasons for a fault. There is none: the block has no traps, and an error is a next state with STATUS written
(60_exceptions.md R217; log entry 11). -/
inductive Fault where
deriving DecidableEq, Repr

/-- Reasons for a refusal. -/
inductive Refusal where
  /-- Raised by `exec` for an instruction without a meaning; no arm raises it. Safe. -/
  | notModelled (mnemonic : String)
  /-- Raised by the host port for an access of another width than 64 bits, at an offset that is no multiple of 8, or
  outside the window (10_state.md R34: "a model refuses it"). Safe. -/
  | hostAccess (off bits : Nat)
  /-- Raised by `step` and `boot` for a catalog that fails a check of 40_catalog.md R104 (R105: "the configuration is
  refused"). Safe. -/
  | illFormedCatalog (f : CatalogFault)
deriving DecidableEq, Repr

/-- The state right after reset with CATALOG `c` loaded: every register zero (10_state.md R42). -/
def State.afterReset (c : Catalog) : State where
  status := 0
  qid := 0
  midx := 0
  plen := 0
  payload := 0
  frame := 0
  acc := 0
  widlo := 0
  widhi := 0
  errmin := 0
  errmax := 0
  v := Vector.replicate 16 0
  catalog := c
  host := []
  answers := []
  nanDraws := 0

/-- The machine right after reset (10_state.md R42), with the empty catalog: N_MSG = 0, a value 00_scope.md R5 admits
(log entry 1). -/
def State.reset : State := State.afterReset []

end Sys2Proof.Machine
end

