-- ==== Sys2Proof/Machine/FieldConv.lean ====
section
/-! DEFINITION. One field: its range check, its raw form and its engineering value (41_scalar_codec.md R131 to R135,
R151 to R154; 42_bitfield_packer.md R181 to R184). -/

namespace Sys2Proof.Machine

/-- The binary32 encoding of `x * scale`, or `none` for FAIL (41_scalar_codec.md R131). -/
def scaledBinary32 (draw : Draw) (scale x : Word) : Option Word32 :=
  let p := mul64 draw.nan64 x scale
  if isInf64 p then none else cvt64to32 draw.nan32 p

/-- `round(value * scale)`, or `none` where the product is not finite (41_scalar_codec.md R132, R133). -/
def scaledInt (draw : Draw) (scale x : Word) : Option Int :=
  let p := mul64 draw.nan64 x scale
  if isFinite64 p then some (rneInt p) else none

/-- Raw conversion, kind F32 (41_scalar_codec.md R131). -/
def rawF32 (draw : Draw) (f : FieldSpec) (x : Word) : Option Word :=
  (scaledBinary32 draw f.scale x).map fun (b : Word32) => b.setWidth 64

/-- Raw conversion, kind SINT (41_scalar_codec.md R132). -/
def rawSint (draw : Draw) (f : FieldSpec) (x : Word) : Option Word :=
  match scaledInt draw f.scale x with
  | none => none
  | some r =>
    if r < -((1 <<< (f.w - 1) : Nat) : Int) ∨ ((1 <<< (f.w - 1) : Nat) : Int) - 1 < r then none
    else some (twosComplement f.w r)

/-- Raw conversion, kind UINT (41_scalar_codec.md R133). -/
def rawUint (draw : Draw) (f : FieldSpec) (x : Word) : Option Word :=
  match scaledInt draw f.scale x with
  | none => none
  | some r =>
    if r < 0 ∨ ((1 <<< f.w : Nat) : Int) - 1 < r then none
    else some (BitVec.ofInt 64 r)

/-- Raw conversion, kind TRUNC: the `w / 8` most significant bytes of the binary32 encoding
(42_bitfield_packer.md R182). -/
def rawTrunc (draw : Draw) (f : FieldSpec) (x : Word) : Option Word :=
  (scaledBinary32 draw f.scale x).map fun (b : Word32) => (b >>> (32 - f.w)).setWidth 64

/-- The errors one field of ENCODE can meet. -/
inductive FieldError where
  /-- FieldOutOfRange with this SUB (10_state.md R22). -/
  | outOfRange (sub : Nat)
  /-- BitFieldOverflow (42_bitfield_packer.md R181). -/
  | overflow
deriving DecidableEq, Repr

/-- `InRange(f, x)` (41_scalar_codec.md R135): on unsigned integers for BITS, on binary64 for every other kind. -/
def inRange (f : FieldSpec) (x : Word) : Bool :=
  match f.kind with
  | .bits => decide (f.min.toNat ≤ x.toNat) && decide (x.toNat ≤ f.max.toNat)
  | .f32 => le64 f.min x && le64 x f.max
  | .sint => le64 f.min x && le64 x f.max
  | .uint => le64 f.min x && le64 x f.max
  | .trunc => le64 f.min x && le64 x f.max

/-- `BitsRaw(f, x)`, or `none` for BitFieldOverflow (42_bitfield_packer.md R181). -/
def bitsRaw (f : FieldSpec) (x : Word) : Option Word :=
  if f.w < 64 ∧ 1 <<< f.w ≤ x.toNat then none else some (extractBits x 0 f.w)

/-- The raw form of a field: `RawConv(f, x)` of 41_scalar_codec.md R134, or `BitsRaw(f, x)` for kind BITS. -/
def rawConv (draw : Draw) (f : FieldSpec) (x : Word) : Option Word :=
  match f.kind with
  | .f32 => rawF32 draw f x
  | .sint => rawSint draw f x
  | .uint => rawUint draw f x
  | .trunc => rawTrunc draw f x
  | .bits => bitsRaw f x

/-- The error of a field whose raw form does not fit (41_scalar_codec.md R140). -/
def rawError (f : FieldSpec) : FieldError :=
  match f.kind with
  | .bits => .overflow
  | .f32 => .outOfRange 1
  | .sint => .outOfRange 1
  | .uint => .outOfRange 1
  | .trunc => .outOfRange 1

/-- One field of ENCODE: the range check before the conversion (41_scalar_codec.md R140; 60_exceptions.md R215). -/
def encodeField (draw : Draw) (f : FieldSpec) (x : Word) : Except FieldError Word :=
  if inRange f x then
    match rawConv draw f x with
    | some r => .ok r
    | none => .error (rawError f)
  else .error (.outOfRange 0)

/-- `raw ++ 0^(32-w)`: the kept bytes with the dropped ones as 0x00 (42_bitfield_packer.md R183; log entry 18).-/
def refillTrunc (w : Nat) (raw : Word) : Word32 := raw.setWidth 32 <<< (32 - w)

/-- `DecodeField(f, raw)` (41_scalar_codec.md R151 to R154; 42_bitfield_packer.md R183, R184). One field takes one draw of
NAN_DRAW, its last (log entry 17). -/
def decodeField (draw : Draw) (f : FieldSpec) (raw : Word) : Word :=
  match f.kind with
  | .f32 => div64 draw.nan64 (cvt32to64 draw.nan64 (raw.setWidth 32)) f.scale
  | .sint => div64 draw.nan64 (cvtInt64 (sintOf f.w raw)) f.scale
  | .uint => div64 draw.nan64 (cvtInt64 raw.toNat) f.scale
  | .trunc => div64 draw.nan64 (cvt32to64 draw.nan64 (refillTrunc f.w raw)) f.scale
  | .bits => raw

end Sys2Proof.Machine
end

