-- ==== Sys2Proof/Machine/CatalogCheck.lean ====
section
/-! DEFINITION. The well-formedness of CATALOG: the named checks of 40_catalog.md R104 and what a refused
configuration names (R105). -/

namespace Sys2Proof.Machine

/-- Kinds other than BITS are numeric: scaled, byte-aligned and range-checked as binary64 (40_catalog.md R103). -/
def Kind.numeric : Kind → Bool
  | .f32 => true
  | .sint => true
  | .uint => true
  | .trunc => true
  | .bits => false

/-- The legal widths of 40_catalog.md R102. -/
def Kind.widthLegal (k : Kind) (w : Nat) : Bool :=
  match k with
  | .f32 => decide (w = 32)
  | .sint => decide (w = 8) || decide (w = 16) || decide (w = 32) || decide (w = 64)
  | .uint => decide (w = 8) || decide (w = 16) || decide (w = 32) || decide (w = 64)
  | .trunc => decide (w = 8) || decide (w = 16) || decide (w = 24) || decide (w = 32)
  | .bits => decide (1 ≤ w) && decide (w ≤ 64)

/-- The bit ranges of two fields do not meet. -/
def FieldSpec.disjoint (f g : FieldSpec) : Bool := decide (f.off + f.w ≤ g.off) || decide (g.off + g.w ≤ f.off)

/-- WF1 at definition `i`: no earlier definition has its id. -/
def wf1 (c : Catalog) (i : Nat) (d : Definition) : Bool := (c.take i).all fun e => decide (e.id ≠ d.id)

/-- WF2: the id fits its width. -/
def wf2 (d : Definition) : Bool := if d.ext then decide (d.id < 1 <<< 29) else decide (d.id < 1 <<< 11)

/-- WF3: the length is 0 to 8. -/
def wf3 (d : Definition) : Bool := decide (d.length ≤ 8)

/-- WF4: at most NF_MAX fields. -/
def wf4 (d : Definition) : Bool := decide (d.fields.length ≤ Config.nfMax)

/-- WF5: the width is legal for the kind. -/
def wf5 (f : FieldSpec) : Bool := f.kind.widthLegal f.w

/-- WF6: a field of a numeric kind starts at a byte boundary. -/
def wf6 (f : FieldSpec) : Bool := !f.kind.numeric || decide (f.off % 8 = 0)

/-- WF7: the field lies inside the payload. -/
def wf7 (d : Definition) (f : FieldSpec) : Bool := decide (f.off + f.w ≤ 8 * d.length)

/-- WF8 at field `j`: it meets no earlier field of its definition. -/
def wf8 (d : Definition) (j : Nat) (f : FieldSpec) : Bool := (d.fields.take j).all fun g => FieldSpec.disjoint g f

/-- The field before field `j`. -/
def Definition.fieldBefore (d : Definition) (j : Nat) : Option FieldSpec := (d.fields.take j).getLast?

/-- WF9 at field `j`: if it and the field before it are both of kind BITS, it starts where that one ends. -/
def wf9 (d : Definition) (j : Nat) (f : FieldSpec) : Bool :=
  match d.fieldBefore j with
  | none => true
  | some g => f.kind.numeric || g.kind.numeric || decide (f.off = g.off + g.w)

/-- WF10: the scale of a field of a numeric kind is finite and not zero. -/
def wf10 (f : FieldSpec) : Bool := !f.kind.numeric || (isFinite64 f.scale && !isZero64 f.scale)

/-- WF11: the range is a range; of a numeric kind, of finite values. -/
def wf11 (f : FieldSpec) : Bool :=
  if f.kind.numeric then isFinite64 f.min && isFinite64 f.max && le64 f.min f.max
  else decide (f.min.toNat ≤ f.max.toNat)

/-- WF12 at definition `i`: no earlier definition has its name. -/
def wf12Definition (c : Catalog) (i : Nat) (d : Definition) : Bool := (c.take i).all fun e => decide (e.name ≠ d.name)

/-- WF12 at field `j`: no earlier field of its definition has its name. -/
def wf12Field (d : Definition) (j : Nat) (f : FieldSpec) : Bool := (d.fields.take j).all fun g => decide (g.name ≠ f.name)

/-- WF13: both ends of the range convert; of a BITS field, the maximum fits the width. Whether a conversion fails does
not depend on the draw. -/
def wf13 (f : FieldSpec) : Bool :=
  if f.kind.numeric then
    (rawConv (drawAt 0 0) f f.min).isSome && (rawConv (drawAt 0 0) f f.max).isSome
  else decide (f.max.toNat < 1 <<< f.w)

/-- What a check says of definition `i` of the catalog. -/
def WfCheck.onDefinition (k : WfCheck) (c : Catalog) (i : Nat) (d : Definition) : Bool :=
  match k with
  | .nMsg => decide (i < Config.nMsgMax)
  | .wf1 => Sys2Proof.Machine.wf1 c i d
  | .wf2 => Sys2Proof.Machine.wf2 d
  | .wf3 => Sys2Proof.Machine.wf3 d
  | .wf4 => Sys2Proof.Machine.wf4 d
  | .wf12 => wf12Definition c i d
  | .wf5 | .wf6 | .wf7 | .wf8 | .wf9 | .wf10 | .wf11 | .wf13 => true

/-- What a check says of field `j` of a definition. -/
def WfCheck.onField (k : WfCheck) (d : Definition) (j : Nat) (f : FieldSpec) : Bool :=
  match k with
  | .wf5 => Sys2Proof.Machine.wf5 f
  | .wf6 => Sys2Proof.Machine.wf6 f
  | .wf7 => Sys2Proof.Machine.wf7 d f
  | .wf8 => Sys2Proof.Machine.wf8 d j f
  | .wf9 => Sys2Proof.Machine.wf9 d j f
  | .wf10 => Sys2Proof.Machine.wf10 f
  | .wf11 => Sys2Proof.Machine.wf11 f
  | .wf12 => wf12Field d j f
  | .wf13 => Sys2Proof.Machine.wf13 f
  | .nMsg | .wf1 | .wf2 | .wf3 | .wf4 => true

/-- The checks in the order of 40_catalog.md R104, after the bound on N_MSG (log entry 6). -/
def WfCheck.inOrder : List WfCheck :=
  [.nMsg, .wf1, .wf2, .wf3, .wf4, .wf5, .wf6, .wf7, .wf8, .wf9, .wf10, .wf11, .wf12, .wf13]

/-- The first field from `fs`, whose first is field `j` of `d`, that fails check `k`. -/
def firstBadField (k : WfCheck) (d : Definition) (fs : List FieldSpec) (j : Nat) : Option Nat :=
  match fs with
  | [] => none
  | f :: rest => if k.onField d j f then firstBadField k d rest (j + 1) else some j

/-- The first definition from `ds`, whose first is definition `i` of `c`, that fails check `k`, itself or in a field. -/
def firstBadDefinition (k : WfCheck) (c : Catalog) (ds : List Definition) (i : Nat) : Option CatalogFault :=
  match ds with
  | [] => none
  | d :: rest =>
    if k.onDefinition c i d then
      match firstBadField k d d.fields 0 with
      | some j => some ⟨k, i, some j⟩
      | none => firstBadDefinition k c rest (i + 1)
    else some ⟨k, i, none⟩

/-- What the refusal of a catalog names: the first failing check and where it fails (40_catalog.md R105; log entry 6);
`none` where the catalog is well-formed. -/
def firstFault (c : Catalog) : Option CatalogFault :=
  WfCheck.inOrder.findSome? fun k => firstBadDefinition k c c 0

/-- CATALOG is well-formed (40_catalog.md R104), as one predicate. -/
def wellFormed (c : Catalog) : Bool := (firstFault c).isNone

end Sys2Proof.Machine
end

