-- ==== Sys2Proof/Machine/Flags.lean ====
section
/-! DEFINITION. STATUS, the block's only condition state (10_state.md R22, R37), and the error codes of
60_exceptions.md R210. -/

namespace Sys2Proof.Machine

/-- The errors of 60_exceptions.md R210. The last three are reserved and never raised (R213). -/
inductive ErrorKind where
  | unknownMessage | fieldOutOfRange | payloadLengthMismatch | bitFieldOverflow | illegalCommand
  | missingField | unexpectedField | transportFailure
deriving DecidableEq, Repr

/-- `code(E)` (60_exceptions.md R210). -/
def ErrorKind.code : ErrorKind → Nat
  | .unknownMessage => 1
  | .fieldOutOfRange => 2
  | .payloadLengthMismatch => 3
  | .bitFieldOverflow => 4
  | .illegalCommand => 5
  | .missingField => 6
  | .unexpectedField => 7
  | .transportFailure => 8

/-- What `raise` records: the error and the arguments `field`, `width` and `sub`, 0 where unnamed
(60_exceptions.md R210). -/
structure ErrorInfo where
  kind : ErrorKind
  field : Nat := 0
  width : Nat := 0
  sub : Nat := 0
deriving DecidableEq, Repr

/-- `sub << 24 OR width << 16 OR field << 8 OR code(E)` (60_exceptions.md R210). -/
def ErrorInfo.statusWord (e : ErrorInfo) : BitVec 28 :=
  (BitVec.ofNat 28 e.sub <<< 24) ||| (BitVec.ofNat 28 e.width <<< 16) |||
    (BitVec.ofNat 28 e.field <<< 8) ||| BitVec.ofNat 28 e.kind.code

/-- STATUS.CODE (10_state.md R22). -/
def statusCode (w : BitVec 28) : Nat := (w.extractLsb' 0 8).toNat

/-- STATUS.FIELD (10_state.md R22). -/
def statusField (w : BitVec 28) : Nat := (w.extractLsb' 8 8).toNat

/-- STATUS.WIDTH (10_state.md R22). -/
def statusWidth (w : BitVec 28) : Nat := (w.extractLsb' 16 8).toNat

/-- STATUS.SUB (10_state.md R22). -/
def statusSub (w : BitVec 28) : Nat := (w.extractLsb' 24 4).toNat

end Sys2Proof.Machine
end

