-- ==== Sys2Proof/Machine/Operands.lean ====
section
/-! DEFINITION. The operands commands read (30_encoding.md R82, R83, R86) and the names of the register window's
offsets (10_state.md R20). -/

namespace Sys2Proof.Machine

/-- `V[i]` (10_state.md R31). There are sixteen; no command run under a well-formed catalog reads beyond (log entry 7). -/
def State.vAt (s : State) (i : Nat) : Word := if h : i < 16 then s.v[i] else 0

/-- `uint(WID(i))`: byte `i` of WIDLO, then of WIDHI (10_state.md R29). -/
def State.wid (s : State) (i : Nat) : Nat :=
  if i < 8 then (extractBits s.widlo (8 * i) 8).toNat
  else (extractBits s.widhi (8 * (i - 8)) 8).toNat

/-- The `(value, width)` pairs of PACKBITS (42_bitfield_packer.md R190). -/
def State.packPairs (s : State) (n : Nat) : List (Word × Nat) :=
  (List.range n).map fun i => (s.vAt i, s.wid i)

/-- `Cat(idx)`, defined only for `idx < N_MSG` (00_scope.md R9). -/
def State.cat (s : State) (idx : Nat) : Option Definition := s.catalog[idx]?

/-- The catalog index of the definition with arbitration id QID (40_catalog.md R110). -/
def State.lookupIdx (s : State) : Option Nat := s.catalog.findIdx? fun d => d.id == s.qid.toNat

/-- The registers of the window (10_state.md R20); `reserved k` is offset 0x060 + 8k (R32). -/
inductive Reg where
  | cmd | status | qid | midx | plen | payload | frame | acc | widlo | widhi | errmin | errmax
  | reserved (k : Fin 4)
  | v (i : Fin 16)
deriving DecidableEq, Repr

/-- The byte offset of a register (10_state.md R20). -/
def Reg.offset : Reg → Nat
  | .cmd => 0x000
  | .status => 0x008
  | .qid => 0x010
  | .midx => 0x018
  | .plen => 0x020
  | .payload => 0x028
  | .frame => 0x030
  | .acc => 0x038
  | .widlo => 0x040
  | .widhi => 0x048
  | .errmin => 0x050
  | .errmax => 0x058
  | .reserved k => 0x060 + 8 * k.val
  | .v i => 0x080 + 8 * i.val

/-- The register in 64-bit slot `n` of the window (10_state.md R20). -/
def Reg.ofSlot (n : Nat) : Option Reg :=
  match n with
  | 0 => some .cmd
  | 1 => some .status
  | 2 => some .qid
  | 3 => some .midx
  | 4 => some .plen
  | 5 => some .payload
  | 6 => some .frame
  | 7 => some .acc
  | 8 => some .widlo
  | 9 => some .widhi
  | 10 => some .errmin
  | 11 => some .errmax
  | n =>
    if h : n - 12 < 4 then some (.reserved ⟨n - 12, h⟩)
    else if h : n - 16 < 16 then some (.v ⟨n - 16, h⟩)
    else none

/-- The register a host access reaches: it is 64 bits wide, at a multiple of 8 and inside the window, or the spec does
not define it (10_state.md R34). -/
def Reg.ofAccess (off bits : Nat) : Option Reg :=
  if bits = 64 ∧ off % 8 = 0 then Reg.ofSlot (off / 8) else none

end Sys2Proof.Machine
end

