-- ==== Sys2Proof/Machine/Ops.lean ====
section
/-! DEFINITION. The named operations over the registers: the updates, the end of a command in success or error, and the
host's register accesses. -/

namespace Sys2Proof.Machine

/-- The three outcomes of the block. -/
abbrev Result := Host.Outcome State Fault Refusal

def State.setStatus (s : State) (w : BitVec 28) : State := { s with status := w }

def State.setQid (s : State) (x : BitVec 29) : State := { s with qid := x }

def State.setMidx (s : State) (x : BitVec 8) : State := { s with midx := x }

def State.setPlen (s : State) (x : BitVec 4) : State := { s with plen := x }

def State.setPayload (s : State) (x : Word) : State := { s with payload := x }

def State.setFrame (s : State) (x : BitVec 36) : State := { s with frame := x }

def State.setAcc (s : State) (x : Word) : State := { s with acc := x }

def State.setWidlo (s : State) (x : Word) : State := { s with widlo := x }

def State.setWidhi (s : State) (x : Word) : State := { s with widhi := x }

/-- ERRMIN and ERRMAX together (10_state.md R30). -/
def State.setErr (s : State) (lo hi : Word) : State := { s with errmin := lo, errmax := hi }

/-- The whole file V. -/
def State.setV (s : State) (x : Vector Word 16) : State := { s with v := x }

/-- One register of V. -/
def State.setVAt (s : State) (i : Fin 16) (x : Word) : State := { s with v := s.v.set i.val x }

def State.setHost (s : State) (ops : List HostOp) : State := { s with host := ops }

/-- Record the value a host read returned (log entry 3). -/
def State.answer (s : State) (x : Word) : State := { s with answers := s.answers ++ [x] }

/-- Count a command that took NAN_DRAW draws (log entry 4). -/
def State.drewNaN (s : State) : State := { s with nanDraws := s.nanDraws + 1 }

/-- `raise E(info)`: the one shared operation by which a command takes an error (00_scope.md R12; 60_exceptions.md
R210). Nothing is saved, no mode changes and control goes nowhere (R217), so there is no return (R218). -/
def raise (e : ErrorInfo) (s : State) : Result := .next (s.setStatus e.statusWord)

/-- The end of a successful command: STATUS = 0 (10_state.md R22). -/
def complete (s : State) : Result := .next (s.setStatus 0)

/-- `RegRead` of a register (00_scope.md R8; 10_state.md R21 to R33): no side effect. -/
def regRead (r : Reg) (s : State) : Word :=
  match r with
  | .cmd => 0
  | .status => s.status.setWidth 64
  | .qid => s.qid.setWidth 64
  | .midx => s.midx.setWidth 64
  | .plen => s.plen.setWidth 64
  | .payload => s.payload
  | .frame => s.frame.setWidth 64
  | .acc => s.acc
  | .widlo => s.widlo
  | .widhi => s.widhi
  | .errmin => s.errmin
  | .errmax => s.errmax
  | .reserved _ => 0
  | .v i => s.v[i]

/-- `RegWrite` of a register other than CMD (10_state.md R23 to R33; 20_memory.md R68). A write of CMD performs a
command, in the host port; here it stores nothing (R21). -/
def regWrite (r : Reg) (x : Word) (s : State) : State :=
  match r with
  | .cmd => s
  | .status => s
  | .qid => s.setQid (x.setWidth 29)
  | .midx => s
  | .plen => s.setPlen (x.setWidth 4)
  | .payload => s.setPayload x
  | .frame => s
  | .acc => s
  | .widlo => s.setWidlo x
  | .widhi => s.setWidhi x
  | .errmin => s
  | .errmax => s
  | .reserved _ => s
  | .v i => s.setVAt i x

/-- Reset: every register to the value of 10_state.md R42, CATALOG unchanged (70_reset_and_hazards.md R240). What the
host does next, what it has read and the count of NaN draws are no registers and stay (log entry 15). -/
def State.resetRegisters (s : State) : State :=
  { State.afterReset s.catalog with host := s.host, answers := s.answers, nanDraws := s.nanDraws }

end Sys2Proof.Machine
end

