-- ==== Sys2Proof/Machine/Codec.lean ====
section
/-! DEFINITION. The scalar codec: ENCODE and DECODE (41_scalar_codec.md). -/

namespace Sys2Proof.Machine

/-- The first field of ENCODE that fails: its index, the field and its error. -/
structure EncodeFailure where
  index : Nat
  field : FieldSpec
  error : FieldError
deriving DecidableEq, Repr

/-- The loop of ENCODE over the fields from index `i` on: each is checked, converted and placed in the local payload
`p`; the first failing field ends it (41_scalar_codec.md R140). -/
def encodeFields (s : State) (fs : List FieldSpec) (i : Nat) (p : Word) : Except EncodeFailure Word :=
  match fs with
  | [] => .ok p
  | f :: rest =>
    match encodeField (drawAt s.nanDraws i) f (s.vAt i) with
    | .ok r => encodeFields s rest (i + 1) (insertBits p f.off f.w r)
    | .error e => .error ⟨i, f, e⟩

/-- FRAME of a definition (10_state.md R27; 41_scalar_codec.md R140). -/
def frameOf (d : Definition) : BitVec 36 :=
  BitVec.ofNat 36 d.id ||| (BitVec.ofNat 36 d.ext.toNat <<< 29) ||| (BitVec.ofNat 36 d.length <<< 32)

/-- ENCODE takes the error of its first failing field: FieldOutOfRange writes ERRMIN and ERRMAX too
(41_scalar_codec.md R140; 10_state.md R30). -/
def raiseEncode (e : EncodeFailure) (s : State) : Result :=
  match e.error with
  | .outOfRange sub =>
    raise { kind := .fieldOutOfRange, field := e.index, sub := sub } (s.setErr e.field.min e.field.max)
  | .overflow => raise { kind := .bitFieldOverflow, field := e.index, width := e.field.w } s

/-- ENCODE (41_scalar_codec.md R140; 40_catalog.md R111). -/
def execEncode (idx : Nat) (s : State) : Result :=
  match s.cat idx with
  | none => raise { kind := .unknownMessage } s
  | some d =>
    match encodeFields s d.fields 0 0 with
    | .ok p => complete (((s.setPayload p).setPlen (BitVec.ofNat 4 d.length)).setFrame (frameOf d))
    | .error e => raiseEncode e s

/-- The loop of DECODE over the fields from index `i` on: `V[i]` gets the value of field `i`
(41_scalar_codec.md R150). -/
def decodeFields (cmd : Nat) (payload : Word) (fs : List FieldSpec) (i : Nat) (v : Vector Word 16) : Vector Word 16 :=
  match fs with
  | [] => v
  | f :: rest =>
    decodeFields cmd payload rest (i + 1)
      (v.setIfInBounds i (decodeField (drawAt cmd i) f (extractBits payload f.off f.w)))

/-- DECODE (41_scalar_codec.md R150; 40_catalog.md R111). -/
def execDecode (idx : Nat) (s : State) : Result :=
  match s.cat idx with
  | none => raise { kind := .unknownMessage } s
  | some d =>
    if s.plen.toNat ≠ d.length then raise { kind := .payloadLengthMismatch } s
    else complete (s.setV (decodeFields s.nanDraws s.payload d.fields 0 s.v)).drewNaN

end Sys2Proof.Machine
end

