-- ==== Sys2Proof/Machine/Lookup.lean ====
section
/-! DEFINITION. LOOKUP (40_catalog.md R110). -/

namespace Sys2Proof.Machine

/-- LOOKUP (40_catalog.md R110): the id alone is compared, not the extended flag. -/
def execLookup (s : State) : Result :=
  match s.lookupIdx with
  | some idx => complete (s.setMidx (BitVec.ofNat 8 idx))
  | none => raise { kind := .unknownMessage } s

end Sys2Proof.Machine
end

