-- ==== Sys2Proof/Machine/Packer.lean ====
section
/-! DEFINITION. The bit-field register packer's stand-alone commands: PACKBITS and TRUNCF (42_bitfield_packer.md). -/

namespace Sys2Proof.Machine

/-- The field at which `PackBits` fails with BitFieldOverflow, and its width (42_bitfield_packer.md R180). -/
structure PackFailure where
  index : Nat
  width : Nat
deriving DecidableEq, Repr

/-- The loop of `PackBits` from pair `i` on, with the accumulator and the cumulative bit offset
(42_bitfield_packer.md R180). -/
def packFrom (pairs : List (Word × Nat)) (i : Nat) (acc : Word) (shift : Nat) : Except PackFailure Word :=
  match pairs with
  | [] => .ok acc
  | (x, w) :: rest =>
    if 1 <<< w ≤ x.toNat then .error ⟨i, w⟩
    else packFrom rest (i + 1) (acc ||| (x <<< shift)) (shift + w)

/-- `PackBits` (42_bitfield_packer.md R180). -/
def packBits (pairs : List (Word × Nat)) : Except PackFailure Word := packFrom pairs 0 0 0

/-- The widths PACKBITS accepts: each from 1 to 64 and their sum at most 64 (42_bitfield_packer.md R190). -/
def widthsLegal (ws : List Nat) : Bool :=
  ws.all (fun w => decide (1 ≤ w) && decide (w ≤ 64)) && decide (ws.sum ≤ 64)

/-- PACKBITS (42_bitfield_packer.md R190): every width is checked before any value. Of an `n` that no word spells, see log
entry 14. -/
def execPackbits (n : Nat) (s : State) : Result :=
  if widthsLegal ((s.packPairs n).map Prod.snd) then
    match packBits (s.packPairs n) with
    | .ok acc => complete (s.setAcc acc)
    | .error e => raise { kind := .bitFieldOverflow, field := e.index, width := e.width } s
  else raise { kind := .illegalCommand } s

/-- The `k` most significant bytes of a binary32 encoding, `b[31 : 32-8k]` (42_bitfield_packer.md R192). -/
def keepBytes (k : Nat) (b : Word32) : Word := (b >>> (32 - 8 * k)).setWidth 64

/-- TRUNCF (42_bitfield_packer.md R192). -/
def execTruncf (k : Nat) (s : State) : Result :=
  match cvt64to32 (drawAt s.nanDraws 0).nan32 (s.vAt 0) with
  | none => raise { kind := .fieldOutOfRange, sub := 1 } s
  | some b => complete (s.setAcc (keepBytes k b)).drewNaN

end Sys2Proof.Machine
end

