-- ==== Sys2Proof/Machine/Dispatch.lean ====
section
/-! DEFINITION. One arm per command. -/

namespace Sys2Proof.Machine

def exec (i : Instr) (s : State) : Host.Outcome State Fault Refusal :=
  match i with
  | .lookup => Sys2Proof.Machine.execLookup s
  | .encode idx => Sys2Proof.Machine.execEncode idx s
  | .decode idx => Sys2Proof.Machine.execDecode idx s
  | .packbits n => Sys2Proof.Machine.execPackbits n s
  | .truncf k => Sys2Proof.Machine.execTruncf k s

end Sys2Proof.Machine
end

