-- ==== Sys2Proof/Machine/HostPort.lean ====
section
/-! DEFINITION. The host port: what each thing the host does makes of the block (00_scope.md R8, R14; 20_memory.md R67,
R68), and the boot of 70_reset_and_hazards.md R243. -/

namespace Sys2Proof.Machine

/-- The command of a CMD write, fetched from the word the host wrote (10_state.md R21; 30_encoding.md R81). An illegal
word performs no command but raises IllegalCommand (60_exceptions.md R211). -/
def performCommand (v : Word) (s : State) : Result :=
  match decode v with
  | .ok i => exec i s
  | .error _ => raise { kind := .illegalCommand } s

/-- A host write of `x` to a register: a write of CMD performs a command (20_memory.md R68). -/
def hostWrite (r : Reg) (x : Word) (s : State) : Result :=
  match r with
  | .cmd => performCommand x s
  | r => .next (regWrite r x s)

/-- `chk` (30_encoding.md R88): the host reads STATUS, and where CODE is not 0 its program stops there, so that nothing
it would have done next happens. -/
def hostCheck (s : State) : State :=
  let t := s.answer (regRead .status s)
  if statusCode s.status = 0 then t else t.setHost []

/-- One thing the host does. -/
def perform (op : HostOp) (s : State) : Result :=
  match op with
  | .reset => .next s.resetRegisters
  | .read off bits =>
    match Reg.ofAccess off bits with
    | some r => .next (s.answer (regRead r s))
    | none => .refused (.hostAccess off bits)
  | .write off bits x =>
    match Reg.ofAccess off bits with
    | some r => hostWrite r x s
    | none => .refused (.hostAccess off bits)
  | .check => .next (hostCheck s)

/-- The next thing the host does, taken from the front of what it has yet to do. While it does nothing the block waits
(70_reset_and_hazards.md R240; log entry 2). -/
def performNext (s : State) : Result :=
  match s.host with
  | [] => .next s
  | op :: rest => perform op (s.setHost rest)

/-- The boot of 70_reset_and_hazards.md R243: the platform loads `c` while the block is in reset, the configuration is
refused where a check fails (40_catalog.md R105), and reset ends. -/
def boot (c : Catalog) : Result :=
  match firstFault c with
  | some f => .refused (.illFormedCatalog f)
  | none => .next (State.afterReset c)

end Sys2Proof.Machine
end

