-- ==== Sys2Proof/Machine/Step.lean ====
section
/-! DEFINITION. One step of the block: one thing the host does, or waiting. -/

namespace Sys2Proof.Machine

/-- One step. A state whose catalog is ill-formed has no step: the model refuses the configuration
(40_catalog.md R105; 70_reset_and_hazards.md R243). -/
def step (s : State) : Host.Outcome State Fault Refusal :=
  match firstFault s.catalog with
  | some f => .refused (.illFormedCatalog f)
  | none => performNext s

/-- `s` with the next thing the host does a write of the command word `w` to CMD: the block has no program counter and
each command is one host write of CMD (10_state.md R35; log entry 2). -/
def State.withFetchWord (s : State) (nbits w : Nat) : State :=
  { s with host := .write 0x000 64 (BitVec.ofNat 64 (w % 2 ^ nbits)) :: s.host }

end Sys2Proof.Machine
end

