-- ==== Sys2Proof/Machine/Assembler.lean ====
section
/-! DEFINITION. The host program's statements and what they make the host do (30_encoding.md R87, R88). -/

namespace Sys2Proof.Machine

/-- A decimal numeral: its sign, and `digits` times ten to the power `up - down`. -/
structure Decimal where
  negative : Bool
  digits : Nat
  up : Nat := 0
  down : Nat := 0
deriving DecidableEq, Repr

/-- The decimal rounded to binary64, nearest, ties to even (30_encoding.md R88, `wrf`). The sign of a decimal
zero is kept, so that -0 is -0.0, by the model's choice (log entry 13). -/
def Decimal.toBinary64 (x : Decimal) : Word := ratio64 x.negative (x.digits * 10 ^ x.up) (10 ^ x.down)

/-- The statements of 30_encoding.md R87 and R88. -/
inductive Stmt where
  | lookup
  | encode (idx : Nat)
  | decode (idx : Nat)
  | packbits (n : Nat)
  | truncf (k : Nat)
  | cmd (imm : Word)
  | wr (r : Reg) (imm : Word)
  | rd (r : Reg)
  | wrf (i : Fin 16) (x : Decimal)
  | wru (i : Fin 16) (imm : Word)
  | setw (ws : List Nat)
  | chk
deriving DecidableEq, Repr

/-- A 64-bit write of a register. -/
def writeReg (r : Reg) (imm : Word) : HostOp := .write r.offset 64 imm

/-- The statement of a command: its word where the operand is in range, or rejected (30_encoding.md R87). -/
def assembleCommand (i : Instr) : Option (List HostOp) :=
  if i.wf then some [writeReg .cmd (encode i)] else none

/-- The name of a register, which a reserved offset has not (10_state.md R20, R32). -/
def Reg.named : Reg → Bool
  | .reserved _ => false
  | _ => true

/-- The sum over `j` of `wj << 8j` (30_encoding.md R88). A width of more than eight bits carries into the next. -/
def widthSum (ws : List Nat) : Nat :=
  match ws with
  | [] => 0
  | w :: rest => w + widthSum rest <<< 8

/-- The word `setw` writes for these widths: their sum, or a free value where that is no 64-bit number
(30_encoding.md R88; log entry 13). -/
def packWidths (ws : List Nat) : Word :=
  if widthSum ws < 1 <<< 64 then BitVec.ofNat 64 (widthSum ws) else Config.wideSum (widthSum ws)

/-- What the host does for one statement, or `none` where the assembler rejects it: an operand of the five command
statements that is out of range, or a register without a name (30_encoding.md R87, R88; log entry 13). -/
def assemble (st : Stmt) : Option (List HostOp) :=
  match st with
  | .lookup => assembleCommand .lookup
  | .encode idx => assembleCommand (.encode idx)
  | .decode idx => assembleCommand (.decode idx)
  | .packbits n => assembleCommand (.packbits n)
  | .truncf k => assembleCommand (.truncf k)
  | .cmd imm => some [writeReg .cmd imm]
  | .wr r imm => if r.named then some [writeReg r imm] else none
  | .rd r => if r.named then some [.read r.offset 64] else none
  | .wrf i x => some [writeReg (.v i) x.toBinary64]
  | .wru i imm => some [writeReg (.v i) imm]
  | .setw ws =>
    if ws.length ≤ 8 then some [writeReg .widlo (packWidths ws)]
    else some [writeReg .widlo (packWidths (ws.take 8)), writeReg .widhi (packWidths (ws.drop 8))]
  | .chk => some [.check]

/-- A host program, statement by statement, or `none` where the assembler rejects one. -/
def assembleAll (prog : List Stmt) : Option (List HostOp) :=
  match prog with
  | [] => some []
  | st :: rest =>
    match assemble st, assembleAll rest with
    | some a, some b => some (a ++ b)
    | _, _ => none

end Sys2Proof.Machine
end

