-- ==== Sys2Proof/Safety.lean ====
section
/-! DEFINITION. The terms claims about the block are stated in: the exact values of encodings, what it is to round, the
shapes that registers keep, and what a command reads. -/

namespace Sys2Proof.Safety

open Sys2Proof.Machine

/-- The value of a finite binary64 encoding, in units of 2^-1074. -/
def value64 (x : Word) : Int := if x.msb then -(units64 x : Int) else units64 x

/-- The value of a finite binary32 encoding, in units of 2^-149. -/
def value32 (x : Word32) : Int := if x.msb then -(units32 x : Int) else units32 x

/-- The least magnitude, in binary64 units, that rounds to a binary64 infinity: 2^1024 - 2^970. -/
def overflow64 : Nat := 1 <<< 2098 - 1 <<< 2044

/-- The least magnitude, in binary64 units, that rounds to a binary32 infinity: 2^128 - 2^103 (00_scope.md R10). -/
def overflow32 : Nat := 1 <<< 1202 - 1 <<< 1177

/-- `r` is the finite binary64 value nearest to `n / d` units, and the even one of two that are equally near. -/
def RoundsTo64 (r : Word) (n : Int) (d : Nat) : Prop :=
  isFinite64 r = true ∧ ∀ y : Word, isFinite64 y = true →
    |value64 r * d - n| < |value64 y * d - n| ∨
      (|value64 r * d - n| = |value64 y * d - n| ∧ (value64 y = value64 r ∨ mag64 r % 2 = 0))

/-- `r` is the finite binary32 value nearest to `n / d` binary32 units, and the even one of two equally near. -/
def RoundsTo32 (r : Word32) (n : Int) (d : Nat) : Prop :=
  isFinite32 r = true ∧ ∀ y : Word32, isFinite32 y = true →
    |value32 r * d - n| < |value32 y * d - n| ∨
      (|value32 r * d - n| = |value32 y * d - n| ∧ (value32 y = value32 r ∨ mag32 r % 2 = 0))

/-- STATUS has a shape that 60_exceptions.md R210 and 10_state.md R22 give it: a raised code or 0, each field 0 unless
the code records it. -/
def statusRegular (w : BitVec 28) : Bool :=
  decide (statusCode w ≤ 5) && decide (statusCode w ≠ 0 ∨ w = 0) &&
  decide (statusField w = 0 ∨ statusCode w = 2 ∨ statusCode w = 4) && decide (statusField w < 16) &&
  decide (statusWidth w = 0 ∨ statusCode w = 4) && decide (statusWidth w ≤ 64) &&
  decide (statusSub w = 0 ∨ (statusCode w = 2 ∧ statusSub w = 1))

/-- FRAME has the shape of 10_state.md R27: bits 31:30 are 0, DLC is at most 8, and an id without EXT has 11 bits. -/
def frameRegular (x : BitVec 36) : Bool :=
  decide (x.extractLsb' 30 2 = 0) && decide ((x.extractLsb' 32 4).toNat ≤ 8) &&
  (x.getLsbD 29 || decide ((x.extractLsb' 0 29).toNat < 2048))

/-- FRAME is its reset value or the frame of a definition of CATALOG (10_state.md R27, R42). -/
def frameFromCatalog (s : State) : Bool :=
  decide (s.frame = 0) || s.catalog.any fun d => decide (s.frame = frameOf d)

/-- MIDX is its reset value or the index of a definition (10_state.md R24, R42). -/
def midxFromCatalog (s : State) : Bool := decide (s.midx = 0) || decide (s.midx.toNat < s.catalog.length)

/-- ERRMIN and ERRMAX are their reset values or the range of one field of CATALOG (10_state.md R30, R42). -/
def errFromCatalog (s : State) : Bool :=
  (decide (s.errmin = 0) && decide (s.errmax = 0)) ||
    s.catalog.any fun d => d.fields.any fun f => decide (s.errmin = f.min) && decide (s.errmax = f.max)

/-- The invariant of the read-only registers. -/
def Inv (s : State) : Bool :=
  statusRegular s.status && frameRegular s.frame && frameFromCatalog s && midxFromCatalog s && errFromCatalog s

/-- Two states agree on what a command reads: the registers of 30_encoding.md R86, CATALOG, and the NAN_DRAW draws
still to come. -/
def readsAgree (i : Instr) (s s' : State) : Prop :=
  s.catalog = s'.catalog ∧ s.nanDraws = s'.nanDraws ∧
  match i with
  | .lookup => s.qid = s'.qid
  | .encode idx => ∀ d : Definition, s.catalog[idx]? = some d → ∀ j, j < d.fields.length → s.vAt j = s'.vAt j
  | .decode _ => s.plen = s'.plen ∧ s.payload = s'.payload
  | .packbits n => s.widlo = s'.widlo ∧ (8 < n → s.widhi = s'.widhi) ∧ ∀ j, j < n → s.vAt j = s'.vAt j
  | .truncf _ => s.vAt 0 = s'.vAt 0

/-- A register that a command either leaves in both of two runs or gives the same value in both. -/
def sameOrKept {α : Type} (before before' after after' : α) : Prop :=
  after = after' ∨ (after = before ∧ after' = before')

/-- Every field of `d` that ENCODE would take from `s` is in range and has the raw form `raw` gives it. -/
def fieldsConvert (s : State) (d : Definition) (raw : Nat → Word) : Prop :=
  ∀ (j : Nat) (f : FieldSpec), d.fields[j]? = some f →
    inRange f (s.vAt j) = true ∧ rawConv (drawAt s.nanDraws j) f (s.vAt j) = some (raw j)

/-- A definition with the shape of the reference/switch/control register (40_catalog.md R113). -/
def controlRegisterShape (d : Definition) : Bool :=
  decide (d.length = 8) &&
  decide (d.fields.map (fun f => (f.kind, f.off, f.w)) =
    [(.f32, 0, 32), (.bits, 32, 3), (.bits, 35, 3), (.bits, 38, 1), (.bits, 39, 1), (.trunc, 40, 24)])

end Sys2Proof.Safety
end

