-- ==== Sys2Proof/Certificates/Slice0/Obligations.lean ====
section
/-! DEFINITION. The statements for the provers. Each docstring names the rules of spec/ it rests on. `exec`, `step` and
the named operations are the model's; a next state is written out as the state before with the changed registers, so
that each such equation is also the command's frame. -/

open Sys2Proof Sys2Proof.Machine Sys2Proof.Safety

-- ## The command word (30_encoding.md)

/-- R80, R81, R85, R87: no bit of a command's word is dropped, and decoding is strict: the word of a command is the
only one that decodes to it, and no other term decodes. -/
def Obligations.DecodeInvertsEncode : Prop :=
  (∀ i : Instr, i.wf = true → Sys2Proof.decode (Sys2Proof.encode i) = .ok i) ∧
  (∀ (v : Word) (i : Instr), Sys2Proof.decode v = .ok i → i.wf = true ∧ Sys2Proof.encode i = v)

/-- R81: both tables, the fields' and the match and mask one. -/
def Obligations.DecodeSelectsTheRowOfTheWord : Prop :=
  ∀ v : Word,
    (Sys2Proof.decode v = .ok .lookup ↔ v = 0x0000000000000001) ∧
    (∀ k, Sys2Proof.decode v = .ok (.encode k) ↔
      v.extractLsb' 24 40 = 0 ∧ v.extractLsb' 8 8 = 0 ∧ v.extractLsb' 0 8 = 0x02 ∧ k = (v.extractLsb' 16 8).toNat) ∧
    (∀ k, Sys2Proof.decode v = .ok (.decode k) ↔
      v.extractLsb' 24 40 = 0 ∧ v.extractLsb' 8 8 = 0 ∧ v.extractLsb' 0 8 = 0x03 ∧ k = (v.extractLsb' 16 8).toNat) ∧
    (∀ n, Sys2Proof.decode v = .ok (.packbits n) ↔
      v.extractLsb' 16 48 = 0 ∧ v.extractLsb' 0 8 = 0x04 ∧ n = (v.extractLsb' 8 8).toNat ∧ 1 ≤ n ∧ n ≤ 16) ∧
    (∀ k, Sys2Proof.decode v = .ok (.truncf k) ↔
      v.extractLsb' 16 48 = 0 ∧ v.extractLsb' 0 8 = 0x05 ∧ k = (v.extractLsb' 8 8).toNat ∧ 1 ≤ k ∧ k ≤ 4) ∧
    ((∃ k, Sys2Proof.decode v = .ok (.encode k)) ↔ v &&& 0xFFFFFFFFFF00FFFF = 0x0000000000000002) ∧
    ((∃ k, Sys2Proof.decode v = .ok (.decode k)) ↔ v &&& 0xFFFFFFFFFF00FFFF = 0x0000000000000003) ∧
    ((∃ n, Sys2Proof.decode v = .ok (.packbits n)) ↔
      v &&& 0xFFFFFFFFFFFF00FF = 0x0000000000000004 ∧ 1 ≤ (v.extractLsb' 8 8).toNat ∧ (v.extractLsb' 8 8).toNat ≤ 16) ∧
    ((∃ k, Sys2Proof.decode v = .ok (.truncf k)) ↔
      v &&& 0xFFFFFFFFFFFF00FF = 0x0000000000000005 ∧ 1 ≤ (v.extractLsb' 8 8).toNat ∧ (v.extractLsb' 8 8).toNat ≤ 4)

/-- R85, R211: which words are illegal, and that a CMD write of one writes STATUS = 5 and nothing else (the write itself
leaves the host's list). -/
def Obligations.IllegalWordsOnlyRaiseIllegalCommand : Prop :=
  ∀ v : Word,
    let op := v.extractLsb' 0 8
    let arg := (v.extractLsb' 8 8).toNat
    let idx := v.extractLsb' 16 8
    let illegal := op = 0x00 ∨ 0x06 ≤ op.toNat ∨ v.extractLsb' 24 40 ≠ 0 ∨ (op = 0x01 ∧ (arg ≠ 0 ∨ idx ≠ 0)) ∨
      ((op = 0x02 ∨ op = 0x03) ∧ arg ≠ 0) ∨ (op = 0x04 ∧ (idx ≠ 0 ∨ arg = 0 ∨ 16 < arg)) ∨
      (op = 0x05 ∧ (idx ≠ 0 ∨ arg = 0 ∨ 4 < arg))
    ((∀ i, Sys2Proof.decode v ≠ .ok i) ↔ illegal) ∧
    (illegal → ∀ (s : State) (rest : List HostOp), wellFormed s.catalog = true → s.host = .write 0x000 64 v :: rest →
      step s = .next { s with host := rest, status := 0x0000005 })

/-- R81, R87: words of 95_test_vectors.md section 3.1 read as the commands they are written for. -/
def Obligations.SampleWordsDecode : Prop :=
  Sys2Proof.decode 0x0000000000000001 = .ok .lookup ∧
  Sys2Proof.decode 0x0000000000020002 = .ok (.encode 2) ∧
  Sys2Proof.decode 0x0000000000FF0002 = .ok (.encode 255) ∧
  Sys2Proof.decode 0x0000000000030003 = .ok (.decode 3) ∧
  Sys2Proof.decode 0x0000000000000404 = .ok (.packbits 4) ∧
  Sys2Proof.decode 0x0000000000001004 = .ok (.packbits 16) ∧
  Sys2Proof.decode 0x0000000000000305 = .ok (.truncf 3)

/-- R14, R21, R35: a step whose host access writes a legal word to CMD is `exec` of its command, on the state with that
access taken from the host's list; `withFetchWord` makes the very next step that of the table word's command. -/
def Obligations.StepRunsTheDecodedCommand : Prop :=
  (∀ (s : State) (rest : List HostOp) (v : Word) (i : Instr), wellFormed s.catalog = true →
    s.host = .write 0x000 64 v :: rest → Sys2Proof.decode v = .ok i → step s = exec i { s with host := rest }) ∧
  (∀ (s : State) (nbits w : Nat) (i : Instr), wellFormed s.catalog = true →
    decodeTableWord nbits w = some i → step (s.withFetchWord nbits w) = exec i s)

-- ## LOOKUP (40_catalog.md)

/-- R110: the command's word, and what it does where a definition has the id QID and where none has. -/
def Obligations.LookupFindsTheDefinition : Prop :=
  (∀ v : Word, Sys2Proof.decode v = .ok .lookup ↔ v = 0x0000000000000001) ∧
  ∀ s : State, wellFormed s.catalog = true →
    (∀ (idx : Nat) (d : Definition), s.catalog[idx]? = some d → d.id = s.qid.toNat →
      exec .lookup s = .next { s with midx := BitVec.ofNat 8 idx, status := 0 } ∧ (BitVec.ofNat 8 idx).toNat = idx) ∧
    ((∀ d ∈ s.catalog, d.id ≠ s.qid.toNat) → exec .lookup s = .next { s with status := 0x0000001 })

/-- R111: ENCODE and DECODE of an index with no definition, whatever the other registers hold; and that neither raises
UnknownMessage for an index that has one. -/
def Obligations.UnknownIndexRaisesUnknownMessage : Prop :=
  ∀ (s : State) (idx : Nat),
    (s.catalog.length ≤ idx →
      exec (.encode idx) s = .next { s with status := 0x0000001 } ∧
      exec (.decode idx) s = .next { s with status := 0x0000001 }) ∧
    (idx < s.catalog.length → ∀ t, exec (.encode idx) s = .next t ∨ exec (.decode idx) s = .next t →
      statusCode t.status ≠ 1)

-- ## ENCODE (41_scalar_codec.md)

/-- R140, R62: where every field is in range and converts, ENCODE completes; every raw bit stands at its payload bit,
every other payload bit is 0, and PLEN, FRAME and STATUS are written; nothing else changes. -/
def Obligations.EncodePlacesEveryField : Prop :=
  ∀ (s : State) (idx : Nat) (d : Definition) (raw : Nat → Word), wellFormed s.catalog = true →
    s.catalog[idx]? = some d → fieldsConvert s d raw →
    ∃ p : Word,
      exec (.encode idx) s = .next { s with
        payload := p, plen := BitVec.ofNat 4 d.length,
        frame := BitVec.ofNat 36 (d.id + d.ext.toNat * 2 ^ 29 + d.length * 2 ^ 32), status := 0 } ∧
      (∀ (i : Nat) (f : FieldSpec), d.fields[i]? = some f → ∀ j, j < f.w → p.getLsbD (f.off + j) = (raw i).getLsbD j) ∧
      (∀ b, (∀ (i : Nat) (f : FieldSpec), d.fields[i]? = some f → ¬ (f.off ≤ b ∧ b < f.off + f.w)) → p.getLsbD b = false)

/-- R140, R215, R30, R41: ENCODE reports its first failing field in declared order, the range check first; only STATUS
and, for FieldOutOfRange, ERRMIN and ERRMAX change. -/
def Obligations.EncodeReportsFirstFailingField : Prop :=
  ∀ (s : State) (idx : Nat) (d : Definition) (i : Nat) (f : FieldSpec), i < 16 →
    s.catalog[idx]? = some d → d.fields[i]? = some f →
    (∀ (j : Nat) (g : FieldSpec), j < i → d.fields[j]? = some g →
      inRange g (s.vAt j) = true ∧ (rawConv (drawAt s.nanDraws j) g (s.vAt j)).isSome = true) →
    (inRange f (s.vAt i) = false →
      exec (.encode idx) s = .next { s with
        status := BitVec.ofNat 28 (2 + 2 ^ 8 * i), errmin := f.min, errmax := f.max }) ∧
    (inRange f (s.vAt i) = true → f.kind ≠ .bits → rawConv (drawAt s.nanDraws i) f (s.vAt i) = none →
      exec (.encode idx) s = .next { s with
        status := BitVec.ofNat 28 (2 + 2 ^ 8 * i + 2 ^ 24), errmin := f.min, errmax := f.max }) ∧
    (inRange f (s.vAt i) = true → f.kind = .bits → f.w < 64 → 2 ^ f.w ≤ (s.vAt i).toNat →
      exec (.encode idx) s = .next { s with status := BitVec.ofNat 28 (4 + 2 ^ 8 * i + 2 ^ 16 * f.w) })

/-- R107: under a well-formed catalog ENCODE never reports SUB = 1 nor BitFieldOverflow; TRUNCF and PACKBITS can. -/
def Obligations.InRangeValuesAlwaysConvert : Prop :=
  (∀ (c : Catalog) (d : Definition) (f : FieldSpec) (draw : Draw) (x : Word), wellFormed c = true → d ∈ c → f ∈ d.fields →
    inRange f x = true → (rawConv draw f x).isSome = true) ∧
  (∀ (s t : State) (idx : Nat), wellFormed s.catalog = true → exec (.encode idx) s = .next t →
    statusSub t.status ≠ 1 ∧ statusCode t.status ≠ 4) ∧
  (∃ (s t : State), exec (.truncf 3) s = .next t ∧ statusCode t.status = 2 ∧ statusSub t.status = 1) ∧
  (∃ (s t : State), exec (.packbits 1) s = .next t ∧ statusCode t.status = 4)

/-- R161: ENCODE fails with FieldOutOfRange for every value outside its range, and completes where every value is in
its range, the ends of the range among them. -/
def Obligations.EncodeSucceedsExactlyInRange : Prop :=
  ∀ (s : State) (idx : Nat) (d : Definition), wellFormed s.catalog = true → s.catalog[idx]? = some d →
    ((∃ (i : Nat) (f : FieldSpec), d.fields[i]? = some f ∧ inRange f (s.vAt i) = false) →
      ∃ t, exec (.encode idx) s = .next t ∧ statusCode t.status = 2) ∧
    ((∀ (i : Nat) (f : FieldSpec), d.fields[i]? = some f → inRange f (s.vAt i) = true) →
      ∃ t, exec (.encode idx) s = .next t ∧ t.status = 0) ∧
    (∀ (i : Nat) (f : FieldSpec) (draw : Draw), d.fields[i]? = some f →
      (∃ r, encodeField draw f f.min = .ok r) ∧ (∃ r, encodeField draw f f.max = .ok r))

/-- R27: the fields of FRAME after ENCODE, the zeros between and above them, and that nothing else writes FRAME. -/
def Obligations.FrameHoldsIdExtAndDlc : Prop :=
  (∀ (s t : State) (idx : Nat) (d : Definition), wellFormed s.catalog = true → s.catalog[idx]? = some d →
    exec (.encode idx) s = .next t → t.status = 0 →
      (t.frame.extractLsb' 0 29).toNat = d.id ∧ t.frame.getLsbD 29 = d.ext ∧ t.frame.extractLsb' 30 2 = 0 ∧
      (t.frame.extractLsb' 32 4).toNat = d.length ∧ (regRead .frame t).extractLsb' 36 28 = 0) ∧
  (∀ (s t : State) (i : Instr), exec i s = .next t → ((∀ idx, i ≠ .encode idx) ∨ t.status ≠ 0) → t.frame = s.frame) ∧
  (∀ (s : State) (r : Reg) (x : Word), (regWrite r x s).frame = s.frame)

/-- R61: the least significant byte of a multi-byte field stands in its lowest-indexed payload byte. -/
def Obligations.EncodeIsLittleEndian : Prop :=
  ∀ (s t : State) (idx : Nat) (d : Definition) (i : Nat) (f : FieldSpec) (r : Word), wellFormed s.catalog = true →
    s.catalog[idx]? = some d → exec (.encode idx) s = .next t → t.status = 0 → d.fields[i]? = some f →
    f.kind ≠ .bits → rawConv (drawAt s.nanDraws i) f (s.vAt i) = some r →
    ∀ j, 8 * j < f.w → t.payload.extractLsb' (8 * (f.off / 8 + j)) 8 = r.extractLsb' (8 * j) 8

/-- R112: ENCODE places a run of BITS fields as PackBits composes it. -/
def Obligations.RunOfBitsIsPackBits : Prop :=
  ∀ (s t : State) (idx a m : Nat) (d : Definition) (f0 : FieldSpec), wellFormed s.catalog = true →
    s.catalog[idx]? = some d → exec (.encode idx) s = .next t → t.status = 0 →
    d.fields[a]? = some f0 → 1 ≤ m → a + m ≤ d.fields.length →
    (∀ f ∈ (d.fields.drop a).take m, f.kind = .bits) →
    ∃ acc : Word,
      packBits (((d.fields.drop a).take m).zipIdx.map fun q => (s.vAt (a + q.2), q.1.w)) = .ok acc ∧
      acc.toNat = t.payload.toNat / 2 ^ f0.off % 2 ^ (((d.fields.drop a).take m).map FieldSpec.w).sum

/-- R195: a BITS field that passes a byte boundary has its low bits in the top of one payload byte and its remaining
bits from bit 0 of the next one on. -/
def Obligations.BitsFieldCrossesByteBoundary : Prop :=
  ∀ (s t : State) (idx : Nat) (d : Definition) (i : Nat) (f : FieldSpec), wellFormed s.catalog = true →
    s.catalog[idx]? = some d → exec (.encode idx) s = .next t → t.status = 0 → d.fields[i]? = some f →
    f.kind = .bits → 8 < f.off % 8 + f.w →
    (∀ j, j < 8 - f.off % 8 →
      (t.payload.extractLsb' (8 * (f.off / 8)) 8).getLsbD (f.off % 8 + j) = (s.vAt i).getLsbD j) ∧
    (∀ j, 8 - f.off % 8 ≤ j → j < f.w →
      t.payload.getLsbD (8 * (f.off / 8 + 1) + (j - (8 - f.off % 8))) = (s.vAt i).getLsbD j)

/-- R113: byte 4 of a message with the shape of the reference/switch/control register is its four bit fields, and bytes
5 to 7 are the three most significant bytes of the binary32 of the scaled resistance. -/
def Obligations.ControlRegisterLayout : Prop :=
  ∀ (s t : State) (idx : Nat) (d : Definition) (res : FieldSpec), wellFormed s.catalog = true →
    s.catalog[idx]? = some d → controlRegisterShape d = true → d.fields[5]? = some res →
    exec (.encode idx) s = .next t → t.status = 0 →
    (t.payload.extractLsb' 32 8).toNat =
      (s.vAt 1).toNat + 2 ^ 3 * (s.vAt 2).toNat + 2 ^ 6 * (s.vAt 3).toNat + 2 ^ 7 * (s.vAt 4).toNat ∧
    ∃ c : Word32, scaledBinary32 (drawAt s.nanDraws 5) res.scale (s.vAt 5) = some c ∧
      t.payload.extractLsb' 40 24 = c.extractLsb' 8 24

-- ## The raw conversions and the range check (41_scalar_codec.md, 42_bitfield_packer.md)

/-- R132, R133: the integer kinds, whose values fail to convert rather than wrap around. -/
def Obligations.IntegerRawConversion : Prop :=
  ∀ (draw : Draw) (f : FieldSpec) (x : Word), (f.w = 8 ∨ f.w = 16 ∨ f.w = 32 ∨ f.w = 64) →
    let p := mul64 draw.nan64 x f.scale
    let r := rneInt p
    (f.kind = .sint ∨ f.kind = .uint → isFinite64 p = false → rawConv draw f x = none) ∧
    (f.kind = .sint → isFinite64 p = true →
      ((r < -2 ^ (f.w - 1) ∨ r > 2 ^ (f.w - 1) - 1) → rawConv draw f x = none) ∧
      (-2 ^ (f.w - 1) ≤ r → r ≤ 2 ^ (f.w - 1) - 1 →
        rawConv draw f x = some (BitVec.ofNat 64 (r % 2 ^ f.w).toNat))) ∧
    (f.kind = .uint → isFinite64 p = true →
      ((r < 0 ∨ r > 2 ^ f.w - 1) → rawConv draw f x = none) ∧
      (0 ≤ r → r ≤ 2 ^ f.w - 1 → rawConv draw f x = some (BitVec.ofNat 64 r.toNat)))

/-- R135: the range check, which no NaN passes and which does not tell the zeros apart. -/
def Obligations.RangeCheckComparesEngineeringValues : Prop :=
  ∀ (f : FieldSpec) (x : Word),
    (f.kind = .bits → (inRange f x = true ↔ f.min.toNat ≤ x.toNat ∧ x.toNat ≤ f.max.toNat)) ∧
    (f.kind ≠ .bits →
      (inRange f x = true ↔ le64 f.min x = true ∧ le64 x f.max = true) ∧
      (isNaN64 x = true → inRange f x = false) ∧
      (inRange f 0x8000000000000000 = inRange f 0x0000000000000000))

/-- R131, R182: the float kinds. A product that is infinite, or finite and of magnitude 2^128 - 2^103 or more, fails; of
every other finite product the raw form is the nearest binary32, whole for F32 and its `w / 8` most significant bytes
for TRUNC; of a NaN that of some binary32 NaN, where the draw is one (log entry 4). -/
def Obligations.FloatRawConversion : Prop :=
  ∀ (draw : Draw) (f : FieldSpec) (x : Word),
    ((f.kind = .f32 ∧ f.w = 32) ∨ (f.kind = .trunc ∧ (f.w = 8 ∨ f.w = 16 ∨ f.w = 24 ∨ f.w = 32))) →
    let p := mul64 draw.nan64 x f.scale
    let raw := fun (c : Word32) => rawConv draw f x = some (BitVec.ofNat 64 (c.toNat / 2 ^ (32 - f.w)))
    (isInf64 p = true → rawConv draw f x = none) ∧
    (isFinite64 p = true → overflow32 ≤ (value64 p).natAbs → rawConv draw f x = none) ∧
    (isFinite64 p = true → (value64 p).natAbs < overflow32 →
      ∃ c, raw c ∧ c.msb = p.msb ∧ RoundsTo32 c (value64 p) unitRatio) ∧
    (isNaN64 p = true → isNaN32 draw.nan32 = true → ∃ c, raw c ∧ isNaN32 c = true)

-- ## DECODE (41_scalar_codec.md, 42_bitfield_packer.md)

/-- R150 to R154, R183, R184: where PLEN is the definition's length DECODE completes, each `V[i]` with the value its
kind gives the raw bits, the V registers from `nf` on unchanged, with no range check. The draws of NAN_DRAW it took are
counted in the model's own `nanDraws` (log entry 4). -/
def Obligations.DecodeWritesEveryField : Prop :=
  ∀ (s : State) (idx : Nat) (d : Definition), wellFormed s.catalog = true → s.catalog[idx]? = some d →
    s.plen.toNat = d.length →
    ∃ v' : Vector Word 16,
      exec (.decode idx) s = .next { s with v := v', status := 0, nanDraws := s.nanDraws + 1 } ∧
      ∀ (i : Nat) (h : i < 16),
        (d.fields.length ≤ i → v'[i] = s.v[i]) ∧
        (∀ f, d.fields[i]? = some f →
          let raw := s.payload.toNat / 2 ^ f.off % 2 ^ f.w
          let nan := (drawAt s.nanDraws i).nan64
          v'[i] = match f.kind with
            | .f32 => div64 nan (cvt32to64 nan (BitVec.ofNat 32 raw)) f.scale
            | .sint =>
              div64 nan (cvtInt64 (if raw < 2 ^ (f.w - 1) then (raw : Int) else (raw : Int) - 2 ^ f.w)) f.scale
            | .uint => div64 nan (cvtInt64 raw) f.scale
            | .trunc => div64 nan (cvt32to64 nan (BitVec.ofNat 32 (raw * 2 ^ (32 - f.w)))) f.scale
            | .bits => BitVec.ofNat 64 raw)

/-- R150, R25: PLEN other than the definition's length raises PayloadLengthMismatch, and a stored length 9 to 15 is
other than every definition's. -/
def Obligations.DecodeChecksTheLength : Prop :=
  ∀ (s : State) (idx : Nat) (d : Definition), s.catalog[idx]? = some d →
    (s.plen.toNat ≠ d.length → exec (.decode idx) s = .next { s with status := 0x0000003 }) ∧
    (wellFormed s.catalog = true → 9 ≤ s.plen.toNat → exec (.decode idx) s = .next { s with status := 0x0000003 })

/-- R150: payload bits that no field covers do not matter to DECODE. -/
def Obligations.DecodeIgnoresUncoveredBits : Prop :=
  ∀ (s t : State) (idx : Nat) (p' : Word),
    (∀ d : Definition, s.catalog[idx]? = some d → ∀ f ∈ d.fields, ∀ b, f.off ≤ b → b < f.off + f.w →
      s.payload.getLsbD b = p'.getLsbD b) →
    exec (.decode idx) s = .next t → exec (.decode idx) { s with payload := p' } = .next { t with payload := p' }

/-- R150, R10: a float field decodes to a NaN exactly where its raw pattern is a NaN, and an integer field never does. -/
def Obligations.OnlyNaNPatternsDecodeToNaN : Prop :=
  ∀ (s t : State) (idx : Nat) (d : Definition) (i : Nat) (f : FieldSpec), wellFormed s.catalog = true →
    s.catalog[idx]? = some d → exec (.decode idx) s = .next t → t.status = 0 → d.fields[i]? = some f →
    let raw := s.payload.toNat / 2 ^ f.off % 2 ^ f.w
    (f.kind = .f32 → isNaN64 (t.vAt i) = isNaN32 (BitVec.ofNat 32 raw)) ∧
    (f.kind = .trunc → isNaN64 (t.vAt i) = isNaN32 (BitVec.ofNat 32 (raw * 2 ^ (32 - f.w)))) ∧
    (f.kind = .sint ∨ f.kind = .uint → isNaN64 (t.vAt i) = false)

/-- R160: DECODE after ENCODE of the same definition completes, and what it gives back for each kind. -/
def Obligations.EncodeThenDecode : Prop :=
  ∀ (s t : State) (idx : Nat) (d : Definition), wellFormed s.catalog = true → s.catalog[idx]? = some d →
    exec (.encode idx) s = .next t → t.status = 0 →
    ∃ u, exec (.decode idx) t = .next u ∧ u.status = 0 ∧
      ∀ (i : Nat) (f : FieldSpec), d.fields[i]? = some f →
        let n64 := (drawAt s.nanDraws i).nan64
        let n32 := (drawAt s.nanDraws i).nan32
        let p := mul64 n64 (s.vAt i) f.scale
        (f.kind = .f32 → ∃ c, cvt64to32 n32 p = some c ∧ u.vAt i = div64 n64 (cvt32to64 n64 c) f.scale) ∧
        (f.kind = .sint ∨ f.kind = .uint → u.vAt i = div64 n64 (cvtInt64 (rneInt p)) f.scale) ∧
        (f.kind = .trunc → ∃ c, cvt64to32 n32 p = some c ∧
          u.vAt i = div64 n64 (cvt32to64 n64 (c >>> (32 - f.w) <<< (32 - f.w))) f.scale) ∧
        (f.kind = .bits → u.vAt i = s.vAt i)

-- ## PACKBITS and TRUNCF (42_bitfield_packer.md)

/-- R190: widths of 0, above 64 or summing above 64 raise IllegalCommand whatever the values. -/
def Obligations.PackbitsRejectsUnusableWidths : Prop :=
  ∀ (s : State) (n : Nat), 1 ≤ n → n ≤ 16 →
    ((∃ i, i < n ∧ (s.wid i = 0 ∨ 64 < s.wid i)) ∨ 64 < ∑ i ∈ Finset.range n, s.wid i) →
    exec (.packbits n) s = .next { s with status := 0x0000005 }

/-- R180, R190: with usable widths and values that fit, PACKBITS completes, each value at the cumulative bit offset of
those before it, and the bits from the sum of the widths on 0. -/
def Obligations.PackbitsComposesByCumulativeOffset : Prop :=
  ∀ (s : State) (n : Nat), 1 ≤ n → n ≤ 16 → (∀ i, i < n → 1 ≤ s.wid i ∧ s.wid i ≤ 64) →
    ∑ i ∈ Finset.range n, s.wid i ≤ 64 → (∀ i, i < n → (s.vAt i).toNat < 2 ^ s.wid i) →
    ∃ acc : Word, exec (.packbits n) s = .next { s with acc := acc, status := 0 } ∧
      acc.toNat = ∑ i ∈ Finset.range n, (s.vAt i).toNat * 2 ^ (∑ j ∈ Finset.range i, s.wid j) ∧
      acc.toNat < 2 ^ (∑ i ∈ Finset.range n, s.wid i)

/-- R180, R190, R215: with usable widths, PACKBITS reports the first value that does not fit its width. -/
def Obligations.PackbitsReportsFirstOverflow : Prop :=
  ∀ (s : State) (n i : Nat), i < n → n ≤ 16 → (∀ j, j < n → 1 ≤ s.wid j ∧ s.wid j ≤ 64) →
    ∑ j ∈ Finset.range n, s.wid j ≤ 64 → (∀ j, j < i → (s.vAt j).toNat < 2 ^ s.wid j) →
    2 ^ s.wid i ≤ (s.vAt i).toNat →
    exec (.packbits n) s = .next { s with status := BitVec.ofNat 28 (4 + 2 ^ 8 * i + 2 ^ 16 * s.wid i) }

/-- R193: the source's register byte. -/
def Obligations.RegisterByteFixture : Prop :=
  packBits [(1, 3), (2, 3), (0, 1), (1, 1)] = .ok 0x91 ∧ (0x91 : Word) = 0b1_0_010_001

/-- R192: TRUNCF by the class of V[0]: it raises SUB = 1 for a finite value from 2^128 - 2^103 on, and completes for
every other, with the top bytes of the binary32 nearest to a finite value, of an infinity, or of some NaN. The count of
draws taken is the model's own `nanDraws` (log entry 4). -/
def Obligations.TruncfRoundsThenKeepsTopBytes : Prop :=
  ∀ (s : State) (k : Nat), 1 ≤ k → k ≤ 4 →
    let x := s.vAt 0
    let done := fun (b : Word32) => exec (.truncf k) s = .next { s with
      acc := BitVec.ofNat 64 (b.toNat / 2 ^ (32 - 8 * k)), status := 0, nanDraws := s.nanDraws + 1 }
    (isFinite64 x = true → overflow32 ≤ (value64 x).natAbs →
      exec (.truncf k) s = .next { s with status := 0x1000002 }) ∧
    (isFinite64 x = true → (value64 x).natAbs < overflow32 →
      ∃ b, done b ∧ b.msb = x.msb ∧ RoundsTo32 b (value64 x) unitRatio) ∧
    (isInf64 x = true → done (if x.msb then 0xFF800000 else 0x7F800000)) ∧
    (isNaN64 x = true → ∃ b, done b ∧ isNaN32 b = true)

/-- R194: TRUNCF of one value is the top of its full encoding for every `k`, and depends on nothing else but, for a
NaN, the draw. -/
def Obligations.TruncfIsTopOfFullEncoding : Prop :=
  (∀ (s t : State) (k : Nat), 1 ≤ k → k ≤ 4 → exec (.truncf 4) s = .next t → t.status = 0 →
    exec (.truncf k) s = .next { t with acc := t.acc >>> (32 - 8 * k) } ∧ t.acc.toNat < 2 ^ 32) ∧
  (∀ (s s' t : State) (k : Nat), s.vAt 0 = s'.vAt 0 → isNaN64 (s.vAt 0) = false → exec (.truncf k) s = .next t →
    t.status = 0 → exec (.truncf k) s' = .next { s' with acc := t.acc, status := 0, nanDraws := s'.nanDraws + 1 })

/-- R185: what keeping `k` bytes of a binary32 and filling the rest with 0 does to it. With `k = 1` an exponent bit is
dropped as well, so that what the rule says of NaNs follows from R182 and R183 for `k` from 2 on only (log entry 19). -/
def Obligations.TruncationClearsLowBits : Prop :=
  ∀ (c : Word32) (k : Nat), 1 ≤ k → k ≤ 4 →
    let r := refillTrunc (8 * k) (keepBytes k c)
    r.toNat = c.toNat - c.toNat % 2 ^ (32 - 8 * k) ∧ r.msb = c.msb ∧ mag32 r ≤ mag32 c ∧
    (r = c ↔ c.toNat % 2 ^ (32 - 8 * k) = 0) ∧
    (isFinite32 c = true → (value32 r).natAbs ≤ (value32 c).natAbs) ∧
    (2 ≤ k → isNaN32 c = true → mag32 c < inf32 + 2 ^ (32 - 8 * k) → isInf32 r = true)

-- ## The numeric primitives (00_scope.md)

/-- R10: `mul64` on finite values is the product rounded once, or the infinity of its sign. -/
def Obligations.MultiplicationRoundsOnce : Prop :=
  ∀ nan a b : Word, isFinite64 a = true → isFinite64 b = true →
    (mul64 nan a b).msb = (a.msb ^^ b.msb) ∧
    ((value64 a * value64 b).natAbs < overflow64 * one64 →
      RoundsTo64 (mul64 nan a b) (value64 a * value64 b) one64) ∧
    (overflow64 * one64 ≤ (value64 a * value64 b).natAbs → isInf64 (mul64 nan a b) = true)

/-- R10: `div64` on finite values with a divisor that is not zero is the quotient rounded once, or the infinity of its
sign. -/
def Obligations.DivisionRoundsOnce : Prop :=
  ∀ nan a b : Word, isFinite64 a = true → isFinite64 b = true → isZero64 b = false →
    (div64 nan a b).msb = (a.msb ^^ b.msb) ∧
    (units64 a * one64 < overflow64 * units64 b →
      RoundsTo64 (div64 nan a b) (value64 a * one64 * (value64 b).sign) (units64 b)) ∧
    (overflow64 * units64 b ≤ units64 a * one64 → isInf64 (div64 nan a b) = true)

/-- R10: `cvt32to64` is exact on every finite value and keeps infinities and signs. -/
def Obligations.WideningIsExact : Prop :=
  ∀ (nan : Word) (b : Word32), isNaN32 b = false →
    (cvt32to64 nan b).msb = b.msb ∧ isInf64 (cvt32to64 nan b) = isInf32 b ∧
    (isFinite32 b = true →
      isFinite64 (cvt32to64 nan b) = true ∧ value64 (cvt32to64 nan b) = value32 b * (unitRatio : Int))

/-- R10: `cvtint64` of every integer that a field can hold is the nearest binary64, and exact up to 2^53. -/
def Obligations.IntegersConvertToNearest : Prop :=
  ∀ n : Int, n.natAbs ≤ 2 ^ 64 →
    RoundsTo64 (cvtInt64 n) (n * (one64 : Int)) 1 ∧ (cvtInt64 n).msb = decide (n < 0) ∧
    (n.natAbs ≤ 2 ^ 53 → value64 (cvtInt64 n) = n * (one64 : Int))

/-- R11: `rne_int` is the nearest integer, an even one where two are equally near. -/
def Obligations.RneIntIsNearestEven : Prop :=
  (∀ x : Word, isFinite64 x = true →
    2 * |value64 x - rneInt x * (one64 : Int)| ≤ (one64 : Int) ∧
    (2 * |value64 x - rneInt x * (one64 : Int)| = (one64 : Int) → rneInt x % 2 = 0)) ∧
  rneInt 0x4004000000000000 = 2 ∧ rneInt 0xC004000000000000 = -2 ∧ rneInt 0x3FE0000000000000 = 0 ∧
  rneInt 0x8000000000000000 = 0

/-- R13: the order of binary64 values. -/
def Obligations.OrderIsThatOfTheValues : Prop :=
  ∀ a b : Word,
    ((isNaN64 a = true ∨ isNaN64 b = true) → le64 a b = false) ∧
    (isFinite64 a = true → isFinite64 b = true → (le64 a b = true ↔ value64 a ≤ value64 b)) ∧
    (isNaN64 a = false → le64 0xFFF0000000000000 a = true ∧ le64 a 0x7FF0000000000000 = true) ∧
    (isFinite64 a = true → le64 a 0xFFF0000000000000 = false ∧ le64 0x7FF0000000000000 a = false) ∧
    (le64 0x8000000000000000 0x0000000000000000 = true ∧ le64 0x0000000000000000 0x8000000000000000 = true)

/-- R10, I10: where a product or quotient is a NaN it is the draw, and where the draw is a NaN there is no other. The
cases are IEEE 754's (log entry 8). -/
def Obligations.NaNResultsAreTheDraw : Prop :=
  ∀ nan a b : Word, isNaN64 nan = true →
    (isNaN64 (mul64 nan a b) = true ↔
      isNaN64 a = true ∨ isNaN64 b = true ∨ (isInf64 a = true ∧ isZero64 b = true) ∨
        (isZero64 a = true ∧ isInf64 b = true)) ∧
    (isNaN64 (mul64 nan a b) = true → mul64 nan a b = nan) ∧
    (isNaN64 (div64 nan a b) = true ↔
      isNaN64 a = true ∨ isNaN64 b = true ∨ (isInf64 a = true ∧ isInf64 b = true) ∨
        (isZero64 a = true ∧ isZero64 b = true)) ∧
    (isNaN64 (div64 nan a b) = true → div64 nan a b = nan) ∧
    (∀ cmd i, isNaN64 (drawAt cmd i).nan64 = true ∧ isNaN32 (drawAt cmd i).nan32 = true)

-- ## The catalog (40_catalog.md)

/-- R104, R5: the one predicate is the thirteen checks and the bound of R5 on N_MSG, which the model checks with them
(log entry 6). -/
def Obligations.WellFormedIsEveryCheck : Prop :=
  ∀ cat : Catalog, wellFormed cat = true ↔
    cat.length ≤ 256 ∧
    (∀ (i j : Nat) (d e : Definition), cat[i]? = some d → cat[j]? = some e → i ≠ j → d.id ≠ e.id ∧ d.name ≠ e.name) ∧
    (∀ d ∈ cat, (d.ext = false → d.id < 2 ^ 11) ∧ (d.ext = true → d.id < 2 ^ 29) ∧ d.length ≤ 8 ∧
      d.fields.length ≤ 16 ∧
      (∀ (i j : Nat) (f g : FieldSpec), d.fields[i]? = some f → d.fields[j]? = some g → i ≠ j →
        f.name ≠ g.name ∧
        ∀ b, ¬ (f.off ≤ b ∧ b < f.off + f.w ∧ g.off ≤ b ∧ b < g.off + g.w)) ∧
      (∀ (i : Nat) (f g : FieldSpec), d.fields[i]? = some f → d.fields[i + 1]? = some g → f.kind = .bits → g.kind = .bits →
        g.off = f.off + f.w) ∧
      (∀ f ∈ d.fields, f.off + f.w ≤ 8 * d.length ∧
        (f.kind = .f32 → f.w = 32) ∧
        (f.kind = .sint ∨ f.kind = .uint → f.w = 8 ∨ f.w = 16 ∨ f.w = 32 ∨ f.w = 64) ∧
        (f.kind = .trunc → f.w = 8 ∨ f.w = 16 ∨ f.w = 24 ∨ f.w = 32) ∧
        (f.kind = .bits → 1 ≤ f.w ∧ f.w ≤ 64 ∧ f.min.toNat ≤ f.max.toNat ∧ f.max.toNat < 2 ^ f.w) ∧
        (f.kind ≠ .bits → f.off % 8 = 0 ∧ isFinite64 f.scale = true ∧ isZero64 f.scale = false ∧
          isFinite64 f.min = true ∧ isFinite64 f.max = true ∧ le64 f.min f.max = true ∧
          ∀ draw, (rawConv draw f f.min).isSome = true ∧ (rawConv draw f f.max).isSome = true)))

/-- R105: an ill-formed catalog is refused, by boot and by every step, and a well-formed one boots into the reset
state; what a refusal names does fail, and nothing fails a check before it. The order of the checks, and of the places
within a check, is the model's choice (log entry 6). -/
def Obligations.IllFormedCatalogIsRefusedByName : Prop :=
  (∀ s : State, wellFormed s.catalog = false →
    ∃ ft, firstFault s.catalog = some ft ∧ step s = .refused (.illFormedCatalog ft) ∧
      boot s.catalog = .refused (.illFormedCatalog ft)) ∧
  (∀ cat : Catalog, wellFormed cat = true → boot cat = .next (State.afterReset cat)) ∧
  ∀ (cat : Catalog) (ft : CatalogFault), firstFault cat = some ft →
    (∃ d : Definition, cat[ft.definition]? = some d ∧
      match ft.field with
      | none => ft.check.onDefinition cat ft.definition d = false
      | some j => ∃ f : FieldSpec, d.fields[j]? = some f ∧ ft.check.onField d j f = false) ∧
    (∀ before after, WfCheck.inOrder = before ++ ft.check :: after → ∀ k ∈ before,
      ∀ (i : Nat) (d : Definition), cat[i]? = some d → k.onDefinition cat i d = true ∧
        ∀ (j : Nat) (f : FieldSpec), d.fields[j]? = some f → k.onField d j f = true)

/-- R106: BTE's invariant on field widths follows from the checks. -/
def Obligations.FieldWidthsFitThePayload : Prop :=
  ∀ (c : Catalog) (d : Definition), wellFormed c = true → d ∈ c →
    (d.fields.map FieldSpec.w).sum ≤ 8 * d.length ∧ (d.fields.map FieldSpec.w).sum ≤ 64

/-- R38, R241: nothing that happens changes CATALOG. -/
def Obligations.CatalogNeverChanges : Prop :=
  ∀ s t : State, step s = .next t → t.catalog = s.catalog

-- ## The registers and the host port (10_state.md, 20_memory.md)

/-- R20: the offset of every register, as the table's number, and that an access reaches a register exactly at its
offset and 64 bits wide. -/
def Obligations.OffsetsNameTheRegisters : Prop :=
  Reg.cmd.offset = 0x000 ∧ Reg.status.offset = 0x008 ∧ Reg.qid.offset = 0x010 ∧ Reg.midx.offset = 0x018 ∧
  Reg.plen.offset = 0x020 ∧ Reg.payload.offset = 0x028 ∧ Reg.frame.offset = 0x030 ∧ Reg.acc.offset = 0x038 ∧
  Reg.widlo.offset = 0x040 ∧ Reg.widhi.offset = 0x048 ∧ Reg.errmin.offset = 0x050 ∧ Reg.errmax.offset = 0x058 ∧
  (Reg.reserved 0).offset = 0x060 ∧ (Reg.reserved 1).offset = 0x068 ∧ (Reg.reserved 2).offset = 0x070 ∧
  (Reg.reserved 3).offset = 0x078 ∧
  (∀ (r : Reg) (off bits : Nat), Reg.ofAccess off bits = some r ↔ bits = 64 ∧ off = r.offset) ∧
  (∀ i : Fin 16, (Reg.v i).offset = 0x080 + 8 * i.val) ∧ (∀ r : Reg, r.offset % 8 = 0 ∧ r.offset < 0x100)

/-- R34: exactly the accesses of another width, alignment or offset are refused. -/
def Obligations.MalformedAccessIsRefused : Prop :=
  ∀ (s : State) (rest : List HostOp) (off bits : Nat) (x : Word), wellFormed s.catalog = true →
    (s.host = .read off bits :: rest → (step s = .refused (.hostAccess off bits) ↔ ¬ (bits = 64 ∧ off % 8 = 0 ∧ off < 0x100))) ∧
    (s.host = .write off bits x :: rest → (step s = .refused (.hostAccess off bits) ↔ ¬ (bits = 64 ∧ off % 8 = 0 ∧ off < 0x100)))

/-- R68, R33, R32, R23, R25: what a host access does. A read only returns its value, which the model's own list
`answers` records (log entry 3); a write of CMD performs a command; any other write stores in its register, masked for
QID and PLEN, or does nothing where the register is read-only or reserved. -/
def Obligations.HostAccessSideEffects : Prop :=
  ∀ (s : State) (rest : List HostOp) (x : Word), wellFormed s.catalog = true →
    let t := { s with host := rest }
    let write := fun off => s.host = .write off 64 x :: rest
    (∀ r : Reg, s.host = .read r.offset 64 :: rest → step s = .next { t with answers := s.answers ++ [regRead r s] }) ∧
    (write 0x000 → step s = performCommand x t) ∧
    (write 0x010 → step s = .next { t with qid := x.extractLsb' 0 29 }) ∧
    (write 0x020 → step s = .next { t with plen := x.extractLsb' 0 4 }) ∧
    (write 0x028 → step s = .next { t with payload := x }) ∧
    (write 0x040 → step s = .next { t with widlo := x }) ∧
    (write 0x048 → step s = .next { t with widhi := x }) ∧
    (∀ i : Fin 16, write (0x080 + 8 * i.val) → step s = .next { t with v := s.v.set i.val x }) ∧
    (∀ off ∈ [0x008, 0x018, 0x030, 0x038, 0x050, 0x058, 0x060, 0x068, 0x070, 0x078], write off → step s = .next t)

/-- R21 to R32: what a read returns, with the bits that always read 0. -/
def Obligations.RegistersReadZeroExtended : Prop :=
  ∀ s : State,
    regRead .cmd s = 0 ∧ (∀ k, regRead (.reserved k) s = 0) ∧
    (regRead .status s).toNat = s.status.toNat ∧ (regRead .status s).extractLsb' 28 36 = 0 ∧
    (regRead .qid s).toNat = s.qid.toNat ∧ (regRead .qid s).extractLsb' 29 35 = 0 ∧
    (regRead .midx s).toNat = s.midx.toNat ∧ (regRead .midx s).extractLsb' 8 56 = 0 ∧
    (regRead .plen s).toNat = s.plen.toNat ∧ (regRead .plen s).extractLsb' 4 60 = 0 ∧
    (regRead .frame s).toNat = s.frame.toNat ∧ (regRead .frame s).extractLsb' 36 28 = 0 ∧
    regRead .payload s = s.payload ∧ regRead .acc s = s.acc ∧ regRead .widlo s = s.widlo ∧
    regRead .widhi s = s.widhi ∧ regRead .errmin s = s.errmin ∧ regRead .errmax s = s.errmax ∧
    (∀ i : Fin 16, regRead (.v i) s = s.v[i])

/-- R210, R22: `raise` writes STATUS and nothing else, and each of its arguments stands in its field of STATUS. -/
def Obligations.StatusHoldsTheErrorRecord : Prop :=
  (∀ (e : ErrorInfo) (s : State), raise e s = .next { s with status := e.statusWord }) ∧
  ∀ e : ErrorInfo, e.field < 256 → e.width < 256 → e.sub < 16 →
    e.statusWord.toNat = e.kind.code + 2 ^ 8 * e.field + 2 ^ 16 * e.width + 2 ^ 24 * e.sub ∧
    statusCode e.statusWord = e.kind.code ∧ statusField e.statusWord = e.field ∧
    statusWidth e.statusWord = e.width ∧ statusSub e.statusWord = e.sub

/-- R41: an error changes only STATUS and, for ENCODE's FieldOutOfRange, ERRMIN and ERRMAX. -/
def Obligations.ErrorsLeaveEveryOtherRegister : Prop :=
  ∀ (s t : State) (v : Word), performCommand v s = .next t → t.status ≠ 0 →
    t = { s with status := t.status, errmin := t.errmin, errmax := t.errmax } ∧
    (((∀ idx, Sys2Proof.decode v ≠ .ok (.encode idx)) ∨ statusCode t.status ≠ 2) →
      t.errmin = s.errmin ∧ t.errmax = s.errmax)

/-- R40: what each command may change where it succeeds. The count `nanDraws` is the model's own (log entry 4). -/
def Obligations.SuccessWritesOnlyTheListedRegisters : Prop :=
  ∀ (s t : State) (i : Instr), exec i s = .next t → t.status = 0 →
    match i with
    | .lookup => t = { s with midx := t.midx, status := 0 }
    | .encode _ => t = { s with payload := t.payload, plen := t.plen, frame := t.frame, status := 0 }
    | .decode idx =>
      t = { s with v := t.v, status := 0, nanDraws := s.nanDraws + 1 } ∧
      ∀ d : Definition, s.catalog[idx]? = some d → ∀ j, d.fields.length ≤ j → t.vAt j = s.vAt j
    | .packbits _ => t = { s with acc := t.acc, status := 0 }
    | .truncf _ => t = { s with acc := t.acc, status := 0, nanDraws := s.nanDraws + 1 }

/-- R216, R37: no command reads STATUS, and every command overwrites it. -/
def Obligations.StatusIsNotSticky : Prop :=
  ∀ (s : State) (v : Word) (w : BitVec 28), performCommand v { s with status := w } = performCommand v s

/-- R86, R162: a command's outcome depends on nothing but what it reads; a register it does not give the same value in
both runs it leaves alone in both. -/
def Obligations.CommandsDependOnlyOnWhatTheyRead : Prop :=
  ∀ (i : Instr) (s s' t : State), readsAgree i s s' → exec i s = .next t →
    ∃ t', exec i s' = .next t' ∧ t'.status = t.status ∧
      sameOrKept s.qid s'.qid t.qid t'.qid ∧ sameOrKept s.widlo s'.widlo t.widlo t'.widlo ∧
      sameOrKept s.widhi s'.widhi t.widhi t'.widhi ∧
      sameOrKept s.midx s'.midx t.midx t'.midx ∧ sameOrKept s.plen s'.plen t.plen t'.plen ∧
      sameOrKept s.payload s'.payload t.payload t'.payload ∧ sameOrKept s.frame s'.frame t.frame t'.frame ∧
      sameOrKept s.acc s'.acc t.acc t'.acc ∧ sameOrKept s.errmin s'.errmin t.errmin t'.errmin ∧
      sameOrKept s.errmax s'.errmax t.errmax t'.errmax ∧ ∀ j, sameOrKept (s.vAt j) (s'.vAt j) (t.vAt j) (t'.vAt j)

/-- R69: a command performed twice in a row leaves what it left once; where it takes NaN draws, that holds of results
that are no NaN, and only the model's own count of draws moves on. -/
def Obligations.CommandsAreIdempotent : Prop :=
  ∀ (i : Instr) (s t : State), exec i s = .next t →
    match i with
    | .lookup => exec i t = .next t
    | .encode _ => exec i t = .next t
    | .packbits _ => exec i t = .next t
    | .decode idx =>
      (t.status ≠ 0 → exec i t = .next t) ∧
      (t.status = 0 →
        (∀ d : Definition, s.catalog[idx]? = some d → ∀ (j : Nat) (f : FieldSpec), d.fields[j]? = some f → f.kind ≠ .bits → isNaN64 (t.vAt j) = false) →
        exec i t = .next { t with nanDraws := t.nanDraws + 1 })
    | .truncf _ =>
      (t.status ≠ 0 → exec i t = .next t) ∧
      (t.status = 0 → isNaN64 (s.vAt 0) = false → exec i t = .next { t with nanDraws := t.nanDraws + 1 })

/-- R14, R67, R85: every CMD write ends in a next state, and so does every step but a malformed access; with nothing to
do the block waits (log entry 2). -/
def Obligations.EveryCommandCompletes : Prop :=
  (∀ (v : Word) (s : State), ∃ t, performCommand v s = .next t ∧ statusCode t.status ≤ 5) ∧
  (∀ s : State, wellFormed s.catalog = true →
    (∀ op rest, s.host = op :: rest →
      (∀ off bits, op = .read off bits → bits = 64 ∧ off % 8 = 0 ∧ off < 0x100) ∧
      (∀ off bits x, op = .write off bits x → bits = 64 ∧ off % 8 = 0 ∧ off < 0x100)) →
    (∃ t, step s = .next t) ∧ (s.host = [] → step s = .next s))

-- ## Reset (70_reset_and_hazards.md)

/-- R42, R240: the reset values, whatever CATALOG is, and that the reset of a running block gives every register its
reset value and leaves CATALOG. That it leaves the model's own `host`, `answers` and `nanDraws` is the model's choice
(log entry 15). -/
def Obligations.ResetValuesAreZero : Prop :=
  (∀ (s : State) (rest : List HostOp), wellFormed s.catalog = true → s.host = .reset :: rest →
    step s = .next { State.afterReset s.catalog with host := rest, answers := s.answers, nanDraws := s.nanDraws }) ∧
  ∀ c : Catalog,
    (State.afterReset c).status = 0 ∧ (State.afterReset c).qid = 0 ∧ (State.afterReset c).midx = 0 ∧
    (State.afterReset c).plen = 0 ∧ (State.afterReset c).payload = 0 ∧ (State.afterReset c).frame = 0 ∧
    (State.afterReset c).acc = 0 ∧ (State.afterReset c).widlo = 0 ∧ (State.afterReset c).widhi = 0 ∧
    (State.afterReset c).errmin = 0 ∧ (State.afterReset c).errmax = 0 ∧ (∀ i, (State.afterReset c).vAt i = 0) ∧
    (∀ r, regRead r (State.afterReset c) = 0) ∧ (State.afterReset c).catalog = c

/-- R242: the examples of commands issued straight after reset. -/
def Obligations.CommandsStraightAfterReset : Prop :=
  ∀ cat : Catalog, wellFormed cat = true →
    (∀ n, 1 ≤ n → n ≤ 16 → exec (.packbits n) (State.afterReset cat) = .next { State.afterReset cat with status := 0x0000005 }) ∧
    (∀ (idx : Nat) (d : Definition), cat[idx]? = some d →
      (d.length ≠ 0 → exec (.decode idx) (State.afterReset cat) = .next { State.afterReset cat with status := 0x0000003 }) ∧
      ((∀ f ∈ d.fields, inRange f 0 = true) → ∃ t, exec (.encode idx) (State.afterReset cat) = .next t ∧ t.status = 0) ∧
      (∀ f ∈ d.fields, inRange f 0 = false →
        ∃ t, exec (.encode idx) (State.afterReset cat) = .next t ∧ statusCode t.status = 2))

/-- R22, R24, R27, R30, R210: the read-only registers hold only what the commands may leave in them. -/
def Obligations.StepKeepsReadOnlyRegistersRegular : Prop :=
  ∀ s t : State, Inv s = true → step s = .next t → Inv t = true

/-- R42: the reset state meets that invariant, whatever CATALOG is. -/
def Obligations.ResetIsRegular : Prop :=
  (∀ c : Catalog, Inv (State.afterReset c) = true) ∧ Inv State.reset = true

-- ## Host programs (30_encoding.md)

/-- R87, R88: the command statements' words, that out-of-range operands are rejected, `cmd`, and the accesses of `wr`,
`rd`, `wru` and `wrf`; the word of `wrf` is the binary64 nearest to the decimal, ties to even, with its sign, or the
infinity that IEEE 754 gives beyond the range (log entry 8). That a reserved offset has no name, and that the sign clause
makes a decimal -0 the zero -0.0, which no rule states, are the model's choices (log entry 13). -/
def Obligations.AssembledStatements : Prop :=
  let word := fun n : Nat => some [HostOp.write 0x000 64 (BitVec.ofNat 64 n)]
  assemble .lookup = word 1 ∧
  (∀ idx, (idx < 256 → assemble (.encode idx) = word (2 + 2 ^ 16 * idx)) ∧ (256 ≤ idx → assemble (.encode idx) = none)) ∧
  (∀ idx, (idx < 256 → assemble (.decode idx) = word (3 + 2 ^ 16 * idx)) ∧ (256 ≤ idx → assemble (.decode idx) = none)) ∧
  (∀ n, (1 ≤ n → n ≤ 16 → assemble (.packbits n) = word (4 + 2 ^ 8 * n)) ∧
    ((n = 0 ∨ 16 < n) → assemble (.packbits n) = none)) ∧
  (∀ k, (1 ≤ k → k ≤ 4 → assemble (.truncf k) = word (5 + 2 ^ 8 * k)) ∧
    ((k = 0 ∨ 4 < k) → assemble (.truncf k) = none)) ∧
  (∀ imm, assemble (.cmd imm) = some [.write 0x000 64 imm]) ∧
  (∀ r : Reg, (∀ k, r ≠ .reserved k) →
    (∀ imm, assemble (.wr r imm) = some [.write r.offset 64 imm]) ∧ assemble (.rd r) = some [.read r.offset 64]) ∧
  (∀ (i : Fin 16) imm, assemble (.wru i imm) = some [.write (0x080 + 8 * i.val) 64 imm]) ∧
  (∀ (i : Fin 16) (x : Decimal), ∃ b : Word, assemble (.wrf i x) = some [.write (0x080 + 8 * i.val) 64 b] ∧
    b.msb = x.negative ∧
    (x.digits * 10 ^ x.up * one64 < overflow64 * 10 ^ x.down →
      RoundsTo64 b ((if x.negative then -1 else 1) * ((x.digits * 10 ^ x.up * one64 : Nat) : Int)) (10 ^ x.down)) ∧
    (overflow64 * 10 ^ x.down ≤ x.digits * 10 ^ x.up * one64 → isInf64 b = true))

/-- R88, R29: `setw` of any list writes the sums of R88 where they are 64-bit numbers; what it writes where one is not is
free (log entry 13). Of up to sixteen widths of eight bits it makes the widths PACKBITS reads the listed ones, and leaves
every other register. -/
def Obligations.SetwSetsTheWidths : Prop :=
  (∀ ws : List Nat,
    let lo := ∑ j ∈ Finset.range (min ws.length 8), ws.getD j 0 * 2 ^ (8 * j)
    let hi := ∑ j ∈ Finset.Ico 8 ws.length, ws.getD j 0 * 2 ^ (8 * (j - 8))
    ∃ a b : Word,
      assemble (.setw ws) =
        some (if ws.length ≤ 8 then [.write 0x040 64 a] else [.write 0x040 64 a, .write 0x048 64 b]) ∧
      (lo < 2 ^ 64 → a.toNat = lo) ∧ (hi < 2 ^ 64 → b.toNat = hi)) ∧
  ∀ (s : State) (ws : List Nat), wellFormed s.catalog = true → ws.length ≤ 16 →
    (∀ w ∈ ws, w < 256) → ∃ ops, assemble (.setw ws) = some ops ∧
      ∀ rest, s.host = ops ++ rest → ∃ t, Sys2Proof.core.run ops.length s = .next t ∧
        t = { s with widlo := t.widlo, widhi := t.widhi, host := rest } ∧
        (∀ i w, ws[i]? = some w → t.wid i = w) ∧ (ws.length ≤ 8 → t.widhi = s.widhi)

/-- R88: `chk` reads STATUS, and a CODE that is not 0 stops the host program. -/
def Obligations.ChkStopsTheHostOnError : Prop :=
  ∀ (s : State) (rest : List HostOp), wellFormed s.catalog = true → s.host = .check :: rest →
    (statusCode s.status = 0 →
      step s = .next { s with host := rest, answers := s.answers ++ [regRead .status s] }) ∧
    (statusCode s.status ≠ 0 →
      step s = .next { s with host := [], answers := s.answers ++ [regRead .status s] })
end

