-- ==== Sys2Proof/Laws/Assembler.lean ====
section
/-! SUPPORT. What `setw` packs its widths to. -/

namespace Sys2Proof.Machine

@[simp] theorem widthSum_nil : widthSum [] = 0 := rfl

theorem widthSum_cons (w : Nat) (ws : List Nat) : widthSum (w :: ws) = w + 256 * widthSum ws := by
  rw [widthSum, Nat.shiftLeft_eq]; omega

/-- Widths of eight bits fill one byte each. -/
theorem widthSum_lt (ws : List Nat) (h : ∀ w ∈ ws, w < 256) : widthSum ws < 256 ^ ws.length := by
  induction ws with
  | nil => simp
  | cons w rest ih =>
    have hw := h w (by simp)
    have hr := ih fun x hx => h x (by simp [hx])
    rw [widthSum_cons, List.length_cons, Nat.pow_succ]
    omega

/-- Byte `i` of the sum of widths of eight bits is width `i`. -/
theorem widthSum_byte (ws : List Nat) (h : ∀ w ∈ ws, w < 256) (i w : Nat) (hi : ws[i]? = some w) :
    widthSum ws / 256 ^ i % 256 = w := by
  induction ws generalizing i with
  | nil => simp at hi
  | cons x rest ih =>
    have hx := h x (by simp)
    rw [widthSum_cons]
    cases i with
    | zero =>
      obtain rfl : x = w := by simpa using hi
      rw [Nat.pow_zero]; omega
    | succ j =>
      rw [Nat.pow_succ, Nat.mul_comm (256 ^ j), ← Nat.div_div_eq_div_mul,
        show (x + 256 * widthSum rest) / 256 = widthSum rest by omega]
      exact ih (fun y hy => h y (by simp [hy])) j (by simpa using hi)

/-- Where the sum is a 64-bit number, the word `setw` writes is that number. -/
theorem packWidths_toNat (ws : List Nat) (h : widthSum ws < 2 ^ 64) : (packWidths ws).toNat = widthSum ws := by
  have h' : widthSum ws < 1 <<< 64 := h
  rw [packWidths, if_pos h', BitVec.toNat_ofNat, Nat.mod_eq_of_lt h]

end Sys2Proof.Machine
end

