-- ==== Sys2Proof/Laws/Bits.lean ====
section
/-! SUPPORT. The bit-range helpers bit by bit and as numbers. -/

namespace Sys2Proof.Machine

@[simp] theorem lowMask_toNat (w : Nat) (h : w ≤ 64) : (lowMask w).toNat = 2 ^ w - 1 := by
  have h1 : 2 ^ w ≤ 2 ^ 64 := Nat.pow_le_pow_right (by decide) h
  have h2 : 0 < 2 ^ w := Nat.two_pow_pos w
  rw [lowMask, BitVec.toNat_ofNat, Nat.shiftLeft_eq, Nat.one_mul, Nat.mod_eq_of_lt (by omega)]

theorem getLsbD_lowMask (w i : Nat) : (lowMask w).getLsbD i = (decide (i < 64) && decide (i < w)) := by
  rw [lowMask, BitVec.getLsbD_ofNat, Nat.shiftLeft_eq, Nat.one_mul, Nat.testBit_two_pow_sub_one]

theorem getLsbD_extractBits (p : Word) (off w i : Nat) :
    (extractBits p off w).getLsbD i = (decide (i < w) && p.getLsbD (off + i)) := by
  rw [extractBits, BitVec.getLsbD_and, BitVec.getLsbD_ushiftRight, getLsbD_lowMask]
  by_cases h : i < 64
  · simp [h, Bool.and_comm]
  · simp [BitVec.getLsbD_of_ge p (off + i) (by omega)]

theorem extractBits_toNat (p : Word) (off w : Nat) :
    (extractBits p off w).toNat = p.toNat / 2 ^ off % 2 ^ w := by
  apply Nat.eq_of_testBit_eq
  intro i
  rw [BitVec.testBit_toNat, getLsbD_extractBits, Nat.testBit_mod_two_pow, Nat.testBit_div_two_pow,
    BitVec.testBit_toNat, Nat.add_comm]

theorem extractBits_lt (p : Word) (off w : Nat) : (extractBits p off w).toNat < 2 ^ w := by
  rw [extractBits_toNat]; exact Nat.mod_lt _ (Nat.two_pow_pos w)

/-- Everything `insertBits` does: the low bits of `r` in the range, the bits of `p` outside it. -/
theorem getLsbD_insertBits (p r : Word) (off w i : Nat) :
    (insertBits p off w r).getLsbD i =
      (decide (i < 64) && if off ≤ i ∧ i < off + w then r.getLsbD (i - off) else p.getLsbD i) := by
  simp only [insertBits, BitVec.getLsbD_or, BitVec.getLsbD_and, BitVec.getLsbD_not, BitVec.getLsbD_shiftLeft,
    getLsbD_lowMask]
  by_cases h : i < 64 <;> by_cases h1 : i < off
  · have h2 : ¬ (off ≤ i ∧ i < off + w) := by omega
    simp [h, h1, h2]
  · have h3 : i - off < 64 := by omega
    by_cases h2 : i - off < w
    · have h4 : off ≤ i ∧ i < off + w := by omega
      simp [h, h1, h2, h3, h4]
    · have h4 : ¬ (off ≤ i ∧ i < off + w) := by omega
      simp [h, h1, h2, h4]
  · simp [h, BitVec.getLsbD_of_ge p i (by omega)]
  · simp [h, BitVec.getLsbD_of_ge p i (by omega)]

end Sys2Proof.Machine
end

