-- ==== Sys2Proof/Laws/Catalog.lean ====
section
/-! SUPPORT. The catalog checks as statements about every definition and field. -/

namespace Sys2Proof.Machine


/-! ## Catalog -/

theorem firstBadField_eq_none (k : WfCheck) (d : Definition) (fs : List FieldSpec) (j : Nat) :
    firstBadField k d fs j = none ↔
      ∀ (n : Nat) (f : FieldSpec), fs[n]? = some f → k.onField d (j + n) f = true := by
  induction fs generalizing j with
  | nil => simp [firstBadField]
  | cons f rest ih =>
    rw [firstBadField]
    split <;> rename_i h
    · rw [ih]
      constructor
      · intro h1 n g hg
        cases n with
        | zero => simp at hg; subst hg; simpa using h
        | succ n => rw [← Nat.add_assoc, Nat.add_right_comm]; exact h1 n g (by simpa using hg)
      · intro h1 n g hg
        have := h1 (n + 1) g (by simpa using hg)
        rwa [← Nat.add_assoc, Nat.add_right_comm] at this
    · constructor
      · intro h1; cases h1
      · intro h1; exact absurd (h1 0 f (by simp)) (by simpa using h)

theorem firstBadField_eq_some (k : WfCheck) (d : Definition) (fs : List FieldSpec) (j m : Nat)
    (h : firstBadField k d fs j = some m) :
    ∃ (n : Nat) (f : FieldSpec), m = j + n ∧ fs[n]? = some f ∧ k.onField d m f = false := by
  induction fs generalizing j with
  | nil => simp [firstBadField] at h
  | cons f rest ih =>
    rw [firstBadField] at h
    split at h <;> rename_i hf
    · obtain ⟨n, g, rfl, hg, hk⟩ := ih _ h
      exact ⟨n + 1, g, by omega, by simpa using hg, hk⟩
    · cases h
      exact ⟨0, f, rfl, by simp, by simpa using hf⟩

/-- Check `k` passes on definition `i` and on each of its fields. -/
def WfCheck.passes (k : WfCheck) (cat : Catalog) (i : Nat) (d : Definition) : Prop :=
  k.onDefinition cat i d = true ∧ ∀ (j : Nat) (f : FieldSpec), d.fields[j]? = some f → k.onField d j f = true

theorem firstBadDefinition_eq_none (k : WfCheck) (cat : Catalog) (ds : List Definition) (i : Nat) :
    firstBadDefinition k cat ds i = none ↔
      ∀ (n : Nat) (d : Definition), ds[n]? = some d → k.passes cat (i + n) d := by
  induction ds generalizing i with
  | nil => simp [firstBadDefinition]
  | cons d rest ih =>
    rw [firstBadDefinition]
    split <;> rename_i h
    · split <;> rename_i h2
      · constructor
        · intro h1; cases h1
        · intro h1
          obtain ⟨n, f, h3, h4, h5⟩ := firstBadField_eq_some _ _ _ _ _ h2
          have := (h1 0 d (by simp)).2 n f h4
          rw [h3, Nat.zero_add, this] at h5; cases h5
      · rw [ih]
        rw [firstBadField_eq_none] at h2
        constructor
        · intro h1 n e he
          cases n with
          | zero => simp at he; subst he; exact ⟨by simpa using h, by simpa using h2⟩
          | succ n => rw [← Nat.add_assoc, Nat.add_right_comm]; exact h1 n e (by simpa using he)
        · intro h1 n e he
          have := h1 (n + 1) e (by simpa using he)
          rwa [← Nat.add_assoc, Nat.add_right_comm] at this
    · constructor
      · intro h1; cases h1
      · intro h1; exact absurd (h1 0 d (by simp)).1 (by simpa using h)

theorem firstBadDefinition_eq_some (k : WfCheck) (cat : Catalog) (ds : List Definition) (i : Nat) (ft : CatalogFault)
    (h : firstBadDefinition k cat ds i = some ft) :
    ft.check = k ∧ ∃ (n : Nat) (d : Definition), ft.definition = i + n ∧ ds[n]? = some d ∧
      match ft.field with
      | none => k.onDefinition cat ft.definition d = false
      | some j => ∃ f : FieldSpec, d.fields[j]? = some f ∧ k.onField d j f = false := by
  induction ds generalizing i with
  | nil => simp [firstBadDefinition] at h
  | cons d rest ih =>
    rw [firstBadDefinition] at h
    split at h <;> rename_i hd
    · split at h <;> rename_i hf
      · cases h
        obtain ⟨n, f, h3, h4, h5⟩ := firstBadField_eq_some _ _ _ _ _ hf
        refine ⟨rfl, 0, d, rfl, by simp, f, ?_, h5⟩
        rw [h3, Nat.zero_add]; exact h4
      · obtain ⟨h1, n, e, h2, h3, h4⟩ := ih _ h
        exact ⟨h1, n + 1, e, by omega, by simpa using h3, h4⟩
    · cases h
      exact ⟨rfl, 0, d, rfl, by simp, by simpa using hd⟩

/-- Every check is in the list of checks. -/
theorem WfCheck.mem_inOrder (k : WfCheck) : k ∈ WfCheck.inOrder := by cases k <;> decide

/-- A catalog is well-formed exactly where every check passes on every definition. -/
theorem wellFormed_iff_passes (cat : Catalog) :
    wellFormed cat = true ↔ ∀ (k : WfCheck) (i : Nat) (d : Definition), cat[i]? = some d → k.passes cat i d := by
  rw [wellFormed, Option.isNone_iff_eq_none, firstFault, List.findSome?_eq_none_iff]
  constructor
  · intro h k i d hd
    have := (firstBadDefinition_eq_none k cat cat 0).mp (h k k.mem_inOrder) i d hd
    rwa [Nat.zero_add] at this
  · intro h k _
    rw [firstBadDefinition_eq_none]
    intro n d hd
    rw [Nat.zero_add]
    exact h k n d hd

theorem wellFormed_eq_true_iff (cat : Catalog) : wellFormed cat = true ↔ firstFault cat = none := by
  rw [wellFormed, Option.isNone_iff_eq_none]

section
variable {cat : Catalog} (h : wellFormed cat = true) {i : Nat} {d : Definition} (hd : cat[i]? = some d)
include h hd

theorem wellFormed_index_lt : i < 256 := by
  have := ((wellFormed_iff_passes cat).mp h .nMsg i d hd).1
  exact of_decide_eq_true this

theorem wellFormed_length_le : d.length ≤ 8 := by
  have := ((wellFormed_iff_passes cat).mp h .wf3 i d hd).1
  simpa [WfCheck.onDefinition, wf3] using this

theorem wellFormed_fieldCount_le : d.fields.length ≤ 16 := by
  have := ((wellFormed_iff_passes cat).mp h .wf4 i d hd).1
  exact of_decide_eq_true this

theorem wellFormed_id_lt : d.id < 2 ^ 29 := by
  have := ((wellFormed_iff_passes cat).mp h .wf2 i d hd).1
  simp only [WfCheck.onDefinition, wf2] at this
  split at this <;> simp [Nat.shiftLeft_eq] at this <;> omega

variable {j : Nat} {f : FieldSpec} (hf : d.fields[j]? = some f)
include hf

theorem wellFormed_widthLegal : f.kind.widthLegal f.w = true :=
  ((wellFormed_iff_passes cat).mp h .wf5 i d hd).2 j f hf

theorem wellFormed_width : 1 ≤ f.w ∧ f.w ≤ 64 := by
  have := wellFormed_widthLegal h hd hf
  revert this
  cases f.kind <;> simp [Kind.widthLegal] <;> omega

theorem wellFormed_field_end : f.off + f.w ≤ 8 * d.length := by
  have := ((wellFormed_iff_passes cat).mp h .wf7 i d hd).2 j f hf
  simpa [WfCheck.onField, wf7] using this

/-- WF8: two fields of one definition share no payload bit. -/
theorem wellFormed_disjoint {k : Nat} {g : FieldSpec} (hg : d.fields[k]? = some g) (hjk : j ≠ k) :
    f.off + f.w ≤ g.off ∨ g.off + g.w ≤ f.off := by
  have key : ∀ (a b : Nat) (x y : FieldSpec), d.fields[a]? = some x → d.fields[b]? = some y → a < b →
      x.off + x.w ≤ y.off ∨ y.off + y.w ≤ x.off := by
    intro a b x y ha hb hab
    have h1 := ((wellFormed_iff_passes cat).mp h .wf8 i d hd).2 b y hb
    simp only [WfCheck.onField, wf8, List.all_eq_true] at h1
    have h2 := h1 x (List.mem_of_getElem? (i := a) (by rw [List.getElem?_take, if_pos hab]; exact ha))
    simpa [FieldSpec.disjoint] using h2
  rcases Nat.lt_or_gt_of_ne hjk with h1 | h1
  · exact key j k f g hf hg h1
  · exact (key k j g f hg hf h1).symm

end

end Sys2Proof.Machine
end

