-- ==== Sys2Proof/Laws/Codec.lean ====
section
/-! SUPPORT. What the loops of ENCODE and DECODE do, field by field. -/

namespace Sys2Proof.Machine


/-! Field by field. -/

/-- ENCODE of one field gives `r` exactly where the value is in range and converts to `r`. -/
theorem encodeField_eq_ok {draw : Draw} {f : FieldSpec} {x r : Word} :
    encodeField draw f x = .ok r ↔ inRange f x = true ∧ rawConv draw f x = some r := by
  unfold encodeField
  split
  · split <;> simp_all
  · simp_all

/-- ENCODE of one field fails by the range check or, in range, by the conversion. -/
theorem encodeField_eq_error {draw : Draw} {f : FieldSpec} {x : Word} {e : FieldError} :
    encodeField draw f x = .error e ↔
      (inRange f x = false ∧ e = .outOfRange 0) ∨
        (inRange f x = true ∧ rawConv draw f x = none ∧ e = rawError f) := by
  unfold encodeField
  cases hr : inRange f x with
  | false => simp [Eq.comm (a := e)]
  | true => cases hc : rawConv draw f x with
    | none => simp [Eq.comm (a := e)]
    | some r => simp

/-- The loop of ENCODE ends well exactly where every field does, and then it has placed every raw value. -/
theorem encodeFields_eq_ok (s : State) (fs : List FieldSpec) (i : Nat) (p q : Word) :
    encodeFields s fs i p = .ok q ↔
      ∃ raws : List Word, raws.length = fs.length ∧
        (∀ (j : Nat) (f : FieldSpec) (r : Word), fs[j]? = some f → raws[j]? = some r →
          encodeField (drawAt s.nanDraws (i + j)) f (s.vAt (i + j)) = .ok r) ∧
        q = (fs.zip raws).foldl (fun p fr => insertBits p fr.1.off fr.1.w fr.2) p := by
  induction fs generalizing i p with
  | nil =>
    simp only [encodeFields, Except.ok.injEq]
    constructor
    · rintro rfl; exact ⟨[], rfl, by simp, rfl⟩
    · rintro ⟨raws, h, _, rfl⟩; simp
  | cons f rest ih =>
    rw [encodeFields]
    split
    · rename_i r hr
      rw [ih]
      constructor
      · rintro ⟨raws, hl, hf, rfl⟩
        refine ⟨r :: raws, by simp [hl], ?_, rfl⟩
        intro j g x hg hx
        cases j with
        | zero => simp at hg hx; subst hg hx; simpa using hr
        | succ j =>
          have := hf j g x (by simpa using hg) (by simpa using hx)
          rwa [Nat.add_right_comm, Nat.add_assoc] at this
      · rintro ⟨raws, hl, hf, rfl⟩
        cases raws with
        | nil => simp at hl
        | cons x raws =>
          have h0 := hf 0 f x (by simp) (by simp)
          rw [Nat.add_zero, hr] at h0
          cases h0
          refine ⟨raws, by simpa using hl, ?_, rfl⟩
          intro j g y hg hy
          have := hf (j + 1) g y (by simpa using hg) (by simpa using hy)
          rwa [← Nat.add_assoc, Nat.add_right_comm] at this
    · rename_i e he
      constructor
      · intro h; cases h
      · rintro ⟨raws, hl, hf, -⟩
        cases raws with
        | nil => simp at hl
        | cons x raws =>
          have h0 := hf 0 f x (by simp) (by simp)
          rw [Nat.add_zero, he] at h0
          cases h0

/-- The loop of ENCODE fails exactly at the first field that fails. -/
theorem encodeFields_eq_error (s : State) (fs : List FieldSpec) (i : Nat) (p : Word) (e : EncodeFailure) :
    encodeFields s fs i p = .error e ↔
      ∃ j, e.index = i + j ∧ fs[j]? = some e.field ∧
        encodeField (drawAt s.nanDraws (i + j)) e.field (s.vAt (i + j)) = .error e.error ∧
        ∀ (k : Nat) (f : FieldSpec), k < j → fs[k]? = some f →
          ∃ r, encodeField (drawAt s.nanDraws (i + k)) f (s.vAt (i + k)) = .ok r := by
  induction fs generalizing i p with
  | nil => simp [encodeFields]
  | cons f rest ih =>
    rw [encodeFields]
    split
    · rename_i r hr
      rw [ih]
      constructor
      · rintro ⟨j, h1, h2, h3, h4⟩
        refine ⟨j + 1, by omega, by simpa using h2, by rwa [← Nat.add_assoc, Nat.add_right_comm], ?_⟩
        intro k g hk hg
        cases k with
        | zero => simp at hg; subst hg; exact ⟨r, by simpa using hr⟩
        | succ k =>
          obtain ⟨x, hx⟩ := h4 k g (by omega) (by simpa using hg)
          exact ⟨x, by rwa [← Nat.add_assoc, Nat.add_right_comm]⟩
      · rintro ⟨j, h1, h2, h3, h4⟩
        cases j with
        | zero =>
          simp at h2
          rw [Nat.add_zero, ← h2, hr] at h3
          cases h3
        | succ j =>
          refine ⟨j, by omega, by simpa using h2, by rwa [← Nat.add_assoc, Nat.add_right_comm] at h3, ?_⟩
          intro k g hk hg
          obtain ⟨x, hx⟩ := h4 (k + 1) g (by omega) (by simpa using hg)
          exact ⟨x, by rwa [← Nat.add_assoc, Nat.add_right_comm] at hx⟩
    · rename_i e' he
      constructor
      · intro h
        cases h
        exact ⟨0, rfl, by simp, by simpa using he, by simp⟩
      · rintro ⟨j, h1, h2, h3, h4⟩
        cases j with
        | zero =>
          simp at h1 h2
          rw [Nat.add_zero, ← h2, he] at h3
          cases h3
          cases e
          simp_all
        | succ j =>
          obtain ⟨x, hx⟩ := h4 0 f (by omega) (by simp)
          rw [Nat.add_zero, he] at hx
          cases hx

/-- The loop of DECODE, register by register: the fields' registers get their values, the others keep theirs. -/
theorem decodeFields_getElem (cmd : Nat) (p : Word) (fs : List FieldSpec) (i : Nat) (v : Vector Word 16) (k : Nat)
    (hk : k < 16) :
    (decodeFields cmd p fs i v)[k] =
      if h : i ≤ k ∧ k - i < fs.length then
        decodeField (drawAt cmd k) fs[k - i] (extractBits p fs[k - i].off fs[k - i].w)
      else v[k] := by
  induction fs generalizing i v with
  | nil => simp [decodeFields]
  | cons f rest ih =>
    rw [decodeFields, ih]
    by_cases h1 : i + 1 ≤ k ∧ k - (i + 1) < rest.length
    · have h2 : i ≤ k ∧ k - i < (f :: rest).length := by simp; omega
      have h3 : (f :: rest)[k - i]'h2.2 = rest[k - (i + 1)]'h1.2 := by
        rw [List.getElem_cons]; simp only [show ¬ k - i = 0 by omega, dite_false]; congr 1
      rw [dif_pos h1, dif_pos h2, h3]
    · rw [dif_neg h1]
      by_cases h4 : k = i
      · subst h4
        have h2 : k ≤ k ∧ k - k < (f :: rest).length := by simp
        rw [dif_pos h2]
        simp
      · have h2 : ¬ (i ≤ k ∧ k - i < (f :: rest).length) := by simp; omega
        rw [dif_neg h2, Vector.getElem_setIfInBounds]
        simp [Ne.symm h4]

end Sys2Proof.Machine
end

