-- ==== Sys2Proof/Laws/State.lean ====
section
/-! SUPPORT. Each field after each named update of the state, so that no later proof unfolds a record update. -/

namespace Sys2Proof.Machine

variable (s : State)

@[simp] theorem State.setStatus_status (w : BitVec 28) : (s.setStatus w).status = w := rfl
@[simp] theorem State.setStatus_qid (w : BitVec 28) : (s.setStatus w).qid = s.qid := rfl
@[simp] theorem State.setStatus_midx (w : BitVec 28) : (s.setStatus w).midx = s.midx := rfl
@[simp] theorem State.setStatus_plen (w : BitVec 28) : (s.setStatus w).plen = s.plen := rfl
@[simp] theorem State.setStatus_payload (w : BitVec 28) : (s.setStatus w).payload = s.payload := rfl
@[simp] theorem State.setStatus_frame (w : BitVec 28) : (s.setStatus w).frame = s.frame := rfl
@[simp] theorem State.setStatus_acc (w : BitVec 28) : (s.setStatus w).acc = s.acc := rfl
@[simp] theorem State.setStatus_widlo (w : BitVec 28) : (s.setStatus w).widlo = s.widlo := rfl
@[simp] theorem State.setStatus_widhi (w : BitVec 28) : (s.setStatus w).widhi = s.widhi := rfl
@[simp] theorem State.setStatus_errmin (w : BitVec 28) : (s.setStatus w).errmin = s.errmin := rfl
@[simp] theorem State.setStatus_errmax (w : BitVec 28) : (s.setStatus w).errmax = s.errmax := rfl
@[simp] theorem State.setStatus_v (w : BitVec 28) : (s.setStatus w).v = s.v := rfl
@[simp] theorem State.setStatus_catalog (w : BitVec 28) : (s.setStatus w).catalog = s.catalog := rfl
@[simp] theorem State.setStatus_host (w : BitVec 28) : (s.setStatus w).host = s.host := rfl
@[simp] theorem State.setStatus_answers (w : BitVec 28) : (s.setStatus w).answers = s.answers := rfl
@[simp] theorem State.setStatus_nanDraws (w : BitVec 28) : (s.setStatus w).nanDraws = s.nanDraws := rfl

@[simp] theorem State.setQid_status (x : BitVec 29) : (s.setQid x).status = s.status := rfl
@[simp] theorem State.setQid_qid (x : BitVec 29) : (s.setQid x).qid = x := rfl
@[simp] theorem State.setQid_midx (x : BitVec 29) : (s.setQid x).midx = s.midx := rfl
@[simp] theorem State.setQid_plen (x : BitVec 29) : (s.setQid x).plen = s.plen := rfl
@[simp] theorem State.setQid_payload (x : BitVec 29) : (s.setQid x).payload = s.payload := rfl
@[simp] theorem State.setQid_frame (x : BitVec 29) : (s.setQid x).frame = s.frame := rfl
@[simp] theorem State.setQid_acc (x : BitVec 29) : (s.setQid x).acc = s.acc := rfl
@[simp] theorem State.setQid_widlo (x : BitVec 29) : (s.setQid x).widlo = s.widlo := rfl
@[simp] theorem State.setQid_widhi (x : BitVec 29) : (s.setQid x).widhi = s.widhi := rfl
@[simp] theorem State.setQid_errmin (x : BitVec 29) : (s.setQid x).errmin = s.errmin := rfl
@[simp] theorem State.setQid_errmax (x : BitVec 29) : (s.setQid x).errmax = s.errmax := rfl
@[simp] theorem State.setQid_v (x : BitVec 29) : (s.setQid x).v = s.v := rfl
@[simp] theorem State.setQid_catalog (x : BitVec 29) : (s.setQid x).catalog = s.catalog := rfl
@[simp] theorem State.setQid_host (x : BitVec 29) : (s.setQid x).host = s.host := rfl
@[simp] theorem State.setQid_answers (x : BitVec 29) : (s.setQid x).answers = s.answers := rfl
@[simp] theorem State.setQid_nanDraws (x : BitVec 29) : (s.setQid x).nanDraws = s.nanDraws := rfl

@[simp] theorem State.setMidx_status (x : BitVec 8) : (s.setMidx x).status = s.status := rfl
@[simp] theorem State.setMidx_qid (x : BitVec 8) : (s.setMidx x).qid = s.qid := rfl
@[simp] theorem State.setMidx_midx (x : BitVec 8) : (s.setMidx x).midx = x := rfl
@[simp] theorem State.setMidx_plen (x : BitVec 8) : (s.setMidx x).plen = s.plen := rfl
@[simp] theorem State.setMidx_payload (x : BitVec 8) : (s.setMidx x).payload = s.payload := rfl
@[simp] theorem State.setMidx_frame (x : BitVec 8) : (s.setMidx x).frame = s.frame := rfl
@[simp] theorem State.setMidx_acc (x : BitVec 8) : (s.setMidx x).acc = s.acc := rfl
@[simp] theorem State.setMidx_widlo (x : BitVec 8) : (s.setMidx x).widlo = s.widlo := rfl
@[simp] theorem State.setMidx_widhi (x : BitVec 8) : (s.setMidx x).widhi = s.widhi := rfl
@[simp] theorem State.setMidx_errmin (x : BitVec 8) : (s.setMidx x).errmin = s.errmin := rfl
@[simp] theorem State.setMidx_errmax (x : BitVec 8) : (s.setMidx x).errmax = s.errmax := rfl
@[simp] theorem State.setMidx_v (x : BitVec 8) : (s.setMidx x).v = s.v := rfl
@[simp] theorem State.setMidx_catalog (x : BitVec 8) : (s.setMidx x).catalog = s.catalog := rfl
@[simp] theorem State.setMidx_host (x : BitVec 8) : (s.setMidx x).host = s.host := rfl
@[simp] theorem State.setMidx_answers (x : BitVec 8) : (s.setMidx x).answers = s.answers := rfl
@[simp] theorem State.setMidx_nanDraws (x : BitVec 8) : (s.setMidx x).nanDraws = s.nanDraws := rfl

@[simp] theorem State.setPlen_status (x : BitVec 4) : (s.setPlen x).status = s.status := rfl
@[simp] theorem State.setPlen_qid (x : BitVec 4) : (s.setPlen x).qid = s.qid := rfl
@[simp] theorem State.setPlen_midx (x : BitVec 4) : (s.setPlen x).midx = s.midx := rfl
@[simp] theorem State.setPlen_plen (x : BitVec 4) : (s.setPlen x).plen = x := rfl
@[simp] theorem State.setPlen_payload (x : BitVec 4) : (s.setPlen x).payload = s.payload := rfl
@[simp] theorem State.setPlen_frame (x : BitVec 4) : (s.setPlen x).frame = s.frame := rfl
@[simp] theorem State.setPlen_acc (x : BitVec 4) : (s.setPlen x).acc = s.acc := rfl
@[simp] theorem State.setPlen_widlo (x : BitVec 4) : (s.setPlen x).widlo = s.widlo := rfl
@[simp] theorem State.setPlen_widhi (x : BitVec 4) : (s.setPlen x).widhi = s.widhi := rfl
@[simp] theorem State.setPlen_errmin (x : BitVec 4) : (s.setPlen x).errmin = s.errmin := rfl
@[simp] theorem State.setPlen_errmax (x : BitVec 4) : (s.setPlen x).errmax = s.errmax := rfl
@[simp] theorem State.setPlen_v (x : BitVec 4) : (s.setPlen x).v = s.v := rfl
@[simp] theorem State.setPlen_catalog (x : BitVec 4) : (s.setPlen x).catalog = s.catalog := rfl
@[simp] theorem State.setPlen_host (x : BitVec 4) : (s.setPlen x).host = s.host := rfl
@[simp] theorem State.setPlen_answers (x : BitVec 4) : (s.setPlen x).answers = s.answers := rfl
@[simp] theorem State.setPlen_nanDraws (x : BitVec 4) : (s.setPlen x).nanDraws = s.nanDraws := rfl

@[simp] theorem State.setPayload_status (x : Word) : (s.setPayload x).status = s.status := rfl
@[simp] theorem State.setPayload_qid (x : Word) : (s.setPayload x).qid = s.qid := rfl
@[simp] theorem State.setPayload_midx (x : Word) : (s.setPayload x).midx = s.midx := rfl
@[simp] theorem State.setPayload_plen (x : Word) : (s.setPayload x).plen = s.plen := rfl
@[simp] theorem State.setPayload_payload (x : Word) : (s.setPayload x).payload = x := rfl
@[simp] theorem State.setPayload_frame (x : Word) : (s.setPayload x).frame = s.frame := rfl
@[simp] theorem State.setPayload_acc (x : Word) : (s.setPayload x).acc = s.acc := rfl
@[simp] theorem State.setPayload_widlo (x : Word) : (s.setPayload x).widlo = s.widlo := rfl
@[simp] theorem State.setPayload_widhi (x : Word) : (s.setPayload x).widhi = s.widhi := rfl
@[simp] theorem State.setPayload_errmin (x : Word) : (s.setPayload x).errmin = s.errmin := rfl
@[simp] theorem State.setPayload_errmax (x : Word) : (s.setPayload x).errmax = s.errmax := rfl
@[simp] theorem State.setPayload_v (x : Word) : (s.setPayload x).v = s.v := rfl
@[simp] theorem State.setPayload_catalog (x : Word) : (s.setPayload x).catalog = s.catalog := rfl
@[simp] theorem State.setPayload_host (x : Word) : (s.setPayload x).host = s.host := rfl
@[simp] theorem State.setPayload_answers (x : Word) : (s.setPayload x).answers = s.answers := rfl
@[simp] theorem State.setPayload_nanDraws (x : Word) : (s.setPayload x).nanDraws = s.nanDraws := rfl

@[simp] theorem State.setFrame_status (x : BitVec 36) : (s.setFrame x).status = s.status := rfl
@[simp] theorem State.setFrame_qid (x : BitVec 36) : (s.setFrame x).qid = s.qid := rfl
@[simp] theorem State.setFrame_midx (x : BitVec 36) : (s.setFrame x).midx = s.midx := rfl
@[simp] theorem State.setFrame_plen (x : BitVec 36) : (s.setFrame x).plen = s.plen := rfl
@[simp] theorem State.setFrame_payload (x : BitVec 36) : (s.setFrame x).payload = s.payload := rfl
@[simp] theorem State.setFrame_frame (x : BitVec 36) : (s.setFrame x).frame = x := rfl
@[simp] theorem State.setFrame_acc (x : BitVec 36) : (s.setFrame x).acc = s.acc := rfl
@[simp] theorem State.setFrame_widlo (x : BitVec 36) : (s.setFrame x).widlo = s.widlo := rfl
@[simp] theorem State.setFrame_widhi (x : BitVec 36) : (s.setFrame x).widhi = s.widhi := rfl
@[simp] theorem State.setFrame_errmin (x : BitVec 36) : (s.setFrame x).errmin = s.errmin := rfl
@[simp] theorem State.setFrame_errmax (x : BitVec 36) : (s.setFrame x).errmax = s.errmax := rfl
@[simp] theorem State.setFrame_v (x : BitVec 36) : (s.setFrame x).v = s.v := rfl
@[simp] theorem State.setFrame_catalog (x : BitVec 36) : (s.setFrame x).catalog = s.catalog := rfl
@[simp] theorem State.setFrame_host (x : BitVec 36) : (s.setFrame x).host = s.host := rfl
@[simp] theorem State.setFrame_answers (x : BitVec 36) : (s.setFrame x).answers = s.answers := rfl
@[simp] theorem State.setFrame_nanDraws (x : BitVec 36) : (s.setFrame x).nanDraws = s.nanDraws := rfl

@[simp] theorem State.setAcc_status (x : Word) : (s.setAcc x).status = s.status := rfl
@[simp] theorem State.setAcc_qid (x : Word) : (s.setAcc x).qid = s.qid := rfl
@[simp] theorem State.setAcc_midx (x : Word) : (s.setAcc x).midx = s.midx := rfl
@[simp] theorem State.setAcc_plen (x : Word) : (s.setAcc x).plen = s.plen := rfl
@[simp] theorem State.setAcc_payload (x : Word) : (s.setAcc x).payload = s.payload := rfl
@[simp] theorem State.setAcc_frame (x : Word) : (s.setAcc x).frame = s.frame := rfl
@[simp] theorem State.setAcc_acc (x : Word) : (s.setAcc x).acc = x := rfl
@[simp] theorem State.setAcc_widlo (x : Word) : (s.setAcc x).widlo = s.widlo := rfl
@[simp] theorem State.setAcc_widhi (x : Word) : (s.setAcc x).widhi = s.widhi := rfl
@[simp] theorem State.setAcc_errmin (x : Word) : (s.setAcc x).errmin = s.errmin := rfl
@[simp] theorem State.setAcc_errmax (x : Word) : (s.setAcc x).errmax = s.errmax := rfl
@[simp] theorem State.setAcc_v (x : Word) : (s.setAcc x).v = s.v := rfl
@[simp] theorem State.setAcc_catalog (x : Word) : (s.setAcc x).catalog = s.catalog := rfl
@[simp] theorem State.setAcc_host (x : Word) : (s.setAcc x).host = s.host := rfl
@[simp] theorem State.setAcc_answers (x : Word) : (s.setAcc x).answers = s.answers := rfl
@[simp] theorem State.setAcc_nanDraws (x : Word) : (s.setAcc x).nanDraws = s.nanDraws := rfl

@[simp] theorem State.setWidlo_status (x : Word) : (s.setWidlo x).status = s.status := rfl
@[simp] theorem State.setWidlo_qid (x : Word) : (s.setWidlo x).qid = s.qid := rfl
@[simp] theorem State.setWidlo_midx (x : Word) : (s.setWidlo x).midx = s.midx := rfl
@[simp] theorem State.setWidlo_plen (x : Word) : (s.setWidlo x).plen = s.plen := rfl
@[simp] theorem State.setWidlo_payload (x : Word) : (s.setWidlo x).payload = s.payload := rfl
@[simp] theorem State.setWidlo_frame (x : Word) : (s.setWidlo x).frame = s.frame := rfl
@[simp] theorem State.setWidlo_acc (x : Word) : (s.setWidlo x).acc = s.acc := rfl
@[simp] theorem State.setWidlo_widlo (x : Word) : (s.setWidlo x).widlo = x := rfl
@[simp] theorem State.setWidlo_widhi (x : Word) : (s.setWidlo x).widhi = s.widhi := rfl
@[simp] theorem State.setWidlo_errmin (x : Word) : (s.setWidlo x).errmin = s.errmin := rfl
@[simp] theorem State.setWidlo_errmax (x : Word) : (s.setWidlo x).errmax = s.errmax := rfl
@[simp] theorem State.setWidlo_v (x : Word) : (s.setWidlo x).v = s.v := rfl
@[simp] theorem State.setWidlo_catalog (x : Word) : (s.setWidlo x).catalog = s.catalog := rfl
@[simp] theorem State.setWidlo_host (x : Word) : (s.setWidlo x).host = s.host := rfl
@[simp] theorem State.setWidlo_answers (x : Word) : (s.setWidlo x).answers = s.answers := rfl
@[simp] theorem State.setWidlo_nanDraws (x : Word) : (s.setWidlo x).nanDraws = s.nanDraws := rfl

@[simp] theorem State.setWidhi_status (x : Word) : (s.setWidhi x).status = s.status := rfl
@[simp] theorem State.setWidhi_qid (x : Word) : (s.setWidhi x).qid = s.qid := rfl
@[simp] theorem State.setWidhi_midx (x : Word) : (s.setWidhi x).midx = s.midx := rfl
@[simp] theorem State.setWidhi_plen (x : Word) : (s.setWidhi x).plen = s.plen := rfl
@[simp] theorem State.setWidhi_payload (x : Word) : (s.setWidhi x).payload = s.payload := rfl
@[simp] theorem State.setWidhi_frame (x : Word) : (s.setWidhi x).frame = s.frame := rfl
@[simp] theorem State.setWidhi_acc (x : Word) : (s.setWidhi x).acc = s.acc := rfl
@[simp] theorem State.setWidhi_widlo (x : Word) : (s.setWidhi x).widlo = s.widlo := rfl
@[simp] theorem State.setWidhi_widhi (x : Word) : (s.setWidhi x).widhi = x := rfl
@[simp] theorem State.setWidhi_errmin (x : Word) : (s.setWidhi x).errmin = s.errmin := rfl
@[simp] theorem State.setWidhi_errmax (x : Word) : (s.setWidhi x).errmax = s.errmax := rfl
@[simp] theorem State.setWidhi_v (x : Word) : (s.setWidhi x).v = s.v := rfl
@[simp] theorem State.setWidhi_catalog (x : Word) : (s.setWidhi x).catalog = s.catalog := rfl
@[simp] theorem State.setWidhi_host (x : Word) : (s.setWidhi x).host = s.host := rfl
@[simp] theorem State.setWidhi_answers (x : Word) : (s.setWidhi x).answers = s.answers := rfl
@[simp] theorem State.setWidhi_nanDraws (x : Word) : (s.setWidhi x).nanDraws = s.nanDraws := rfl

@[simp] theorem State.setErr_status (lo hi : Word) : (s.setErr lo hi).status = s.status := rfl
@[simp] theorem State.setErr_qid (lo hi : Word) : (s.setErr lo hi).qid = s.qid := rfl
@[simp] theorem State.setErr_midx (lo hi : Word) : (s.setErr lo hi).midx = s.midx := rfl
@[simp] theorem State.setErr_plen (lo hi : Word) : (s.setErr lo hi).plen = s.plen := rfl
@[simp] theorem State.setErr_payload (lo hi : Word) : (s.setErr lo hi).payload = s.payload := rfl
@[simp] theorem State.setErr_frame (lo hi : Word) : (s.setErr lo hi).frame = s.frame := rfl
@[simp] theorem State.setErr_acc (lo hi : Word) : (s.setErr lo hi).acc = s.acc := rfl
@[simp] theorem State.setErr_widlo (lo hi : Word) : (s.setErr lo hi).widlo = s.widlo := rfl
@[simp] theorem State.setErr_widhi (lo hi : Word) : (s.setErr lo hi).widhi = s.widhi := rfl
@[simp] theorem State.setErr_errmin (lo hi : Word) : (s.setErr lo hi).errmin = lo := rfl
@[simp] theorem State.setErr_errmax (lo hi : Word) : (s.setErr lo hi).errmax = hi := rfl
@[simp] theorem State.setErr_v (lo hi : Word) : (s.setErr lo hi).v = s.v := rfl
@[simp] theorem State.setErr_catalog (lo hi : Word) : (s.setErr lo hi).catalog = s.catalog := rfl
@[simp] theorem State.setErr_host (lo hi : Word) : (s.setErr lo hi).host = s.host := rfl
@[simp] theorem State.setErr_answers (lo hi : Word) : (s.setErr lo hi).answers = s.answers := rfl
@[simp] theorem State.setErr_nanDraws (lo hi : Word) : (s.setErr lo hi).nanDraws = s.nanDraws := rfl

@[simp] theorem State.setV_status (x : Vector Word 16) : (s.setV x).status = s.status := rfl
@[simp] theorem State.setV_qid (x : Vector Word 16) : (s.setV x).qid = s.qid := rfl
@[simp] theorem State.setV_midx (x : Vector Word 16) : (s.setV x).midx = s.midx := rfl
@[simp] theorem State.setV_plen (x : Vector Word 16) : (s.setV x).plen = s.plen := rfl
@[simp] theorem State.setV_payload (x : Vector Word 16) : (s.setV x).payload = s.payload := rfl
@[simp] theorem State.setV_frame (x : Vector Word 16) : (s.setV x).frame = s.frame := rfl
@[simp] theorem State.setV_acc (x : Vector Word 16) : (s.setV x).acc = s.acc := rfl
@[simp] theorem State.setV_widlo (x : Vector Word 16) : (s.setV x).widlo = s.widlo := rfl
@[simp] theorem State.setV_widhi (x : Vector Word 16) : (s.setV x).widhi = s.widhi := rfl
@[simp] theorem State.setV_errmin (x : Vector Word 16) : (s.setV x).errmin = s.errmin := rfl
@[simp] theorem State.setV_errmax (x : Vector Word 16) : (s.setV x).errmax = s.errmax := rfl
@[simp] theorem State.setV_v (x : Vector Word 16) : (s.setV x).v = x := rfl
@[simp] theorem State.setV_catalog (x : Vector Word 16) : (s.setV x).catalog = s.catalog := rfl
@[simp] theorem State.setV_host (x : Vector Word 16) : (s.setV x).host = s.host := rfl
@[simp] theorem State.setV_answers (x : Vector Word 16) : (s.setV x).answers = s.answers := rfl
@[simp] theorem State.setV_nanDraws (x : Vector Word 16) : (s.setV x).nanDraws = s.nanDraws := rfl

@[simp] theorem State.setVAt_status (i : Fin 16) (x : Word) : (s.setVAt i x).status = s.status := rfl
@[simp] theorem State.setVAt_qid (i : Fin 16) (x : Word) : (s.setVAt i x).qid = s.qid := rfl
@[simp] theorem State.setVAt_midx (i : Fin 16) (x : Word) : (s.setVAt i x).midx = s.midx := rfl
@[simp] theorem State.setVAt_plen (i : Fin 16) (x : Word) : (s.setVAt i x).plen = s.plen := rfl
@[simp] theorem State.setVAt_payload (i : Fin 16) (x : Word) : (s.setVAt i x).payload = s.payload := rfl
@[simp] theorem State.setVAt_frame (i : Fin 16) (x : Word) : (s.setVAt i x).frame = s.frame := rfl
@[simp] theorem State.setVAt_acc (i : Fin 16) (x : Word) : (s.setVAt i x).acc = s.acc := rfl
@[simp] theorem State.setVAt_widlo (i : Fin 16) (x : Word) : (s.setVAt i x).widlo = s.widlo := rfl
@[simp] theorem State.setVAt_widhi (i : Fin 16) (x : Word) : (s.setVAt i x).widhi = s.widhi := rfl
@[simp] theorem State.setVAt_errmin (i : Fin 16) (x : Word) : (s.setVAt i x).errmin = s.errmin := rfl
@[simp] theorem State.setVAt_errmax (i : Fin 16) (x : Word) : (s.setVAt i x).errmax = s.errmax := rfl
@[simp] theorem State.setVAt_v (i : Fin 16) (x : Word) : (s.setVAt i x).v = s.v.set i.val x := rfl
@[simp] theorem State.setVAt_catalog (i : Fin 16) (x : Word) : (s.setVAt i x).catalog = s.catalog := rfl
@[simp] theorem State.setVAt_host (i : Fin 16) (x : Word) : (s.setVAt i x).host = s.host := rfl
@[simp] theorem State.setVAt_answers (i : Fin 16) (x : Word) : (s.setVAt i x).answers = s.answers := rfl
@[simp] theorem State.setVAt_nanDraws (i : Fin 16) (x : Word) : (s.setVAt i x).nanDraws = s.nanDraws := rfl

@[simp] theorem State.setHost_status (ops : List HostOp) : (s.setHost ops).status = s.status := rfl
@[simp] theorem State.setHost_qid (ops : List HostOp) : (s.setHost ops).qid = s.qid := rfl
@[simp] theorem State.setHost_midx (ops : List HostOp) : (s.setHost ops).midx = s.midx := rfl
@[simp] theorem State.setHost_plen (ops : List HostOp) : (s.setHost ops).plen = s.plen := rfl
@[simp] theorem State.setHost_payload (ops : List HostOp) : (s.setHost ops).payload = s.payload := rfl
@[simp] theorem State.setHost_frame (ops : List HostOp) : (s.setHost ops).frame = s.frame := rfl
@[simp] theorem State.setHost_acc (ops : List HostOp) : (s.setHost ops).acc = s.acc := rfl
@[simp] theorem State.setHost_widlo (ops : List HostOp) : (s.setHost ops).widlo = s.widlo := rfl
@[simp] theorem State.setHost_widhi (ops : List HostOp) : (s.setHost ops).widhi = s.widhi := rfl
@[simp] theorem State.setHost_errmin (ops : List HostOp) : (s.setHost ops).errmin = s.errmin := rfl
@[simp] theorem State.setHost_errmax (ops : List HostOp) : (s.setHost ops).errmax = s.errmax := rfl
@[simp] theorem State.setHost_v (ops : List HostOp) : (s.setHost ops).v = s.v := rfl
@[simp] theorem State.setHost_catalog (ops : List HostOp) : (s.setHost ops).catalog = s.catalog := rfl
@[simp] theorem State.setHost_host (ops : List HostOp) : (s.setHost ops).host = ops := rfl
@[simp] theorem State.setHost_answers (ops : List HostOp) : (s.setHost ops).answers = s.answers := rfl
@[simp] theorem State.setHost_nanDraws (ops : List HostOp) : (s.setHost ops).nanDraws = s.nanDraws := rfl

@[simp] theorem State.answer_status (x : Word) : (s.answer x).status = s.status := rfl
@[simp] theorem State.answer_qid (x : Word) : (s.answer x).qid = s.qid := rfl
@[simp] theorem State.answer_midx (x : Word) : (s.answer x).midx = s.midx := rfl
@[simp] theorem State.answer_plen (x : Word) : (s.answer x).plen = s.plen := rfl
@[simp] theorem State.answer_payload (x : Word) : (s.answer x).payload = s.payload := rfl
@[simp] theorem State.answer_frame (x : Word) : (s.answer x).frame = s.frame := rfl
@[simp] theorem State.answer_acc (x : Word) : (s.answer x).acc = s.acc := rfl
@[simp] theorem State.answer_widlo (x : Word) : (s.answer x).widlo = s.widlo := rfl
@[simp] theorem State.answer_widhi (x : Word) : (s.answer x).widhi = s.widhi := rfl
@[simp] theorem State.answer_errmin (x : Word) : (s.answer x).errmin = s.errmin := rfl
@[simp] theorem State.answer_errmax (x : Word) : (s.answer x).errmax = s.errmax := rfl
@[simp] theorem State.answer_v (x : Word) : (s.answer x).v = s.v := rfl
@[simp] theorem State.answer_catalog (x : Word) : (s.answer x).catalog = s.catalog := rfl
@[simp] theorem State.answer_host (x : Word) : (s.answer x).host = s.host := rfl
@[simp] theorem State.answer_answers (x : Word) : (s.answer x).answers = s.answers ++ [x] := rfl
@[simp] theorem State.answer_nanDraws (x : Word) : (s.answer x).nanDraws = s.nanDraws := rfl

@[simp] theorem State.drewNaN_status : (s.drewNaN).status = s.status := rfl
@[simp] theorem State.drewNaN_qid : (s.drewNaN).qid = s.qid := rfl
@[simp] theorem State.drewNaN_midx : (s.drewNaN).midx = s.midx := rfl
@[simp] theorem State.drewNaN_plen : (s.drewNaN).plen = s.plen := rfl
@[simp] theorem State.drewNaN_payload : (s.drewNaN).payload = s.payload := rfl
@[simp] theorem State.drewNaN_frame : (s.drewNaN).frame = s.frame := rfl
@[simp] theorem State.drewNaN_acc : (s.drewNaN).acc = s.acc := rfl
@[simp] theorem State.drewNaN_widlo : (s.drewNaN).widlo = s.widlo := rfl
@[simp] theorem State.drewNaN_widhi : (s.drewNaN).widhi = s.widhi := rfl
@[simp] theorem State.drewNaN_errmin : (s.drewNaN).errmin = s.errmin := rfl
@[simp] theorem State.drewNaN_errmax : (s.drewNaN).errmax = s.errmax := rfl
@[simp] theorem State.drewNaN_v : (s.drewNaN).v = s.v := rfl
@[simp] theorem State.drewNaN_catalog : (s.drewNaN).catalog = s.catalog := rfl
@[simp] theorem State.drewNaN_host : (s.drewNaN).host = s.host := rfl
@[simp] theorem State.drewNaN_answers : (s.drewNaN).answers = s.answers := rfl
@[simp] theorem State.drewNaN_nanDraws : (s.drewNaN).nanDraws = s.nanDraws + 1 := rfl

@[simp] theorem State.resetRegisters_status : s.resetRegisters.status = 0 := rfl
@[simp] theorem State.resetRegisters_qid : s.resetRegisters.qid = 0 := rfl
@[simp] theorem State.resetRegisters_midx : s.resetRegisters.midx = 0 := rfl
@[simp] theorem State.resetRegisters_plen : s.resetRegisters.plen = 0 := rfl
@[simp] theorem State.resetRegisters_payload : s.resetRegisters.payload = 0 := rfl
@[simp] theorem State.resetRegisters_frame : s.resetRegisters.frame = 0 := rfl
@[simp] theorem State.resetRegisters_acc : s.resetRegisters.acc = 0 := rfl
@[simp] theorem State.resetRegisters_widlo : s.resetRegisters.widlo = 0 := rfl
@[simp] theorem State.resetRegisters_widhi : s.resetRegisters.widhi = 0 := rfl
@[simp] theorem State.resetRegisters_errmin : s.resetRegisters.errmin = 0 := rfl
@[simp] theorem State.resetRegisters_errmax : s.resetRegisters.errmax = 0 := rfl
@[simp] theorem State.resetRegisters_v : s.resetRegisters.v = Vector.replicate 16 0 := rfl
@[simp] theorem State.resetRegisters_catalog : s.resetRegisters.catalog = s.catalog := rfl
@[simp] theorem State.resetRegisters_host : s.resetRegisters.host = s.host := rfl
@[simp] theorem State.resetRegisters_answers : s.resetRegisters.answers = s.answers := rfl
@[simp] theorem State.resetRegisters_nanDraws : s.resetRegisters.nanDraws = s.nanDraws := rfl

@[simp] theorem State.afterReset_status (c : Catalog) : (State.afterReset c).status = 0 := rfl
@[simp] theorem State.afterReset_qid (c : Catalog) : (State.afterReset c).qid = 0 := rfl
@[simp] theorem State.afterReset_midx (c : Catalog) : (State.afterReset c).midx = 0 := rfl
@[simp] theorem State.afterReset_plen (c : Catalog) : (State.afterReset c).plen = 0 := rfl
@[simp] theorem State.afterReset_payload (c : Catalog) : (State.afterReset c).payload = 0 := rfl
@[simp] theorem State.afterReset_frame (c : Catalog) : (State.afterReset c).frame = 0 := rfl
@[simp] theorem State.afterReset_acc (c : Catalog) : (State.afterReset c).acc = 0 := rfl
@[simp] theorem State.afterReset_widlo (c : Catalog) : (State.afterReset c).widlo = 0 := rfl
@[simp] theorem State.afterReset_widhi (c : Catalog) : (State.afterReset c).widhi = 0 := rfl
@[simp] theorem State.afterReset_errmin (c : Catalog) : (State.afterReset c).errmin = 0 := rfl
@[simp] theorem State.afterReset_errmax (c : Catalog) : (State.afterReset c).errmax = 0 := rfl
@[simp] theorem State.afterReset_v (c : Catalog) : (State.afterReset c).v = Vector.replicate 16 0 := rfl
@[simp] theorem State.afterReset_catalog (c : Catalog) : (State.afterReset c).catalog = c := rfl
@[simp] theorem State.afterReset_host (c : Catalog) : (State.afterReset c).host = [] := rfl
@[simp] theorem State.afterReset_answers (c : Catalog) : (State.afterReset c).answers = [] := rfl
@[simp] theorem State.afterReset_nanDraws (c : Catalog) : (State.afterReset c).nanDraws = 0 := rfl

/-! What commands read of the state reads through the updates that do not touch it. -/

@[simp] theorem State.setStatus_vAt (w : BitVec 28) (i : Nat) : (s.setStatus w).vAt i = s.vAt i := rfl
@[simp] theorem State.setStatus_wid (w : BitVec 28) (i : Nat) : (s.setStatus w).wid i = s.wid i := rfl
@[simp] theorem State.setStatus_cat (w : BitVec 28) (i : Nat) : (s.setStatus w).cat i = s.cat i := rfl
@[simp] theorem State.setStatus_lookupIdx (w : BitVec 28) : (s.setStatus w).lookupIdx = s.lookupIdx := rfl
@[simp] theorem State.setStatus_packPairs (w : BitVec 28) (n : Nat) : (s.setStatus w).packPairs n = s.packPairs n := rfl
@[simp] theorem State.setQid_vAt (x : BitVec 29) (i : Nat) : (s.setQid x).vAt i = s.vAt i := rfl
@[simp] theorem State.setQid_wid (x : BitVec 29) (i : Nat) : (s.setQid x).wid i = s.wid i := rfl
@[simp] theorem State.setQid_cat (x : BitVec 29) (i : Nat) : (s.setQid x).cat i = s.cat i := rfl
@[simp] theorem State.setQid_packPairs (x : BitVec 29) (n : Nat) : (s.setQid x).packPairs n = s.packPairs n := rfl
@[simp] theorem State.setMidx_vAt (x : BitVec 8) (i : Nat) : (s.setMidx x).vAt i = s.vAt i := rfl
@[simp] theorem State.setMidx_wid (x : BitVec 8) (i : Nat) : (s.setMidx x).wid i = s.wid i := rfl
@[simp] theorem State.setMidx_cat (x : BitVec 8) (i : Nat) : (s.setMidx x).cat i = s.cat i := rfl
@[simp] theorem State.setMidx_lookupIdx (x : BitVec 8) : (s.setMidx x).lookupIdx = s.lookupIdx := rfl
@[simp] theorem State.setMidx_packPairs (x : BitVec 8) (n : Nat) : (s.setMidx x).packPairs n = s.packPairs n := rfl
@[simp] theorem State.setPlen_vAt (x : BitVec 4) (i : Nat) : (s.setPlen x).vAt i = s.vAt i := rfl
@[simp] theorem State.setPlen_wid (x : BitVec 4) (i : Nat) : (s.setPlen x).wid i = s.wid i := rfl
@[simp] theorem State.setPlen_cat (x : BitVec 4) (i : Nat) : (s.setPlen x).cat i = s.cat i := rfl
@[simp] theorem State.setPlen_lookupIdx (x : BitVec 4) : (s.setPlen x).lookupIdx = s.lookupIdx := rfl
@[simp] theorem State.setPlen_packPairs (x : BitVec 4) (n : Nat) : (s.setPlen x).packPairs n = s.packPairs n := rfl
@[simp] theorem State.setPayload_vAt (x : Word) (i : Nat) : (s.setPayload x).vAt i = s.vAt i := rfl
@[simp] theorem State.setPayload_wid (x : Word) (i : Nat) : (s.setPayload x).wid i = s.wid i := rfl
@[simp] theorem State.setPayload_cat (x : Word) (i : Nat) : (s.setPayload x).cat i = s.cat i := rfl
@[simp] theorem State.setPayload_lookupIdx (x : Word) : (s.setPayload x).lookupIdx = s.lookupIdx := rfl
@[simp] theorem State.setPayload_packPairs (x : Word) (n : Nat) : (s.setPayload x).packPairs n = s.packPairs n := rfl
@[simp] theorem State.setFrame_vAt (x : BitVec 36) (i : Nat) : (s.setFrame x).vAt i = s.vAt i := rfl
@[simp] theorem State.setFrame_wid (x : BitVec 36) (i : Nat) : (s.setFrame x).wid i = s.wid i := rfl
@[simp] theorem State.setFrame_cat (x : BitVec 36) (i : Nat) : (s.setFrame x).cat i = s.cat i := rfl
@[simp] theorem State.setFrame_lookupIdx (x : BitVec 36) : (s.setFrame x).lookupIdx = s.lookupIdx := rfl
@[simp] theorem State.setFrame_packPairs (x : BitVec 36) (n : Nat) : (s.setFrame x).packPairs n = s.packPairs n := rfl
@[simp] theorem State.setAcc_vAt (x : Word) (i : Nat) : (s.setAcc x).vAt i = s.vAt i := rfl
@[simp] theorem State.setAcc_wid (x : Word) (i : Nat) : (s.setAcc x).wid i = s.wid i := rfl
@[simp] theorem State.setAcc_cat (x : Word) (i : Nat) : (s.setAcc x).cat i = s.cat i := rfl
@[simp] theorem State.setAcc_lookupIdx (x : Word) : (s.setAcc x).lookupIdx = s.lookupIdx := rfl
@[simp] theorem State.setAcc_packPairs (x : Word) (n : Nat) : (s.setAcc x).packPairs n = s.packPairs n := rfl
@[simp] theorem State.setWidlo_vAt (x : Word) (i : Nat) : (s.setWidlo x).vAt i = s.vAt i := rfl
@[simp] theorem State.setWidlo_cat (x : Word) (i : Nat) : (s.setWidlo x).cat i = s.cat i := rfl
@[simp] theorem State.setWidlo_lookupIdx (x : Word) : (s.setWidlo x).lookupIdx = s.lookupIdx := rfl
@[simp] theorem State.setWidhi_vAt (x : Word) (i : Nat) : (s.setWidhi x).vAt i = s.vAt i := rfl
@[simp] theorem State.setWidhi_cat (x : Word) (i : Nat) : (s.setWidhi x).cat i = s.cat i := rfl
@[simp] theorem State.setWidhi_lookupIdx (x : Word) : (s.setWidhi x).lookupIdx = s.lookupIdx := rfl
@[simp] theorem State.setErr_vAt (lo hi : Word) (i : Nat) : (s.setErr lo hi).vAt i = s.vAt i := rfl
@[simp] theorem State.setErr_wid (lo hi : Word) (i : Nat) : (s.setErr lo hi).wid i = s.wid i := rfl
@[simp] theorem State.setErr_cat (lo hi : Word) (i : Nat) : (s.setErr lo hi).cat i = s.cat i := rfl
@[simp] theorem State.setErr_lookupIdx (lo hi : Word) : (s.setErr lo hi).lookupIdx = s.lookupIdx := rfl
@[simp] theorem State.setErr_packPairs (lo hi : Word) (n : Nat) : (s.setErr lo hi).packPairs n = s.packPairs n := rfl
@[simp] theorem State.setV_wid (x : Vector Word 16) (i : Nat) : (s.setV x).wid i = s.wid i := rfl
@[simp] theorem State.setV_cat (x : Vector Word 16) (i : Nat) : (s.setV x).cat i = s.cat i := rfl
@[simp] theorem State.setV_lookupIdx (x : Vector Word 16) : (s.setV x).lookupIdx = s.lookupIdx := rfl
@[simp] theorem State.setVAt_wid (k : Fin 16) (x : Word) (i : Nat) : (s.setVAt k x).wid i = s.wid i := rfl
@[simp] theorem State.setVAt_cat (k : Fin 16) (x : Word) (i : Nat) : (s.setVAt k x).cat i = s.cat i := rfl
@[simp] theorem State.setVAt_lookupIdx (i : Fin 16) (x : Word) : (s.setVAt i x).lookupIdx = s.lookupIdx := rfl
@[simp] theorem State.setHost_vAt (ops : List HostOp) (i : Nat) : (s.setHost ops).vAt i = s.vAt i := rfl
@[simp] theorem State.setHost_wid (ops : List HostOp) (i : Nat) : (s.setHost ops).wid i = s.wid i := rfl
@[simp] theorem State.setHost_cat (ops : List HostOp) (i : Nat) : (s.setHost ops).cat i = s.cat i := rfl
@[simp] theorem State.setHost_lookupIdx (ops : List HostOp) : (s.setHost ops).lookupIdx = s.lookupIdx := rfl
@[simp] theorem State.setHost_packPairs (ops : List HostOp) (n : Nat) : (s.setHost ops).packPairs n = s.packPairs n := rfl
@[simp] theorem State.answer_vAt (x : Word) (i : Nat) : (s.answer x).vAt i = s.vAt i := rfl
@[simp] theorem State.answer_wid (x : Word) (i : Nat) : (s.answer x).wid i = s.wid i := rfl
@[simp] theorem State.answer_cat (x : Word) (i : Nat) : (s.answer x).cat i = s.cat i := rfl
@[simp] theorem State.answer_lookupIdx (x : Word) : (s.answer x).lookupIdx = s.lookupIdx := rfl
@[simp] theorem State.answer_packPairs (x : Word) (n : Nat) : (s.answer x).packPairs n = s.packPairs n := rfl
@[simp] theorem State.drewNaN_vAt (i : Nat) : (s.drewNaN).vAt i = s.vAt i := rfl
@[simp] theorem State.drewNaN_wid (i : Nat) : (s.drewNaN).wid i = s.wid i := rfl
@[simp] theorem State.drewNaN_cat (i : Nat) : (s.drewNaN).cat i = s.cat i := rfl
@[simp] theorem State.drewNaN_lookupIdx : (s.drewNaN).lookupIdx = s.lookupIdx := rfl
@[simp] theorem State.drewNaN_packPairs (n : Nat) : (s.drewNaN).packPairs n = s.packPairs n := rfl

end Sys2Proof.Machine
end

