-- ==== Sys2Proof/Laws/Meanings.lean ====
section
/-! SUPPORT. What each command and each step can do, said once. -/

namespace Sys2Proof.Machine


/-! ## The ends of a command -/

@[simp] theorem raise_eq (e : ErrorInfo) (s : State) : raise e s = .next (s.setStatus e.statusWord) := rfl

@[simp] theorem complete_eq (s : State) : complete s = .next (s.setStatus 0) := rfl

theorem ErrorKind.code_le (k : ErrorKind) : 1 ≤ k.code ∧ k.code ≤ 8 := by cases k <;> decide

/-- STATUS.CODE is the error's code, whatever else is recorded. -/
theorem statusCode_statusWord (e : ErrorInfo) : statusCode e.statusWord = e.kind.code := by
  have h := e.kind.code_le
  have hc : BitVec.extractLsb' 0 8 e.statusWord = BitVec.ofNat 8 e.kind.code := by
    ext i hi
    simp only [ErrorInfo.statusWord, BitVec.getElem_extractLsb', BitVec.getLsbD_or, BitVec.getLsbD_shiftLeft,
      Nat.zero_add, BitVec.getLsbD_ofNat]
    have h1 : i < 24 := by omega
    have h2 : i < 16 := by omega
    have h3 : i < 28 := by omega
    rw [← BitVec.getLsbD_eq_getElem, BitVec.getLsbD_ofNat]
    simp [h1, h2, hi, h3]
  rw [statusCode, hc, BitVec.toNat_ofNat, Nat.mod_eq_of_lt (by omega)]

theorem statusWord_ne_zero (e : ErrorInfo) : e.statusWord ≠ 0 := by
  intro h
  have h1 := statusCode_statusWord e
  rw [h] at h1
  have h2 := e.kind.code_le
  have h3 : statusCode 0 = 0 := by decide
  omega

/-! ## What each command can do -/

/-- LOOKUP: the index of a definition with the id, or UnknownMessage. -/
theorem execLookup_cases (s t : State) (h : execLookup s = .next t) :
    (∃ idx, s.lookupIdx = some idx ∧ t = (s.setMidx (BitVec.ofNat 8 idx)).setStatus 0) ∨
      (s.lookupIdx = none ∧ t = s.setStatus (ErrorInfo.statusWord { kind := .unknownMessage })) := by
  unfold execLookup at h
  split at h
  · rename_i idx hi; cases h; exact Or.inl ⟨idx, hi, rfl⟩
  · rename_i hi; cases h; exact Or.inr ⟨hi, rfl⟩

/-- ENCODE: UnknownMessage, the frame of a definition, or the error of its first failing field. -/
theorem execEncode_cases (idx : Nat) (s t : State) (h : execEncode idx s = .next t) :
    (s.cat idx = none ∧ t = s.setStatus (ErrorInfo.statusWord { kind := .unknownMessage })) ∨
    ∃ d, s.cat idx = some d ∧
      ((∃ p, encodeFields s d.fields 0 0 = .ok p ∧
          t = (((s.setPayload p).setPlen (BitVec.ofNat 4 d.length)).setFrame (frameOf d)).setStatus 0) ∨
        ∃ e, encodeFields s d.fields 0 0 = .error e ∧
          ((∃ sub, e.error = .outOfRange sub ∧
              t = (s.setErr e.field.min e.field.max).setStatus
                (ErrorInfo.statusWord { kind := .fieldOutOfRange, field := e.index, sub := sub })) ∨
            (e.error = .overflow ∧
              t = s.setStatus
                (ErrorInfo.statusWord { kind := .bitFieldOverflow, field := e.index, width := e.field.w })))) := by
  unfold execEncode at h
  split at h
  · rename_i hc; cases h; exact Or.inl ⟨hc, rfl⟩
  · rename_i d hc
    refine Or.inr ⟨d, hc, ?_⟩
    split at h
    · rename_i p hp; cases h; exact Or.inl ⟨p, hp, rfl⟩
    · rename_i e he
      refine Or.inr ⟨e, he, ?_⟩
      unfold raiseEncode at h
      split at h
      · rename_i sub hs; cases h; exact Or.inl ⟨sub, hs, rfl⟩
      · rename_i hs; cases h; exact Or.inr ⟨hs, rfl⟩

/-- DECODE: UnknownMessage, PayloadLengthMismatch, or the values of a definition's fields. -/
theorem execDecode_cases (idx : Nat) (s t : State) (h : execDecode idx s = .next t) :
    (s.cat idx = none ∧ t = s.setStatus (ErrorInfo.statusWord { kind := .unknownMessage })) ∨
    ∃ d, s.cat idx = some d ∧
      ((s.plen.toNat ≠ d.length ∧ t = s.setStatus (ErrorInfo.statusWord { kind := .payloadLengthMismatch })) ∨
        (s.plen.toNat = d.length ∧
          t = ((s.setV (decodeFields s.nanDraws s.payload d.fields 0 s.v)).drewNaN).setStatus 0)) := by
  unfold execDecode at h
  split at h
  · rename_i hc; cases h; exact Or.inl ⟨hc, rfl⟩
  · rename_i d hc
    refine Or.inr ⟨d, hc, ?_⟩
    split at h <;> rename_i hl
    · cases h; exact Or.inl ⟨hl, rfl⟩
    · cases h; exact Or.inr ⟨by simpa using hl, rfl⟩

/-- PACKBITS: IllegalCommand for the widths, BitFieldOverflow, or the composed integer. -/
theorem execPackbits_cases (n : Nat) (s t : State) (h : execPackbits n s = .next t) :
    (widthsLegal ((s.packPairs n).map Prod.snd) = false ∧
      t = s.setStatus (ErrorInfo.statusWord { kind := .illegalCommand })) ∨
    (widthsLegal ((s.packPairs n).map Prod.snd) = true ∧
      ((∃ acc, packBits (s.packPairs n) = .ok acc ∧ t = (s.setAcc acc).setStatus 0) ∨
        ∃ e, packBits (s.packPairs n) = .error e ∧
          t = s.setStatus (ErrorInfo.statusWord { kind := .bitFieldOverflow, field := e.index, width := e.width }))) := by
  unfold execPackbits at h
  split at h <;> rename_i hw
  · refine Or.inr ⟨hw, ?_⟩
    split at h
    · rename_i acc ha; cases h; exact Or.inl ⟨acc, ha, rfl⟩
    · rename_i e he; cases h; exact Or.inr ⟨e, he, rfl⟩
  · cases h; exact Or.inl ⟨by simpa using hw, rfl⟩

/-- TRUNCF: FieldOutOfRange, or the kept bytes. -/
theorem execTruncf_cases (k : Nat) (s t : State) (h : execTruncf k s = .next t) :
    (cvt64to32 (drawAt s.nanDraws 0).nan32 (s.vAt 0) = none ∧
      t = s.setStatus (ErrorInfo.statusWord { kind := .fieldOutOfRange, sub := 1 })) ∨
    ∃ b, cvt64to32 (drawAt s.nanDraws 0).nan32 (s.vAt 0) = some b ∧
      t = ((s.setAcc (keepBytes k b)).drewNaN).setStatus 0 := by
  unfold execTruncf at h
  split at h
  · rename_i hc; cases h; exact Or.inl ⟨hc, rfl⟩
  · rename_i b hb; cases h; exact Or.inr ⟨b, hb, rfl⟩

/-- No command changes CATALOG, what the host has yet to do, or what it has read. -/
theorem exec_keeps (i : Instr) (s t : State) (h : exec i s = .next t) :
    t.catalog = s.catalog ∧ t.host = s.host ∧ t.answers = s.answers := by
  cases i with
  | lookup => rcases execLookup_cases s t h with ⟨_, _, rfl⟩ | ⟨_, rfl⟩ <;> simp
  | encode idx =>
    rcases execEncode_cases idx s t h with ⟨_, rfl⟩ | ⟨_, _, ⟨_, _, rfl⟩ | ⟨_, _, ⟨_, _, rfl⟩ | ⟨_, rfl⟩⟩⟩ <;> simp
  | decode idx => rcases execDecode_cases idx s t h with ⟨_, rfl⟩ | ⟨_, _, ⟨_, rfl⟩ | ⟨_, rfl⟩⟩ <;> simp
  | packbits n => rcases execPackbits_cases n s t h with ⟨_, rfl⟩ | ⟨_, ⟨_, _, rfl⟩ | ⟨_, _, rfl⟩⟩ <;> simp
  | truncf k => rcases execTruncf_cases k s t h with ⟨_, rfl⟩ | ⟨_, _, rfl⟩ <;> simp

/-! ## The host port and the step -/

/-- A step of a well-formed configuration is the next thing the host does. -/
theorem step_eq_performNext (s : State) (h : wellFormed s.catalog = true) : step s = performNext s := by
  unfold step
  rw [(wellFormed_eq_true_iff _).mp h]

theorem wellFormed_of_step (s t : State) (h : step s = .next t) : wellFormed s.catalog = true := by
  unfold step at h
  split at h
  · cases h
  · rename_i hf; exact (wellFormed_eq_true_iff _).mpr hf

/-- Every answer of a step: the block waits, resets, answers a read, is checked, stores a write, runs a command, or
raises IllegalCommand for an illegal word. -/
theorem step_cases (s t : State) (h : step s = .next t) :
    (s.host = [] ∧ t = s) ∨
    ∃ op rest, s.host = op :: rest ∧
      ((op = .reset ∧ t = (s.setHost rest).resetRegisters) ∨
       (∃ off bits r, op = .read off bits ∧ Reg.ofAccess off bits = some r ∧
          t = (s.setHost rest).answer (regRead r s)) ∨
       (op = .check ∧ t = hostCheck (s.setHost rest)) ∨
       (∃ off bits x r, op = .write off bits x ∧ Reg.ofAccess off bits = some r ∧ r ≠ .cmd ∧
          t = regWrite r x (s.setHost rest)) ∨
       (∃ off bits x, op = .write off bits x ∧ Reg.ofAccess off bits = some .cmd ∧
          ((∃ i, Sys2Proof.decode x = .ok i ∧ exec i (s.setHost rest) = .next t) ∨
           (∃ e, Sys2Proof.decode x = .error e ∧
              t = (s.setHost rest).setStatus (ErrorInfo.statusWord { kind := .illegalCommand }))))) := by
  rw [step_eq_performNext s (wellFormed_of_step s t h)] at h
  unfold performNext at h
  split at h
  · rename_i hs; cases h; exact Or.inl ⟨hs, rfl⟩
  · rename_i op rest hs
    refine Or.inr ⟨op, rest, hs, ?_⟩
    unfold perform at h
    cases op with
    | reset => cases h; exact Or.inl ⟨rfl, rfl⟩
    | read off bits =>
      simp only at h
      split at h
      · rename_i r hr; cases h; exact Or.inr (Or.inl ⟨off, bits, r, rfl, hr, rfl⟩)
      · cases h
    | check => cases h; exact Or.inr (Or.inr (Or.inl ⟨rfl, rfl⟩))
    | write off bits x =>
      simp only at h
      split at h
      · rename_i r hr
        unfold hostWrite at h
        split at h
        · refine Or.inr (Or.inr (Or.inr (Or.inr ⟨off, bits, x, rfl, hr, ?_⟩)))
          unfold performCommand at h
          split at h
          · rename_i i hi; exact Or.inl ⟨i, hi, h⟩
          · rename_i e he; cases h; exact Or.inr ⟨e, he, rfl⟩
        · rename_i hne
          cases h
          exact Or.inr (Or.inr (Or.inr (Or.inl ⟨off, bits, x, r, rfl, hr, hne, rfl⟩)))
      · cases h

end Sys2Proof.Machine
end

