-- ==== Sys2Proof/Laws/Numeric.lean ====
section
/-! SUPPORT. The numeric primitives: what the parts of an encoding are, how magnitudes and units relate, and what
rounding to nearest does. -/

namespace Sys2Proof.Machine

/-! Sign and magnitude. -/

theorem mag64_lt (x : Word) : mag64 x < 2 ^ 63 := Nat.mod_lt _ (by decide)

theorem mag32_lt (x : Word32) : mag32 x < 2 ^ 31 := Nat.mod_lt _ (by decide)

theorem toNat_eq_sign_mag64 (x : Word) : x.toNat = (if x.msb then 2 ^ 63 else 0) + mag64 x := by
  have h := x.isLt
  rw [BitVec.msb_eq_decide, mag64]
  by_cases h1 : 2 ^ (64 - 1) ≤ x.toNat
  · simp only [h1, decide_true, if_true]; omega
  · simp only [h1, decide_false]; simp; omega

theorem toNat_eq_sign_mag32 (x : Word32) : x.toNat = (if x.msb then 2 ^ 31 else 0) + mag32 x := by
  have h := x.isLt
  rw [BitVec.msb_eq_decide, mag32]
  by_cases h1 : 2 ^ (32 - 1) ≤ x.toNat
  · simp only [h1, decide_true, if_true]; omega
  · simp only [h1, decide_false]; simp; omega

theorem ofMag64_toNat (sign : Bool) (mag : Nat) (h : mag < 2 ^ 63) :
    (ofMag64 sign mag).toNat = (if sign then 2 ^ 63 else 0) + mag := by
  cases sign <;> (simp [ofMag64, BitVec.toNat_ofNat]; omega)

theorem ofMag32_toNat (sign : Bool) (mag : Nat) (h : mag < 2 ^ 31) :
    (ofMag32 sign mag).toNat = (if sign then 2 ^ 31 else 0) + mag := by
  cases sign <;> (simp [ofMag32, BitVec.toNat_ofNat]; omega)

theorem mag64_ofMag64 (sign : Bool) (mag : Nat) (h : mag < 2 ^ 63) : mag64 (ofMag64 sign mag) = mag := by
  rw [mag64, ofMag64_toNat sign mag h]; cases sign <;> (simp; omega)

theorem mag32_ofMag32 (sign : Bool) (mag : Nat) (h : mag < 2 ^ 31) : mag32 (ofMag32 sign mag) = mag := by
  rw [mag32, ofMag32_toNat sign mag h]; cases sign <;> (simp; omega)

theorem msb_ofMag64 (sign : Bool) (mag : Nat) (h : mag < 2 ^ 63) : (ofMag64 sign mag).msb = sign := by
  rw [BitVec.msb_eq_decide, ofMag64_toNat sign mag h]; cases sign
  · simp; omega
  · simp

theorem msb_ofMag32 (sign : Bool) (mag : Nat) (h : mag < 2 ^ 31) : (ofMag32 sign mag).msb = sign := by
  rw [BitVec.msb_eq_decide, ofMag32_toNat sign mag h]; cases sign
  · simp; omega
  · simp

/-! NaN draws. -/

theorem or_and_absorb : ∀ a b : Bool, ((a || b) && b) = b := by decide

theorem isNaN64_asNaN64 (b : Word) : isNaN64 (asNaN64 b) = true := by
  unfold asNaN64
  split
  · assumption
  · have hx : (b ||| 0x7FF8000000000000#64) &&& 0x7FF8000000000000#64 = 0x7FF8000000000000#64 := by
      ext i hi
      rw [BitVec.getElem_and, BitVec.getElem_or]
      exact or_and_absorb _ _
    have h3 : (0x7FF8000000000000 : Nat) ≤ mag64 (b ||| 0x7FF8000000000000#64) := by
      have h4 : mag64 (b ||| 0x7FF8000000000000#64) &&& 0x7FF8000000000000 = 0x7FF8000000000000 := by
        have h5 := congrArg BitVec.toNat hx
        rw [BitVec.toNat_and] at h5
        have h6 : mag64 (b ||| 0x7FF8000000000000#64) =
            (b ||| 0x7FF8000000000000#64).toNat &&& (2 ^ 63 - 1) := by
          rw [Nat.and_two_pow_sub_one_eq_mod]; rfl
        rw [h6, Nat.and_assoc]
        exact h5
      calc (0x7FF8000000000000 : Nat) = mag64 (b ||| 0x7FF8000000000000#64) &&& 0x7FF8000000000000 := h4.symm
        _ ≤ _ := Nat.and_le_left
    exact decide_eq_true (Nat.lt_of_lt_of_le (by decide) h3)

theorem isNaN32_asNaN32 (b : Word32) : isNaN32 (asNaN32 b) = true := by
  unfold asNaN32
  split
  · assumption
  · have hx : (b ||| 0x7FC00000#32) &&& 0x7FC00000#32 = 0x7FC00000#32 := by
      ext i hi
      rw [BitVec.getElem_and, BitVec.getElem_or]
      exact or_and_absorb _ _
    have h4 : mag32 (b ||| 0x7FC00000#32) &&& 0x7FC00000 = 0x7FC00000 := by
      have h5 := congrArg BitVec.toNat hx
      rw [BitVec.toNat_and] at h5
      have h6 : mag32 (b ||| 0x7FC00000#32) = (b ||| 0x7FC00000#32).toNat &&& (2 ^ 31 - 1) := by
        rw [Nat.and_two_pow_sub_one_eq_mod]; rfl
      rw [h6, Nat.and_assoc]
      exact h5
    have h3 : (0x7FC00000 : Nat) ≤ mag32 (b ||| 0x7FC00000#32) := by
      calc (0x7FC00000 : Nat) = mag32 (b ||| 0x7FC00000#32) &&& 0x7FC00000 := h4.symm
        _ ≤ _ := Nat.and_le_left
    exact decide_eq_true (Nat.lt_of_lt_of_le (by decide) h3)

/-! Division to nearest. -/

/-- `rneDiv` is within half of the exact quotient, and even where it is exactly half away. -/
theorem rneDiv_nearest (n d : Nat) (hd : 0 < d) :
    2 * (rneDiv n d * d) ≤ 2 * n + d ∧ 2 * n ≤ 2 * (rneDiv n d * d) + d ∧
      ((2 * (rneDiv n d * d) = 2 * n + d ∨ 2 * n = 2 * (rneDiv n d * d) + d) → rneDiv n d % 2 = 0) := by
  have h1 : d * (n / d) + n % d = n := Nat.div_add_mod n d
  have h2 : n % d < d := Nat.mod_lt n hd
  have h3 : (n / d) * d = d * (n / d) := Nat.mul_comm _ _
  have h4 : (n / d + 1) * d = d * (n / d) + d := by rw [Nat.add_mul, h3, Nat.one_mul]
  unfold rneDiv
  split
  · refine ⟨by omega, by omega, ?_⟩; rintro (h | h) <;> omega
  · split
    · refine ⟨by omega, by omega, ?_⟩; rintro (h | h) <;> omega
    · rcases Nat.mod_two_eq_zero_or_one (n / d) with h5 | h5
      · simp only [h5, Nat.add_zero]; refine ⟨by omega, by omega, ?_⟩; intros; trivial
      · simp only [h5]; refine ⟨by omega, by omega, ?_⟩; intros; omega

theorem rneDiv_mul_self (q d : Nat) (hd : 0 < d) : rneDiv (q * d) d = q := by
  simp [rneDiv, Nat.mul_mod_left, Nat.mul_div_cancel q hd, hd]

/-- `rneDiv` is monotone in the exact quotient. -/
theorem rneDiv_mono {n d n' d' : Nat} (hd : 0 < d) (hd' : 0 < d') (h : n * d' ≤ n' * d) :
    rneDiv n d ≤ rneDiv n' d' := by
  by_contra hc
  obtain ⟨a1, _, a3⟩ := rneDiv_nearest n d hd
  obtain ⟨_, b2, b3⟩ := rneDiv_nearest n' d' hd'
  generalize rneDiv n d = q at *
  generalize rneDiv n' d' = r at *
  have hq : r + 1 ≤ q := by omega
  -- (2q - 1) d ≤ 2n and 2n' ≤ (2r + 1) d', so (2q - 1) ≤ 2r + 1: q = r + 1, and both are ties
  have e1 : (2 * q) * (d * d') ≤ 2 * (n * d') + d * d' := by
    have := Nat.mul_le_mul_right d' a1
    nlinarith
  have e2 : 2 * (n' * d) ≤ (2 * r) * (d * d') + d * d' := by
    have := Nat.mul_le_mul_right d b2
    nlinarith
  have hp : 0 < d * d' := Nat.mul_pos hd hd'
  have e3 : (2 * q) * (d * d') ≤ (2 * r + 2) * (d * d') := by nlinarith
  have e4 : 2 * q ≤ 2 * r + 2 := Nat.le_of_mul_le_mul_right e3 hp
  have e5 : q = r + 1 := by omega
  subst e5
  have t1 : 2 * ((r + 1) * d) = 2 * n + d := by
    have : 2 * ((r + 1) * d) * d' = (2 * n + d) * d' := by nlinarith
    exact Nat.eq_of_mul_eq_mul_right hd' this
  have t2 : 2 * n' = 2 * (r * d') + d' := by
    have : 2 * n' * d = (2 * (r * d') + d') * d := by nlinarith
    exact Nat.eq_of_mul_eq_mul_right hd this
  have p1 := a3 (Or.inl t1)
  have p2 := b3 (Or.inr t2)
  omega

/-! Units of a magnitude. -/

theorem unitsOf_eq (fb mag : Nat) :
    unitsOf fb mag = if mag < 2 ^ fb then mag else (2 ^ fb + mag % 2 ^ fb) * 2 ^ (mag / 2 ^ fb - 1) := by
  have h : 0 < 2 ^ fb := Nat.two_pow_pos fb
  simp only [unitsOf, Nat.shiftLeft_eq, Nat.shiftRight_eq_div_pow, Nat.one_mul, Nat.div_eq_zero_iff]
  split <;> rename_i h1
  · rw [if_pos (by omega)]
  · rw [if_neg (by omega)]

/-- The units of the magnitude `e * 2^fb + q` with `q` kept bits at exponent `e`. -/
theorem unitsOf_compose (fb e q : Nat) (hq : q ≤ 2 ^ (fb + 1)) (he : e = 0 ∨ 2 ^ fb ≤ q) :
    unitsOf fb (e * 2 ^ fb + q) = q * 2 ^ e := by
  have h : 0 < 2 ^ fb := Nat.two_pow_pos fb
  have h2 : 2 ^ (fb + 1) = 2 * 2 ^ fb := by rw [Nat.pow_succ]; omega
  rw [unitsOf_eq]
  by_cases hz : e = 0 ∧ q < 2 ^ fb
  · obtain ⟨rfl, hz⟩ := hz
    simp [hz]
  · have hge : 2 ^ fb ≤ q := by omega
    have hn : ¬ (e * 2 ^ fb + q < 2 ^ fb) := by omega
    rw [if_neg hn]
    by_cases hlt : q < 2 ^ (fb + 1)
    · have hd : (e * 2 ^ fb + q) / 2 ^ fb = e + 1 := by
        rw [Nat.mul_comm, Nat.mul_add_div h, Nat.div_eq_of_lt_le (k := 1) (by omega) (by omega)]
      have hm : (e * 2 ^ fb + q) % 2 ^ fb = q - 2 ^ fb := by
        have := Nat.div_add_mod (e * 2 ^ fb + q) (2 ^ fb)
        rw [hd, Nat.mul_add, Nat.mul_comm] at this
        omega
      rw [hd, hm, Nat.add_sub_cancel]; congr 1; omega
    · have hq' : q = 2 * 2 ^ fb := by omega
      have hd : (e * 2 ^ fb + q) / 2 ^ fb = e + 2 := by
        rw [hq', ← Nat.add_mul, Nat.mul_div_cancel _ h]
      have hm : (e * 2 ^ fb + q) % 2 ^ fb = 0 := by
        rw [hq', ← Nat.add_mul, Nat.mul_mod_left]
      rw [hd, hm, hq', Nat.add_zero, show e + 2 - 1 = e + 1 by omega, Nat.pow_succ]
      ring

/-- Each magnitude is some exponent and kept bits. -/
theorem exists_compose (fb mag : Nat) :
    ∃ e q, mag = e * 2 ^ fb + q ∧ q < 2 ^ (fb + 1) ∧ (e = 0 ∨ 2 ^ fb ≤ q) ∧ unitsOf fb mag = q * 2 ^ e := by
  have h : 0 < 2 ^ fb := Nat.two_pow_pos fb
  have h2 : 2 ^ (fb + 1) = 2 * 2 ^ fb := by rw [Nat.pow_succ]; omega
  have hm := Nat.div_add_mod mag (2 ^ fb)
  have hl := Nat.mod_lt mag h
  rw [Nat.mul_comm] at hm
  by_cases hz : mag / 2 ^ fb = 0
  · refine ⟨0, mag, by omega, ?_, Or.inl rfl, ?_⟩
    · rw [hz] at hm; omega
    · simpa using unitsOf_compose fb 0 mag (by rw [hz] at hm; omega) (Or.inl rfl)
  · obtain ⟨e, he⟩ := Nat.exists_eq_succ_of_ne_zero hz
    rw [he, Nat.succ_mul] at hm
    have hc := unitsOf_compose fb e (2 ^ fb + mag % 2 ^ fb) (by omega) (Or.inr (by omega))
    have heq : e * 2 ^ fb + (2 ^ fb + mag % 2 ^ fb) = mag := by omega
    rw [heq] at hc
    exact ⟨e, 2 ^ fb + mag % 2 ^ fb, heq.symm, by omega, Or.inr (by omega), hc⟩

theorem unitsOf_succ_lt (fb mag : Nat) : unitsOf fb mag < unitsOf fb (mag + 1) := by
  obtain ⟨e, q, hm, hq, he, hu⟩ := exists_compose fb mag
  have h1 := unitsOf_compose fb e (q + 1) (by omega) (by omega)
  have hp : 0 < 2 ^ e := Nat.two_pow_pos e
  rw [hu, hm, Nat.add_assoc, h1]
  exact Nat.mul_lt_mul_of_pos_right (by omega) hp

theorem unitsOf_strictMono (fb : Nat) : StrictMono (unitsOf fb) := strictMono_nat_of_lt_succ (unitsOf_succ_lt fb)

theorem unitsOf_lt_iff (fb a b : Nat) : unitsOf fb a < unitsOf fb b ↔ a < b := (unitsOf_strictMono fb).lt_iff_lt

theorem unitsOf_le_iff (fb a b : Nat) : unitsOf fb a ≤ unitsOf fb b ↔ a ≤ b := (unitsOf_strictMono fb).le_iff_le

theorem unitsOf_inj (fb a b : Nat) : unitsOf fb a = unitsOf fb b ↔ a = b := (unitsOf_strictMono fb).injective.eq_iff

@[simp] theorem unitsOf_zero (fb : Nat) : unitsOf fb 0 = 0 := by simp [unitsOf]

/-! Rounding to a magnitude. -/

/-- The magnitude `roundUnits` rounds to before infinity bounds it. -/
def roundFree (fb n d : Nat) : Nat := ulpLog fb n d <<< fb + rneDiv n (d <<< ulpLog fb n d)

theorem roundUnits_eq (fb inf n d : Nat) : roundUnits fb inf n d = min inf (roundFree fb n d) := rfl

/-- With `e = ulpLog`, the quotient lies in the binade of the kept bits. -/
theorem ulpLog_spec (fb n d : Nat) (hd : 0 < d) :
    n < 2 ^ (fb + 1) * (d * 2 ^ ulpLog fb n d) ∧
      (ulpLog fb n d = 0 ∨ 2 ^ fb * (d * 2 ^ ulpLog fb n d) ≤ n) := by
  have hp : 2 ^ (fb + 1) = 2 * 2 ^ fb := by rw [Nat.pow_succ]; omega
  have h0 : 0 < 2 ^ fb := Nat.two_pow_pos fb
  unfold ulpLog
  rw [Nat.shiftLeft_eq, Nat.one_mul]
  split <;> rename_i h
  · refine ⟨?_, Or.inl rfl⟩
    rw [Nat.pow_zero, Nat.mul_one, ← Nat.div_lt_iff_lt_mul hd]; exact h
  · have hq : n / d ≠ 0 := by omega
    have h1 := Nat.log2_self_le hq
    have h2 := Nat.lt_log2_self (n := n / d)
    have hl : fb + 1 ≤ (n / d).log2 := (Nat.le_log2 hq).mpr (by omega)
    obtain ⟨k, hk⟩ := Nat.exists_eq_add_of_le hl
    rw [hk] at h1 h2
    rw [hk, show fb + 1 + k - fb = k + 1 by omega]
    constructor
    · rw [Nat.div_lt_iff_lt_mul hd] at h2
      calc n < 2 ^ (fb + 1 + k + 1) * d := h2
        _ = _ := by ring
    · right
      rw [Nat.le_div_iff_mul_le hd] at h1
      calc _ = 2 ^ (fb + 1 + k) * d := by ring
        _ ≤ n := h1

/-- The kept bits at the exponent `ulpLog`. -/
theorem roundFree_compose (fb n d : Nat) (hd : 0 < d) :
    ∃ e q, e = ulpLog fb n d ∧ q = rneDiv n (d * 2 ^ e) ∧ roundFree fb n d = e * 2 ^ fb + q ∧
      q ≤ 2 ^ (fb + 1) ∧ (e = 0 ∨ 2 ^ fb ≤ q) ∧ unitsOf fb (roundFree fb n d) = q * 2 ^ e := by
  obtain ⟨h1, h2⟩ := ulpLog_spec fb n d hd
  have hD : 0 < d * 2 ^ ulpLog fb n d := Nat.mul_pos hd (Nat.two_pow_pos _)
  have hq : rneDiv n (d * 2 ^ ulpLog fb n d) ≤ 2 ^ (fb + 1) := by
    rw [← rneDiv_mul_self (2 ^ (fb + 1)) _ hD]
    exact rneDiv_mono hD hD (Nat.mul_le_mul_right _ h1.le)
  have he : ulpLog fb n d = 0 ∨ 2 ^ fb ≤ rneDiv n (d * 2 ^ ulpLog fb n d) := by
    refine h2.imp_right fun h => ?_
    rw [← rneDiv_mul_self (2 ^ fb) _ hD]
    exact rneDiv_mono hD hD (Nat.mul_le_mul_right _ h)
  have hr : roundFree fb n d = ulpLog fb n d * 2 ^ fb + rneDiv n (d * 2 ^ ulpLog fb n d) := by
    rw [roundFree, Nat.shiftLeft_eq, Nat.shiftLeft_eq]
  exact ⟨_, _, rfl, rfl, hr, hq, he, by rw [hr]; exact unitsOf_compose fb _ _ hq he⟩


/-- Rounding is monotone in the exact quotient. -/
theorem roundFree_mono {fb n d n' d' : Nat} (hd : 0 < d) (hd' : 0 < d') (h : n * d' ≤ n' * d) :
    roundFree fb n d ≤ roundFree fb n' d' := by
  have hp : 2 ^ (fb + 1) = 2 * 2 ^ fb := by rw [Nat.pow_succ]; omega
  obtain ⟨s1, s2⟩ := ulpLog_spec fb n d hd
  obtain ⟨s1', s2'⟩ := ulpLog_spec fb n' d' hd'
  obtain ⟨e, q, he, hq, hr, hle, _, _⟩ := roundFree_compose fb n d hd
  obtain ⟨e', q', he', hq', hr', _, hge', _⟩ := roundFree_compose fb n' d' hd'
  rw [← he] at s1 s2
  rw [← he'] at s1' s2'
  rw [hr, hr']
  rcases Nat.lt_trichotomy e e' with hlt | heq | hgt
  · have hq2 : 2 ^ fb ≤ q' := by omega
    have : (e + 1) * 2 ^ fb ≤ e' * 2 ^ fb := Nat.mul_le_mul_right _ hlt
    rw [Nat.succ_mul] at this
    omega
  · subst heq
    refine Nat.add_le_add_left ?_ _
    rw [hq, hq']
    refine rneDiv_mono (Nat.mul_pos hd (Nat.two_pow_pos _)) (Nat.mul_pos hd' (Nat.two_pow_pos _)) ?_
    calc n * (d' * 2 ^ e) = n * d' * 2 ^ e := by ring
      _ ≤ n' * d * 2 ^ e := Nat.mul_le_mul_right _ h
      _ = _ := by ring
  · exfalso
    have h2 : 2 ^ fb * (d * 2 ^ e) ≤ n := by omega
    have h3 : 2 ^ (e' + 1) ≤ 2 ^ e := Nat.pow_le_pow_right (by decide) hgt
    have h4 : n' < 2 ^ fb * (d' * 2 ^ e) := by
      calc n' < 2 ^ (fb + 1) * (d' * 2 ^ e') := s1'
        _ = 2 ^ fb * (d' * 2 ^ (e' + 1)) := by ring
        _ ≤ _ := Nat.mul_le_mul_left _ (Nat.mul_le_mul_left _ h3)
    have h5 : n' * d < 2 ^ fb * (d' * 2 ^ e) * d := Nat.mul_lt_mul_of_pos_right h4 hd
    have h6 : 2 ^ fb * (d * 2 ^ e) * d' ≤ n * d' := Nat.mul_le_mul_right _ h2
    have h7 : 2 ^ fb * (d * 2 ^ e) * d' = 2 ^ fb * (d' * 2 ^ e) * d := by ring
    omega

theorem roundUnits_mono {fb inf n d n' d' : Nat} (hd : 0 < d) (hd' : 0 < d') (h : n * d' ≤ n' * d) :
    roundUnits fb inf n d ≤ roundUnits fb inf n' d' := by
  rw [roundUnits_eq, roundUnits_eq]
  exact min_le_min le_rfl (roundFree_mono hd hd' h)

theorem roundUnits_le_inf (fb inf n d : Nat) : roundUnits fb inf n d ≤ inf := by
  rw [roundUnits_eq]; exact min_le_left _ _

/-- The units next above those of a magnitude with `q` kept bits at exponent `e`. -/
theorem unitsOf_succ_ge (fb e q : Nat) (hq : q ≤ 2 ^ (fb + 1)) (he : e = 0 ∨ 2 ^ fb ≤ q) :
    q * 2 ^ e + 2 ^ e ≤ unitsOf fb (e * 2 ^ fb + q + 1) := by
  have hp : 2 ^ (fb + 1) = 2 * 2 ^ fb := by rw [Nat.pow_succ]; omega
  by_cases h : q < 2 ^ (fb + 1)
  · rw [Nat.add_assoc, unitsOf_compose fb e (q + 1) (by omega) (by omega), Nat.succ_mul]
  · have hq' : q = 2 * 2 ^ fb := by omega
    have h0 : 0 < 2 ^ fb := Nat.two_pow_pos fb
    have h1 : e * 2 ^ fb + q + 1 = (e + 1) * 2 ^ fb + (2 ^ fb + 1) := by rw [hq', Nat.add_mul, Nat.one_mul]; omega
    rw [h1, unitsOf_compose fb (e + 1) (2 ^ fb + 1) (by omega) (Or.inr (by omega)), hq', Nat.pow_succ]
    have := Nat.two_pow_pos e
    nlinarith

/-- The units next below, where the kept bits are not the least of a binade. -/
theorem unitsOf_pred_le (fb e q m : Nat) (hq : q ≤ 2 ^ (fb + 1)) (he : e = 0 ∨ 2 ^ fb < q)
    (hm : m < e * 2 ^ fb + q) : unitsOf fb m + 2 ^ e ≤ q * 2 ^ e := by
  by_cases h0 : q = 0
  · subst h0
    have : e = 0 := by omega
    subst this; simp at hm
  · have h1 := unitsOf_compose fb e (q - 1) (by omega) (by omega)
    have h2 : unitsOf fb m ≤ unitsOf fb (e * 2 ^ fb + (q - 1)) := (unitsOf_le_iff _ _ _).mpr (by omega)
    rw [h1] at h2
    obtain ⟨k, rfl⟩ := Nat.exists_eq_succ_of_ne_zero h0
    rw [Nat.succ_mul]
    simp only [Nat.succ_sub_one] at h2
    omega

/-- `roundFree` is nearest: no magnitude is nearer to `n / d` units, and one equally near leaves the result even. -/
theorem roundFree_nearest (fb n d m : Nat) (hfb : 1 ≤ fb) (hd : 0 < d) :
    |(unitsOf fb (roundFree fb n d) : Int) * d - n| < |(unitsOf fb m : Int) * d - n| ∨
      (|(unitsOf fb (roundFree fb n d) : Int) * d - n| = |(unitsOf fb m : Int) * d - n| ∧
        (m = roundFree fb n d ∨ roundFree fb n d % 2 = 0)) := by
  obtain ⟨s1, s2⟩ := ulpLog_spec fb n d hd
  obtain ⟨e, q, he, hq, hr, hle, hge, hu⟩ := roundFree_compose fb n d hd
  rw [← he] at s1 s2
  have hD : 0 < d * 2 ^ e := Nat.mul_pos hd (Nat.two_pow_pos _)
  obtain ⟨a1, a2, a3⟩ := rneDiv_nearest n (d * 2 ^ e) hD
  rw [← hq] at a1 a2 a3
  have hpar : roundFree fb n d % 2 = q % 2 := by
    obtain ⟨k, rfl⟩ := Nat.exists_eq_succ_of_ne_zero (Nat.one_le_iff_ne_zero.mp hfb)
    rw [hr, Nat.pow_succ, ← Nat.mul_assoc, Nat.mul_comm _ 2, Nat.mul_add_mod]
  have hqd : q * (d * 2 ^ e) = q * 2 ^ e * d := by ring
  have hed : d * 2 ^ e = 2 ^ e * d := Nat.mul_comm _ _
  rw [hqd, hed] at a1 a2 a3
  rw [hu, hpar]
  rcases Nat.lt_trichotomy m (roundFree fb n d) with hlt | heq | hgt
  · rw [hr] at hlt
    by_cases hb : e = 0 ∨ 2 ^ fb < q
    · have h1 := unitsOf_pred_le fb e q m hle hb hlt
      have h2 : unitsOf fb m * d + 2 ^ e * d ≤ q * 2 ^ e * d := by
        rw [← Nat.add_mul]; exact Nat.mul_le_mul_right d h1
      zify at a1 a2 a3 h2 ⊢
      rw [abs_of_nonpos (a := (unitsOf fb m : Int) * d - n) (by linarith)]
      rcases abs_cases ((q : Int) * 2 ^ e * d - n) with ⟨h3, _⟩ | ⟨h3, _⟩ <;> rw [h3]
      · by_cases ht : 2 * ((q : Int) * 2 ^ e * d) = 2 * n + 2 ^ e * d
        · have hev := a3 (Or.inl ht)
          by_cases hx : (q : Int) * 2 ^ e * d - n = -((unitsOf fb m : Int) * d - n)
          · exact Or.inr ⟨hx, Or.inr (by exact_mod_cast hev)⟩
          · left; apply lt_of_le_of_ne _ hx; linarith
        · left
          have : 2 * ((q : Int) * 2 ^ e * d) < 2 * n + 2 ^ e * d := lt_of_le_of_ne a1 ht
          linarith
      · left
        have : (0 : Int) < 2 ^ e * d := by positivity
        linarith
    · have hq1 : q = 2 ^ fb := by omega
      have h2 : 2 ^ fb * (d * 2 ^ e) ≤ n := by omega
      have h3 : unitsOf fb m < q * 2 ^ e := by
        rw [← unitsOf_compose fb e q hle hge]; exact (unitsOf_lt_iff _ _ _).mpr hlt
      have h4 : unitsOf fb m * d < q * 2 ^ e * d := Nat.mul_lt_mul_of_pos_right h3 hd
      have h5 : q * 2 ^ e * d ≤ n := by
        calc q * 2 ^ e * d = 2 ^ fb * (d * 2 ^ e) := by rw [hq1]; ring
          _ ≤ n := h2
      left
      zify at h4 h5 ⊢
      rw [abs_of_nonpos (by linarith), abs_of_nonpos (by linarith)]
      linarith
  · rw [heq, hu]
    exact Or.inr ⟨rfl, Or.inl rfl⟩
  · rw [hr] at hgt
    have h1 := unitsOf_succ_ge fb e q hle hge
    have h1' : unitsOf fb (e * 2 ^ fb + q + 1) ≤ unitsOf fb m := (unitsOf_le_iff _ _ _).mpr (by omega)
    have h2 : q * 2 ^ e * d + 2 ^ e * d ≤ unitsOf fb m * d := by
      rw [← Nat.add_mul]; exact Nat.mul_le_mul_right d (by omega)
    zify at a1 a2 a3 h2 ⊢
    rw [abs_of_nonneg (a := (unitsOf fb m : Int) * d - n) (by linarith)]
    rcases abs_cases ((q : Int) * 2 ^ e * d - n) with ⟨h3, _⟩ | ⟨h3, _⟩ <;> rw [h3]
    · left
      have : (0 : Int) < 2 ^ e * d := by positivity
      linarith
    · by_cases ht : 2 * (n : Int) = 2 * ((q : Int) * 2 ^ e * d) + 2 ^ e * d
      · have hev := a3 (Or.inr ht)
        by_cases hx : -((q : Int) * 2 ^ e * d - n) = (unitsOf fb m : Int) * d - n
        · exact Or.inr ⟨hx, Or.inr (by exact_mod_cast hev)⟩
        · left; apply lt_of_le_of_ne _ hx; linarith
      · left
        have : 2 * (n : Int) < 2 * ((q : Int) * 2 ^ e * d) + 2 ^ e * d := lt_of_le_of_ne a2 ht
        linarith

end Sys2Proof.Machine
end

