-- ==== Sys2Proof/Laws/Packer.lean ====
section
/-! SUPPORT. What PackBits composes and where it fails. -/

namespace Sys2Proof.Machine


/-! ## Packer -/

/-- The number a list of `(value, width)` pairs composes to, the first pair in the least significant bits. -/
def packValue : List (Word × Nat) → Nat
  | [] => 0
  | (x, w) :: rest => x.toNat + 2 ^ w * packValue rest

/-- The loop of `PackBits` ends well exactly where every value fits its width. -/
theorem packFrom_isOk (pairs : List (Word × Nat)) (i : Nat) (acc : Word) (shift : Nat) :
    (∃ r, packFrom pairs i acc shift = .ok r) ↔ ∀ q ∈ pairs, q.1.toNat < 2 ^ q.2 := by
  induction pairs generalizing i acc shift with
  | nil => simp [packFrom]
  | cons q rest ih =>
    obtain ⟨x, w⟩ := q
    rw [packFrom]
    split <;> rename_i h <;> rw [Nat.shiftLeft_eq, Nat.one_mul] at h
    · simp; omega
    · rw [ih]; simp; omega

theorem packValue_lt (pairs : List (Word × Nat)) (h : ∀ q ∈ pairs, q.1.toNat < 2 ^ q.2) :
    packValue pairs < 2 ^ (pairs.map Prod.snd).sum := by
  induction pairs with
  | nil => simp [packValue]
  | cons q rest ih =>
    obtain ⟨x, w⟩ := q
    have h1 : x.toNat < 2 ^ w := h (x, w) (by simp)
    have h2 := ih fun q hq => h q (by simp [hq])
    simp only [packValue, List.map_cons, List.sum_cons, Nat.pow_add]
    calc x.toNat + 2 ^ w * packValue rest < 2 ^ w * 1 + 2 ^ w * packValue rest := by omega
      _ = 2 ^ w * (packValue rest + 1) := by ring
      _ ≤ _ := Nat.mul_le_mul_left _ h2

/-- What the loop of `PackBits` gives, as a number: the accumulator with the pairs' number above its `shift` bits. -/
theorem packFrom_toNat (pairs : List (Word × Nat)) (i : Nat) (acc r : Word) (shift : Nat)
    (hacc : acc.toNat < 2 ^ shift) (hsum : shift + (pairs.map Prod.snd).sum ≤ 64)
    (h : packFrom pairs i acc shift = .ok r) : r.toNat = acc.toNat + 2 ^ shift * packValue pairs := by
  induction pairs generalizing i acc shift with
  | nil => simp [packFrom] at h; simp [packValue, h]
  | cons q rest ih =>
    obtain ⟨x, w⟩ := q
    simp only [List.map_cons, List.sum_cons] at hsum
    rw [packFrom] at h
    split at h <;> rename_i hx <;> rw [Nat.shiftLeft_eq, Nat.one_mul] at hx
    · cases h
    · have hx' : x.toNat < 2 ^ w := by omega
      have hp : x.toNat * 2 ^ shift < 2 ^ 64 := by
        calc x.toNat * 2 ^ shift < 2 ^ w * 2 ^ shift := Nat.mul_lt_mul_of_pos_right hx' (Nat.two_pow_pos _)
          _ = 2 ^ (w + shift) := (Nat.pow_add ..).symm
          _ ≤ 2 ^ 64 := Nat.pow_le_pow_right (by decide) (by omega)
      have hn : (acc ||| x <<< shift).toNat = acc.toNat + x.toNat * 2 ^ shift := by
        rw [BitVec.toNat_or, BitVec.toNat_shiftLeft, Nat.shiftLeft_eq, Nat.mod_eq_of_lt hp, Nat.or_comm,
          Nat.mul_comm, ← Nat.two_pow_add_eq_or_of_lt hacc, Nat.add_comm]
      have := ih (i + 1) (acc ||| x <<< shift) (shift + w) (by
        rw [hn, Nat.pow_add]
        nlinarith [Nat.two_pow_pos shift]) (by omega) h
      rw [this, hn, packValue, Nat.pow_add]
      ring

/-- `PackBits` fails exactly at the first value that does not fit its width. -/
theorem packFrom_eq_error (pairs : List (Word × Nat)) (i : Nat) (acc : Word) (shift : Nat) (e : PackFailure) :
    packFrom pairs i acc shift = .error e ↔
      ∃ (j : Nat) (x : Word), e.index = i + j ∧ pairs[j]? = some (x, e.width) ∧ 2 ^ e.width ≤ x.toNat ∧
        ∀ (k : Nat) (q : Word × Nat), k < j → pairs[k]? = some q → q.1.toNat < 2 ^ q.2 := by
  induction pairs generalizing i acc shift with
  | nil => simp [packFrom]
  | cons q rest ih =>
    obtain ⟨x, w⟩ := q
    rw [packFrom]
    split <;> rename_i h <;> rw [Nat.shiftLeft_eq, Nat.one_mul] at h
    · constructor
      · intro he
        cases he
        exact ⟨0, x, rfl, rfl, h, by simp⟩
      · rintro ⟨j, y, h1, h2, h3, h4⟩
        cases j with
        | zero =>
          simp at h1 h2
          cases e
          simp_all
        | succ j =>
          have := h4 0 (x, w) (by omega) rfl
          simp at this; omega
    · rw [ih]
      constructor
      · rintro ⟨j, y, h1, h2, h3, h4⟩
        refine ⟨j + 1, y, by omega, by simpa using h2, h3, ?_⟩
        intro k q hk hq
        cases k with
        | zero => simp at hq; subst hq; simpa using h
        | succ k => exact h4 k q (by omega) (by simpa using hq)
      · rintro ⟨j, y, h1, h2, h3, h4⟩
        cases j with
        | zero =>
          simp at h2
          obtain ⟨rfl, rfl⟩ := h2
          omega
        | succ j =>
          exact ⟨j, y, by omega, by simpa using h2, h3, fun k q hk hq => h4 (k + 1) q (by omega) (by simpa using hq)⟩

theorem widthsLegal_iff (ws : List Nat) :
    widthsLegal ws = true ↔ (∀ w ∈ ws, 1 ≤ w ∧ w ≤ 64) ∧ ws.sum ≤ 64 := by
  simp [widthsLegal]

end Sys2Proof.Machine
end

