-- ==== Sys2Proof/Laws/PerInstr.lean ====
section
/-! SUPPORT. A family stated per instruction: the command word lies in its row of the match and mask table of
30_encoding.md R81. -/

namespace Sys2Proof.Laws.WordMatchesRow

/-- The word of a well-formed command matches its row. -/
def Statement (i : Instr) : Prop := i.wf = true → Sys2Proof.encode i &&& (opRow i).mask = (opRow i).pattern

theorem lookup : Statement .lookup := fun _ => rfl

theorem encode (idx : Nat) : Statement (.encode idx) := by
  have key : ∀ n, n < 256 → Sys2Proof.encode (.encode n) &&& (opRow (.encode n)).mask = (opRow (.encode n)).pattern := by
    decide +kernel
  exact fun h => key idx (of_decide_eq_true h)

theorem decode (idx : Nat) : Statement (.decode idx) := by
  have key : ∀ n, n < 256 → Sys2Proof.encode (.decode n) &&& (opRow (.decode n)).mask = (opRow (.decode n)).pattern := by
    decide +kernel
  exact fun h => key idx (of_decide_eq_true h)

theorem packbits (n : Nat) : Statement (.packbits n) := by
  have key : ∀ m, m < 17 →
      Sys2Proof.encode (.packbits m) &&& (opRow (.packbits m)).mask = (opRow (.packbits m)).pattern := by
    decide +kernel
  intro h
  obtain ⟨_, h2⟩ := Bool.and_eq_true_iff.mp h
  exact key n (Nat.lt_succ_of_le (of_decide_eq_true h2))

theorem truncf (k : Nat) : Statement (.truncf k) := by
  have key : ∀ m, m < 5 → Sys2Proof.encode (.truncf m) &&& (opRow (.truncf m)).mask = (opRow (.truncf m)).pattern := by
    decide +kernel
  intro h
  obtain ⟨_, h2⟩ := Bool.and_eq_true_iff.mp h
  exact key k (Nat.lt_succ_of_le (of_decide_eq_true h2))

end Sys2Proof.Laws.WordMatchesRow
end

