-- ==== Sys2Proof/Tests/Slice0.lean ====
section
/-! SUPPORT. The model's own tests: the ill-formed terms and catalogs each check refuses, command words written out from
30_encoding.md, at most two steps per command with the results of 95_test_vectors.md, and for each obligation a state
and operands that meet its hypotheses. -/

namespace Sys2Proof.Tests

open Sys2Proof.Machine Sys2Proof.Safety

set_option Elab.async false

/-- The fixture catalog FX of 95_test_vectors.md section 2. -/
def fx : Catalog := [
  ⟨0x100, false, "SLOPE_UI", 8, [
    ⟨"s_u", .f32, 0, 32, 0x3ff0000000000000, 0xc024000000000000, 0x4024000000000000, ""⟩,
    ⟨"s_i", .f32, 32, 32, 0x3ff0000000000000, 0xc024000000000000, 0x4024000000000000, ""⟩], 0⟩,
  ⟨0x110, false, "OPLIM_U", 4, [
    ⟨"op_lim_u_mx", .uint, 0, 16, 0x4024000000000000, 0x0, 0x408f400000000000, ""⟩,
    ⟨"op_lim_u_mn", .uint, 16, 16, 0x4024000000000000, 0x0, 0x408f400000000000, ""⟩], 0⟩,
  ⟨0x18ff1234, true, "CTRL_REG", 8, [
    ⟨"ref", .f32, 0, 32, 0x3ff0000000000000, 0xc08f400000000000, 0x408f400000000000, ""⟩,
    ⟨"op_state", .bits, 32, 3, 0x0, 0x0, 0x7, ""⟩,
    ⟨"ctrl_mode", .bits, 35, 3, 0x0, 0x0, 0x5, ""⟩,
    ⟨"rst_q", .bits, 38, 1, 0x0, 0x0, 0x1, ""⟩,
    ⟨"rst_e", .bits, 39, 1, 0x0, 0x0, 0x1, ""⟩,
    ⟨"res", .trunc, 40, 24, 0x3ff0000000000000, 0x0, 0x412e848000000000, ""⟩], 0⟩,
  ⟨0x130, false, "SINT_MIX", 7, [
    ⟨"a", .sint, 0, 8, 0x3ff0000000000000, 0xc060000000000000, 0x405fc00000000000, ""⟩,
    ⟨"b", .sint, 8, 16, 0x4059000000000000, 0xc072c00000000000, 0x4072c00000000000, ""⟩,
    ⟨"c", .sint, 24, 32, 0x3fe0000000000000, 0xc1cdcd6500000000, 0x41cdcd6500000000, ""⟩], 0⟩,
  ⟨0x140, false, "CLEARANCE", 0, [], 0⟩,
  ⟨0x150, false, "XBITS", 2, [
    ⟨"a", .bits, 0, 5, 0x0, 0x0, 0x1f, ""⟩,
    ⟨"b", .bits, 5, 7, 0x0, 0x0, 0x7f, ""⟩,
    ⟨"c", .bits, 12, 4, 0x0, 0x0, 0xf, ""⟩], 0⟩,
  ⟨0x7ff, false, "WIDE", 8, [
    ⟨"n", .uint, 0, 64, 0x3ff0000000000000, 0x0, 0x4340000000000000, ""⟩], 0⟩,
  ⟨0x1fffffff, true, "NEGSCALE", 2, [
    ⟨"t", .sint, 0, 16, 0xc010000000000000, 0xc059000000000000, 0x4059000000000000, ""⟩], 0⟩]

def onNext (r : Result) (p : State → Bool) : Bool :=
  match r with
  | .next t => p t
  | .fault _ => false
  | .refused _ => false

def refusedWith (r : Result) (e : Refusal) : Bool :=
  match r with
  | .next _ => false
  | .fault _ => false
  | .refused e' => decide (e' = e)

def loadV (vals : List Word) (i : Nat) (v : Vector Word 16) : Vector Word 16 :=
  match vals with
  | [] => v
  | x :: rest => loadV rest (i + 1) (v.setIfInBounds i x)

/-- The state after reset under FX with V[0], V[1], ... holding these values. -/
def fxState (vals : List Word) : State := { State.afterReset fx with v := loadV vals 0 (Vector.replicate 16 0) }

/-- `fxState` with a payload and its length. -/
def fxPayload (plen : BitVec 4) (payload : Word) : State := { fxState [] with plen := plen, payload := payload }

/-- `fxState` with width bytes and values for PACKBITS. -/
def fxWidths (widlo : Word) (vals : List Word) : State := { fxState vals with widlo := widlo }

/-- A property of every field with its index, checked over the list. -/
theorem forall_indexed {α : Type} (l : List α) (P : Nat → α → Bool) (h : l.zipIdx.all (fun q => P q.2 q.1) = true)
    (i : Nat) (x : α) (hx : l[i]? = some x) : P i x = true := by
  rw [List.all_eq_true] at h
  exact h (x, i) (List.mem_zipIdx_iff_getElem?.mpr hx)

-- ## Ill-formed terms, each refused by its check

theorem test_idx_256_refused : (Instr.encode 256).wf = false ∧ (Instr.decode 256).wf = false := by decide

theorem test_packbits_0_and_17_refused : (Instr.packbits 0).wf = false ∧ (Instr.packbits 17).wf = false := by decide

theorem test_truncf_0_and_5_refused : (Instr.truncf 0).wf = false ∧ (Instr.truncf 5).wf = false := by decide

def goodField : FieldSpec := ⟨"a", .uint, 0, 16, 0x3FF0000000000000, 0, 0x4059000000000000, ""⟩

def goodBits : FieldSpec := ⟨"b", .bits, 16, 4, 0, 0, 9, ""⟩

def goodDef : Definition := ⟨0x100, false, "M", 4, [goodField, goodBits], 0⟩

/-- The catalog of one definition with these fields. -/
def withFields (fs : List FieldSpec) : Catalog := [{ goodDef with fields := fs }]

theorem test_good_catalog : wellFormed [goodDef] = true ∧ wellFormed [] = true := by decide +kernel

theorem test_fx_well_formed : wellFormed fx = true := by decide +kernel

theorem test_nMsg_refused : firstFault (List.replicate 257 goodDef) = some ⟨.nMsg, 256, none⟩ := by decide +kernel

theorem test_wf1_refused : firstFault [goodDef, { goodDef with name := "N" }] = some ⟨.wf1, 1, none⟩ := by
  decide +kernel

theorem test_wf2_refused :
    firstFault [{ goodDef with id := 2048 }] = some ⟨.wf2, 0, none⟩ ∧
    firstFault [{ goodDef with id := 536870912, ext := true }] = some ⟨.wf2, 0, none⟩ := by decide +kernel

theorem test_wf3_refused : firstFault [{ goodDef with length := 9 }] = some ⟨.wf3, 0, none⟩ := by decide +kernel

theorem test_wf4_refused : firstFault (withFields (List.replicate 17 goodField)) = some ⟨.wf4, 0, none⟩ := by
  decide +kernel

theorem test_wf5_refused : firstFault (withFields [{ goodField with w := 12 }]) = some ⟨.wf5, 0, some 0⟩ := by
  decide +kernel

theorem test_wf6_refused : firstFault (withFields [goodBits, { goodField with off := 4 }]) = some ⟨.wf6, 0, some 1⟩ := by
  decide +kernel

theorem test_wf7_refused : firstFault (withFields [{ goodField with off := 24 }]) = some ⟨.wf7, 0, some 0⟩ := by
  decide +kernel

theorem test_wf8_refused : firstFault (withFields [goodField, { goodBits with off := 15 }]) = some ⟨.wf8, 0, some 1⟩ := by
  decide +kernel

theorem test_wf9_refused :
    firstFault (withFields [goodBits, { goodBits with name := "c", off := 21 }]) = some ⟨.wf9, 0, some 1⟩ := by
  decide +kernel

theorem test_wf10_refused :
    firstFault (withFields [{ goodField with scale := 0x8000000000000000 }]) = some ⟨.wf10, 0, some 0⟩ := by
  decide +kernel

theorem test_wf11_refused :
    firstFault (withFields [{ goodField with max := 0x7FF0000000000000 }]) = some ⟨.wf11, 0, some 0⟩ ∧
    firstFault (withFields [{ goodBits with min := 10 }]) = some ⟨.wf11, 0, some 0⟩ := by decide +kernel

theorem test_wf12_refused :
    firstFault (withFields [goodField, { goodBits with name := "a" }]) = some ⟨.wf12, 0, some 1⟩ ∧
    firstFault [goodDef, { goodDef with id := 1 }] = some ⟨.wf12, 1, none⟩ := by decide +kernel

theorem test_wf13_refused :
    firstFault (withFields [{ goodField with min := 0xBFF0000000000000 }]) = some ⟨.wf13, 0, some 0⟩ ∧
    firstFault (withFields [{ goodBits with max := 16 }]) = some ⟨.wf13, 0, some 0⟩ := by decide +kernel

-- ## Command words, bit by bit from 30_encoding.md R80 and R81

/-- RSV 0, IDX 0, ARG 0, OP 0x01. -/
theorem test_word_lookup : Sys2Proof.decode (0#40 ++ 0b00000000#8 ++ 0b00000000#8 ++ 0b00000001#8) = .ok .lookup := by
  decide

/-- RSV 0, IDX 255, ARG 0, OP 0x02. -/
theorem test_word_encode :
    Sys2Proof.decode (0#40 ++ 0b11111111#8 ++ 0b00000000#8 ++ 0b00000010#8) = .ok (.encode 255) := by decide

/-- RSV 0, IDX 3, ARG 0, OP 0x03. -/
theorem test_word_decode :
    Sys2Proof.decode (0#40 ++ 0b00000011#8 ++ 0b00000000#8 ++ 0b00000011#8) = .ok (.decode 3) := by decide

/-- RSV 0, IDX 0, ARG 16, OP 0x04. -/
theorem test_word_packbits :
    Sys2Proof.decode (0#40 ++ 0b00000000#8 ++ 0b00010000#8 ++ 0b00000100#8) = .ok (.packbits 16) := by decide

/-- RSV 0, IDX 0, ARG 4, OP 0x05. -/
theorem test_word_truncf :
    Sys2Proof.decode (0#40 ++ 0b00000000#8 ++ 0b00000100#8 ++ 0b00000101#8) = .ok (.truncf 4) := by decide

/-- Vectors I-1 to I-14 of 95_test_vectors.md. -/
theorem test_illegal_words :
    [0x0, 0x6, 0xFF, 0x1000002, 0x8000000000000001, 0x102, 0x10001, 0x101, 0x10305, 0x4, 0x1104, 0x5, 0x505,
      0x1080002].all (fun v : Word => decide (∀ i ∈ [Sys2Proof.decode v], i.toOption = none)) = true := by decide +kernel

theorem test_table_words :
    decodeTableWord 64 0x20002 = some (.encode 2) ∧ decodeTableWord 64 0 = none ∧
    onNext (step (State.reset.withFetchWord 64 0x405)) (fun t => t.status == 0 && t.acc == 0) = true := by decide +kernel

-- ## At most two steps per command, with the results of 95_test_vectors.md

/-- Vector L-3. -/
theorem test_lookup_finds :
    onNext (exec .lookup { fxState [] with qid := 0x18FF1234 }) (fun t => t.midx == 2 && t.status == 0) = true := by
  decide +kernel

/-- Vector L-4. -/
theorem test_lookup_unknown :
    onNext (exec .lookup { fxState [] with qid := 0x111, midx := 5 }) (fun t => t.midx == 5 && t.status == 1) = true := by
  decide +kernel

def e2a : List Word := [0x406CC00000000000, 1, 2, 0, 1, 0x40934A456D5CFAAD]

/-- Vector E-2a. -/
theorem test_encode_control_register :
    onNext (exec (.encode 2) (fxState e2a)) (fun t =>
      t.payload == 0x449A529143660000 && t.plen == 8 && t.frame == 0x838FF1234 && t.status == 0) = true := by
  decide +kernel

/-- Vector E-3a: ties, rounding and two's complement at three widths. -/
theorem test_encode_signed :
    onNext (exec (.encode 3) (fxState [0xBFF0000000000000, 0xC002C28F5C28F5C3, 0xC00C000000000000]))
      (fun t => t.payload == 0x00FFFFFFFEFF15FF && t.plen == 7) = true := by decide +kernel

/-- Vector D-3b: the least value of each width, and no range check. -/
theorem test_decode_signed :
    onNext (exec (.decode 3) (fxPayload 7 0x0080000000800080)) (fun t =>
      t.vAt 0 == 0xC060000000000000 && t.vAt 1 == 0xC0747AE147AE147B && t.vAt 2 == 0xC1F0000000000000) = true := by
  decide +kernel

/-- Vector D-2a: TRUNC is lossy. -/
theorem test_decode_control_register :
    onNext (exec (.decode 2) (fxPayload 8 0x449A529143660000)) (fun t =>
      t.vAt 0 == 0x406CC00000000000 && t.vAt 4 == 1 && t.vAt 5 == 0x40934A4000000000) = true := by decide +kernel

/-- Vector P-2: a field across a byte boundary. -/
theorem test_packbits_crosses : onNext (exec (.packbits 3) (fxWidths 0x040705 [0x1F, 0x55, 9])) (fun t =>
    t.acc == 0x9ABF && t.status == 0) = true := by decide +kernel

/-- Vector P-9. -/
theorem test_packbits_overflow : onNext (exec (.packbits 2) (fxWidths 0x0303 [7, 8])) (fun t =>
    t.acc == 0 && t.status == 0x30104) = true := by decide +kernel

/-- Vector T-9. -/
theorem test_truncf_greatest : onNext (exec (.truncf 4) (fxState [0x47EFFFFFEFFFFFFF])) (fun t =>
    t.acc == 0x7F7FFFFF && t.status == 0) = true := by decide +kernel

/-- Vector T-8. -/
theorem test_truncf_overflow : onNext (exec (.truncf 3) (fxState [0x47EFFFFFF0000000])) (fun t =>
    t.acc == 0 && t.status == 0x1000002) = true := by decide +kernel

/-- `wrf V5, 1234.5678` of program P1, and the operand of vector E-1a. -/
theorem test_decimals :
    Decimal.toBinary64 ⟨false, 12345678, 0, 4⟩ = 0x40934A456D5CFAAD ∧
    Decimal.toBinary64 ⟨true, 275, 0, 2⟩ = 0xC006000000000000 := by decide +kernel

-- ## For each obligation with hypotheses, states and operands that meet them
-- The states are built on FX, which `test_fx_well_formed` shows well-formed; `fx_at` gives two of its definitions.

/-- What a next state satisfies, as the statements put it. -/
theorem next_of_onNext {r : Result} {p : State → Bool} (h : onNext r p = true) : ∃ t, r = .next t ∧ p t = true := by
  cases r with
  | next t => exact ⟨t, rfl, h⟩
  | fault _ => cases h
  | refused _ => cases h

/-- `fxState` with what the host does next. -/
def fxHost (ops : List HostOp) : State := { fxState [] with host := ops }

def succeeds (r : Result) : Bool := onNext r fun t => t.status == 0

def failsWith (code : Nat) (r : Result) : Bool := onNext r fun t => statusCode t.status == code

def ctrlReg : Definition := fx.getD 2 goodDef

def xbits : Definition := fx.getD 5 goodDef

theorem fx_at : fx[2]? = some ctrlReg ∧ fx[5]? = some xbits ∧ ctrlReg ∈ fx := by decide +kernel

theorem witness_DecodeInvertsEncode :
    [Instr.lookup, .encode 0, .encode 255, .decode 0, .decode 255, .packbits 1, .packbits 16, .truncf 1, .truncf 4].all
      Instr.wf = true ∧ Sys2Proof.decode 0xFF0003 = .ok (.decode 255) := by decide

theorem witness_DecodeSelectsTheRowOfTheWord :
    Sys2Proof.decode 0x104 = .ok (.packbits 1) ∧ Sys2Proof.decode 0x1004 = .ok (.packbits 16) ∧
    Sys2Proof.decode 0x1104 = .error .countOutOfRange ∧ Sys2Proof.decode 0x105 = .ok (.truncf 1) ∧
    Sys2Proof.decode 0x405 = .ok (.truncf 4) ∧ Sys2Proof.decode 0x505 = .error .countOutOfRange ∧
    Sys2Proof.decode 0x2 = .ok (.encode 0) ∧ Sys2Proof.decode 0x3 = .ok (.decode 0) := by decide

/-- One word for each way to be illegal, the least of its range. -/
theorem witness_IllegalWordsOnlyRaiseIllegalCommand :
    ([0x0, 0x6, 0x1000002, 0x101, 0x10001, 0x102, 0x103, 0x10104, 0x4, 0x1104, 0x10105, 0x5, 0x505].all fun v : Word =>
      decide (v.extractLsb' 0 8 = 0x00 ∨ 0x06 ≤ (v.extractLsb' 0 8).toNat ∨ v.extractLsb' 24 40 ≠ 0 ∨
        (v.extractLsb' 0 8 = 0x01 ∧ ((v.extractLsb' 8 8).toNat ≠ 0 ∨ v.extractLsb' 16 8 ≠ 0)) ∨
        ((v.extractLsb' 0 8 = 0x02 ∨ v.extractLsb' 0 8 = 0x03) ∧ (v.extractLsb' 8 8).toNat ≠ 0) ∨
        (v.extractLsb' 0 8 = 0x04 ∧
          (v.extractLsb' 16 8 ≠ 0 ∨ (v.extractLsb' 8 8).toNat = 0 ∨ 16 < (v.extractLsb' 8 8).toNat)) ∨
        (v.extractLsb' 0 8 = 0x05 ∧
          (v.extractLsb' 16 8 ≠ 0 ∨ (v.extractLsb' 8 8).toNat = 0 ∨ 4 < (v.extractLsb' 8 8).toNat))) &&
      onNext (step (fxHost [.write 0x000 64 v])) (fun t => t.status == 5)) = true ∧
    wellFormed (fxHost [.write 0x000 64 0]).catalog = true := by decide +kernel

theorem witness_StepRunsTheDecodedCommand :
    wellFormed (fxHost [.write 0x000 64 0x20002]).catalog = true ∧
    (fxHost [.write 0x000 64 0x20002]).host = [.write 0x000 64 0x20002] ∧
    Sys2Proof.decode 0x20002 = .ok (.encode 2) ∧ decodeTableWord 64 0x20002 = some (.encode 2) := by decide +kernel

theorem witness_LookupFindsTheDefinition :
    wellFormed fx = true ∧ fx[2]? = some ctrlReg ∧
    ctrlReg.id = ({ fxState [] with qid := 0x18FF1234 } : State).qid.toNat ∧
    fx.all (fun d => decide (d.id ≠ ({ fxState [] with qid := 0x111 } : State).qid.toNat)) = true := by decide +kernel

theorem witness_UnknownIndexRaisesUnknownMessage :
    (fxState []).catalog.length ≤ 8 ∧ failsWith 1 (exec (.encode 8) (fxState [])) = true ∧
    failsWith 1 (exec (.decode 8) (fxState [])) = true := by decide +kernel

/-- The raw forms of vector E-2a. -/
def e2aRaw (j : Nat) : Word := [0x43660000, 1, 2, 0, 1, 0x449A52].getD j 0

theorem witness_EncodePlacesEveryField :
    wellFormed (fxState e2a).catalog = true ∧ (fxState e2a).catalog[2]? = some ctrlReg ∧
    fieldsConvert (fxState e2a) ctrlReg e2aRaw := by
  refine ⟨by decide +kernel, by decide +kernel, fun j f h => ?_⟩
  simpa using forall_indexed ctrlReg.fields (fun j f => inRange f ((fxState e2a).vAt j) &&
    decide (rawConv (drawAt (fxState e2a).nanDraws j) f ((fxState e2a).vAt j) = some (e2aRaw j))) (by decide +kernel) j f h

/-- The first five values of vector E-2a, and a resistance above its range. -/
def e2aHigh : List Word := e2a.take 5 ++ [0x7FEFFFFFFFFFFFFF]

theorem witness_EncodeReportsFirstFailingField_range :
    ctrlReg.fields[5]? = some (ctrlReg.fields.getD 5 goodField) ∧
    (∀ (j : Nat) (g : FieldSpec), j < 5 → ctrlReg.fields[j]? = some g → inRange g ((fxState e2aHigh).vAt j) = true ∧
      (rawConv (drawAt (fxState e2aHigh).nanDraws j) g ((fxState e2aHigh).vAt j)).isSome = true) ∧
    inRange (ctrlReg.fields.getD 5 goodField) ((fxState e2aHigh).vAt 5) = false := by
  refine ⟨by decide +kernel, fun j g hj h => ?_, by decide +kernel⟩
  have := forall_indexed ctrlReg.fields (fun j f => decide (5 ≤ j) || (inRange f ((fxState e2aHigh).vAt j) &&
    (rawConv (drawAt (fxState e2aHigh).nanDraws j) f ((fxState e2aHigh).vAt j)).isSome)) (by decide +kernel) j g h
  simpa [Nat.not_le.mpr hj] using this

/-- A float field whose range passes what binary32 holds, and a bit field whose range passes its width: WF13 refuses
both, so such a catalog is not well-formed. -/
def wideF32 : FieldSpec := ⟨"x", .f32, 0, 32, 0x3FF0000000000000, 0, 0x7FE0000000000000, ""⟩

def wideBits : FieldSpec := ⟨"y", .bits, 0, 4, 0, 0, 20, ""⟩

theorem witness_EncodeReportsFirstFailingField_conversion :
    wideF32.kind ≠ .bits ∧ inRange wideF32 0x47EFFFFFF0000000 = true ∧ rawConv (drawAt 0 0) wideF32 0x47EFFFFFF0000000 = none ∧
    onNext (exec (.encode 0) { fxState [0x47EFFFFFF0000000] with catalog := withFields [wideF32] })
      (fun t => t.status == 0x1000002 && t.errmax == 0x7FE0000000000000) = true := by decide +kernel

theorem witness_EncodeReportsFirstFailingField_overflow :
    wideBits.kind = .bits ∧ inRange wideBits 16 = true ∧ wideBits.w < 64 ∧ 2 ^ wideBits.w ≤ (16 : Word).toNat ∧
    onNext (exec (.encode 0) { fxState [16] with catalog := withFields [wideBits] })
      (fun t => t.status == 0x0040004 && t.errmax == 0) = true := by decide +kernel

theorem witness_InRangeValuesAlwaysConvert :
    wellFormed fx = true ∧ ctrlReg ∈ fx ∧ ctrlReg.fields.getD 5 goodField ∈ ctrlReg.fields ∧
    inRange (ctrlReg.fields.getD 5 goodField) 0x412E848000000000 = true ∧
    ∃ t, exec (.encode 2) (fxState e2a) = .next t :=
  ⟨by decide +kernel, by decide +kernel, by decide +kernel, by decide +kernel,
    (next_of_onNext (p := fun _ => true) (by decide +kernel)).imp fun _ h => h.1⟩

theorem witness_EncodeSucceedsExactlyInRange :
    (∃ (i : Nat) (f : FieldSpec), ctrlReg.fields[i]? = some f ∧ inRange f ((fxState e2aHigh).vAt i) = false) ∧
    (∀ (i : Nat) (f : FieldSpec), ctrlReg.fields[i]? = some f → inRange f ((fxState e2a).vAt i) = true) :=
  ⟨⟨5, _, witness_EncodeReportsFirstFailingField_range.1, witness_EncodeReportsFirstFailingField_range.2.2⟩,
    fun i f h => (witness_EncodePlacesEveryField.2.2 i f h).1⟩

/-- ENCODE of the control register completes: the state the statements about a completed ENCODE speak of. -/
theorem encode_e2a : ∃ t, exec (.encode 2) (fxState e2a) = .next t ∧ t.status = 0 := by
  simpa using next_of_onNext (p := fun t => t.status == 0) (r := exec (.encode 2) (fxState e2a)) (by decide +kernel)

theorem witness_FrameHoldsIdExtAndDlc :
    (∃ t, exec (.encode 2) (fxState e2a) = .next t ∧ t.status = 0) ∧
    (∃ t, exec (.encode 2) (fxState e2aHigh) = .next t ∧ t.status ≠ 0) ∧ ∃ t, exec .lookup (fxState []) = .next t := by
  refine ⟨encode_e2a, ?_, (next_of_onNext (p := fun _ => true) (by decide +kernel)).imp fun _ h => h.1⟩
  simpa using next_of_onNext (p := fun t => t.status != 0) (r := exec (.encode 2) (fxState e2aHigh)) (by decide +kernel)

/-- The last of the three bytes of the TRUNC field, `j = 2`, is its top one. -/
theorem witness_EncodeIsLittleEndian :
    succeeds (exec (.encode 2) (fxState e2a)) = true ∧
    ctrlReg.fields[5]? = some (ctrlReg.fields.getD 5 goodField) ∧ (ctrlReg.fields.getD 5 goodField).kind ≠ .bits ∧
    rawConv (drawAt (fxState e2a).nanDraws 5) (ctrlReg.fields.getD 5 goodField) ((fxState e2a).vAt 5) = some 0x449A52 ∧
    8 * 2 < (ctrlReg.fields.getD 5 goodField).w := by decide +kernel

theorem witness_RunOfBitsIsPackBits :
    succeeds (exec (.encode 2) (fxState e2a)) = true ∧ 1 + 4 ≤ ctrlReg.fields.length ∧
    ((ctrlReg.fields.drop 1).take 4).all (fun f => decide (f.kind = .bits)) = true ∧
    ((xbits.fields.drop 0).take 3).all (fun f => decide (f.kind = .bits)) = true ∧ 0 + 3 ≤ xbits.fields.length := by
  decide +kernel

theorem witness_BitsFieldCrossesByteBoundary :
    wellFormed fx = true ∧ (fxState [0x1F, 0x55, 9]).catalog[5]? = some xbits ∧
    succeeds (exec (.encode 5) (fxState [0x1F, 0x55, 9])) = true ∧
    xbits.fields[1]? = some ⟨"b", .bits, 5, 7, 0x0, 0x0, 0x7f, ""⟩ ∧ 8 < 5 % 8 + 7 := by decide +kernel

theorem witness_ControlRegisterLayout :
    controlRegisterShape ctrlReg = true ∧ ctrlReg.fields[5]? = some (ctrlReg.fields.getD 5 goodField) ∧
    succeeds (exec (.encode 2) (fxState e2a)) = true := by decide +kernel

def int8 (k : Kind) : FieldSpec := ⟨"i", k, 0, 8, 0x3FF0000000000000, 0, 0, ""⟩

/-- The products -129, -128, 127 and 128 of a signed byte, -1, 0, 255 and 256 of an unsigned one, and one not finite. -/
theorem witness_IntegerRawConversion :
    rneInt (mul64 0 0xC060200000000000 (int8 .sint).scale) = -129 ∧
    rneInt (mul64 0 0xC060000000000000 (int8 .sint).scale) = -128 ∧
    rneInt (mul64 0 0x405FC00000000000 (int8 .sint).scale) = 127 ∧
    rneInt (mul64 0 0x4060000000000000 (int8 .sint).scale) = 128 ∧
    rneInt (mul64 0 0xBFF0000000000000 (int8 .uint).scale) = -1 ∧
    rneInt (mul64 0 0 (int8 .uint).scale) = 0 ∧
    rneInt (mul64 0 0x406FE00000000000 (int8 .uint).scale) = 255 ∧
    rneInt (mul64 0 0x4070000000000000 (int8 .uint).scale) = 256 ∧
    isFinite64 (mul64 0 0x7FF0000000000000 (int8 .uint).scale) = false := by decide +kernel

def floatField (k : Kind) (w : Nat) : FieldSpec := ⟨"x", k, 0, w, 0x3FF0000000000000, 0, 0, ""⟩

/-- The products of vectors T-8 and T-9, on the two sides of the bound, an infinite one and a NaN, for both kinds. -/
theorem witness_FloatRawConversion :
    ([floatField .f32 32, floatField .trunc 8, floatField .trunc 24].all fun f =>
      decide ((f.kind = .f32 ∧ f.w = 32) ∨ (f.kind = .trunc ∧ (f.w = 8 ∨ f.w = 16 ∨ f.w = 24 ∨ f.w = 32))) &&
      isInf64 (mul64 0 0xFFF0000000000000 f.scale) && isNaN64 (mul64 0x7FF8000000000000 0x7FF8000000000000 f.scale) &&
      decide (overflow32 ≤ (value64 (mul64 0 0x47EFFFFFF0000000 f.scale)).natAbs) &&
      isFinite64 (mul64 0 0x47EFFFFFEFFFFFFF f.scale) &&
      decide ((value64 (mul64 0 0x47EFFFFFEFFFFFFF f.scale)).natAbs < overflow32)) = true ∧
    isNaN32 0x7FC00000 = true ∧
    rawConv ⟨0, 0x7FC00000⟩ (floatField .f32 32) 0xFFF0000000000000 = none ∧
    rawConv ⟨0, 0x7FC00000⟩ (floatField .trunc 24) 0x47EFFFFFF0000000 = none ∧
    rawConv ⟨0, 0x7FC00000⟩ (floatField .trunc 24) 0x47EFFFFFEFFFFFFF = some 0x7F7FFF := by decide +kernel

theorem witness_RangeCheckComparesEngineeringValues :
    goodBits.kind = .bits ∧ goodField.kind ≠ .bits ∧ isNaN64 0x7FF8000000000000 = true ∧
    inRange goodBits 9 = true ∧ inRange goodBits 10 = false ∧
    inRange goodField 0x4059000000000000 = true ∧ inRange goodField 0x4059000000000001 = false := by decide +kernel

theorem witness_DecodeWritesEveryField :
    wellFormed (fxPayload 8 0x449A529143660000).catalog = true ∧
    (fxPayload 8 0x449A529143660000).catalog[2]? = some ctrlReg ∧
    (fxPayload 8 0x449A529143660000).plen.toNat = ctrlReg.length ∧ ctrlReg.fields.length ≤ 6 := by decide +kernel

theorem witness_DecodeChecksTheLength :
    (fxPayload 7 0).catalog[2]? = some ctrlReg ∧ (fxPayload 7 0).plen.toNat ≠ ctrlReg.length ∧
    wellFormed (fxPayload 9 0).catalog = true ∧ 9 ≤ (fxPayload 9 0).plen.toNat ∧ 9 ≤ (fxPayload 15 0).plen.toNat := by
  decide +kernel

/-- SINT_MIX covers bits 0 to 55, so the top byte may be any. -/
theorem witness_DecodeIgnoresUncoveredBits :
    succeeds (exec (.decode 3) (fxPayload 7 0x0080000000800080)) = true ∧
    (fx[3]?.toList.all fun d => d.fields.all fun f => (List.range f.w).all fun k =>
      (0x0080000000800080 : Word).getLsbD (f.off + k) == (0xFF80000000800080 : Word).getLsbD (f.off + k)) = true := by
  decide +kernel

theorem witness_OnlyNaNPatternsDecodeToNaN :
    succeeds (exec (.decode 0) (fxPayload 8 0x7F800000FFC00000)) = true ∧
    isNaN32 (BitVec.ofNat 32 ((0x7F800000FFC00000 : Word).toNat / 2 ^ 0 % 2 ^ 32)) = true ∧
    isNaN32 (BitVec.ofNat 32 ((0x7F800000FFC00000 : Word).toNat / 2 ^ 32 % 2 ^ 32)) = false ∧
    succeeds (exec (.decode 2) (fxPayload 8 0x7F80010000000000)) = true ∧
    succeeds (exec (.decode 3) (fxPayload 7 0)) = true := by decide +kernel

theorem witness_EncodeThenDecode :
    wellFormed (fxState e2a).catalog = true ∧ (fxState e2a).catalog[2]? = some ctrlReg ∧
    ∃ t, exec (.encode 2) (fxState e2a) = .next t ∧ t.status = 0 :=
  ⟨by decide +kernel, by decide +kernel, encode_e2a⟩

/-- A width of 0, a width of 65, and usable widths whose sum is 65. -/
theorem witness_PackbitsRejectsUnusableWidths :
    (fxWidths 0x0003 []).wid 1 = 0 ∧ (fxWidths 0x41 []).wid 0 = 65 ∧
    64 < ∑ i ∈ Finset.range 2, (fxWidths 0x0140 []).wid i ∧
    [exec (.packbits 2) (fxWidths 0x0003 []), exec (.packbits 1) (fxWidths 0x41 []),
      exec (.packbits 2) (fxWidths 0x0140 [])].all (failsWith 5) = true := by decide +kernel

/-- One field of 64 bits, and vector P-2. -/
theorem witness_PackbitsComposesByCumulativeOffset :
    ((fxWidths 0x40 [0xFFFFFFFFFFFFFFFF]).wid 0 = 64 ∧
      ((fxWidths 0x40 [0xFFFFFFFFFFFFFFFF]).vAt 0).toNat < 2 ^ (fxWidths 0x40 [0xFFFFFFFFFFFFFFFF]).wid 0) ∧
    (∀ i, i < 3 → 1 ≤ (fxWidths 0x040705 [0x1F, 0x55, 9]).wid i ∧ (fxWidths 0x040705 [0x1F, 0x55, 9]).wid i ≤ 64) ∧
    ∑ i ∈ Finset.range 3, (fxWidths 0x040705 [0x1F, 0x55, 9]).wid i ≤ 64 ∧
    (∀ i, i < 3 →
      ((fxWidths 0x040705 [0x1F, 0x55, 9]).vAt i).toNat < 2 ^ (fxWidths 0x040705 [0x1F, 0x55, 9]).wid i) := by
  decide +kernel

/-- Vector P-9: the second value is the least that does not fit. -/
theorem witness_PackbitsReportsFirstOverflow :
    (∀ j, j < 2 → 1 ≤ (fxWidths 0x0303 [7, 8]).wid j ∧ (fxWidths 0x0303 [7, 8]).wid j ≤ 64) ∧
    ∑ j ∈ Finset.range 2, (fxWidths 0x0303 [7, 8]).wid j ≤ 64 ∧
    (∀ j, j < 1 → ((fxWidths 0x0303 [7, 8]).vAt j).toNat < 2 ^ (fxWidths 0x0303 [7, 8]).wid j) ∧
    2 ^ (fxWidths 0x0303 [7, 8]).wid 1 ≤ ((fxWidths 0x0303 [7, 8]).vAt 1).toNat := by decide +kernel

/-- The two sides of the bound, an infinity and a NaN. -/
theorem witness_TruncfRoundsThenKeepsTopBytes :
    isFinite64 ((fxState [0x47EFFFFFF0000000]).vAt 0) = true ∧
    overflow32 ≤ (value64 ((fxState [0x47EFFFFFF0000000]).vAt 0)).natAbs ∧
    (value64 ((fxState [0x47EFFFFFEFFFFFFF]).vAt 0)).natAbs < overflow32 ∧
    isInf64 ((fxState [0xFFF0000000000000]).vAt 0) = true ∧ isNaN64 ((fxState [0x7FF0000000000001]).vAt 0) = true := by
  decide +kernel

theorem witness_TruncfIsTopOfFullEncoding :
    succeeds (exec (.truncf 4) (fxState [0x47EFFFFFEFFFFFFF])) = true ∧
    (fxState [0x47EFFFFFEFFFFFFF]).vAt 0 = (fxPayload 3 5 |>.setV (fxState [0x47EFFFFFEFFFFFFF]).v).vAt 0 ∧
    isNaN64 ((fxState [0x47EFFFFFEFFFFFFF]).vAt 0) = false := by decide +kernel

theorem witness_TruncationClearsLowBits :
    isFinite32 0x449A522B = true ∧ isNaN32 0x7F800001 = true ∧ mag32 0x7F800001 < inf32 + 2 ^ (32 - 8 * 3) := by
  decide +kernel

/-- 1 times 1, and the greatest finite value times 2. -/
theorem witness_MultiplicationRoundsOnce :
    isFinite64 0x3FF0000000000000 = true ∧
    (value64 0x3FF0000000000000 * value64 0x3FF0000000000000).natAbs < overflow64 * one64 ∧
    isFinite64 0x7FEFFFFFFFFFFFFF = true ∧ isFinite64 0x4000000000000000 = true ∧
    overflow64 * one64 ≤ (value64 0x7FEFFFFFFFFFFFFF * value64 0x4000000000000000).natAbs := by decide +kernel

/-- 1 by 2, and the greatest finite value by a half. -/
theorem witness_DivisionRoundsOnce :
    isFinite64 0x4000000000000000 = true ∧ isZero64 0x4000000000000000 = false ∧
    units64 0x3FF0000000000000 * one64 < overflow64 * units64 0x4000000000000000 ∧
    isFinite64 0x3FE0000000000000 = true ∧ isZero64 0x3FE0000000000000 = false ∧
    overflow64 * units64 0x3FE0000000000000 ≤ units64 0x7FEFFFFFFFFFFFFF * one64 := by decide +kernel

theorem witness_WideningIsExact :
    isNaN32 0x00000001 = false ∧ isFinite32 0x00000001 = true ∧ isNaN32 0xFF800000 = false ∧
    isInf32 0xFF800000 = true := by decide +kernel

theorem witness_IntegersConvertToNearest :
    (2 ^ 64 : Int).natAbs ≤ 2 ^ 64 ∧ (-2 ^ 53 : Int).natAbs ≤ 2 ^ 53 := by decide +kernel

theorem witness_RneIntIsNearestEven :
    isFinite64 0x4004000000000000 = true ∧
    2 * |value64 0x4004000000000000 - rneInt 0x4004000000000000 * (one64 : Int)| = (one64 : Int) := by decide +kernel

theorem witness_OrderIsThatOfTheValues :
    isNaN64 0x7FF0000000000001 = true ∧ isFinite64 0x8000000000000001 = true ∧ isFinite64 0x7FEFFFFFFFFFFFFF = true ∧
    isNaN64 0xFFF0000000000000 = false := by decide +kernel

theorem witness_NaNResultsAreTheDraw :
    isNaN64 0xFFF8000000000000 = true ∧ isNaN64 (mul64 0xFFF8000000000000 0x7FF0000000000000 0) = true ∧
    isNaN64 (div64 0xFFF8000000000000 0 0x8000000000000000) = true := by decide +kernel

theorem witness_IllFormedCatalogIsRefusedByName :
    wellFormed (withFields [{ goodField with w := 12 }]) = false ∧ wellFormed [goodDef] = true ∧
    WfCheck.inOrder = [.nMsg, .wf1, .wf2, .wf3, .wf4] ++ .wf5 :: [.wf6, .wf7, .wf8, .wf9, .wf10, .wf11, .wf12, .wf13] := by
  decide +kernel

theorem witness_FieldWidthsFitThePayload : wellFormed fx = true ∧ ctrlReg ∈ fx := by decide +kernel

theorem witness_CatalogNeverChanges : ∃ t, step (fxHost [.reset]) = .next t :=
  (next_of_onNext (p := fun _ => true) (by decide +kernel)).imp fun _ h => h.1

/-- The first and the last legal offset, the first one past the window, one between two registers, and 32 bits. -/
theorem witness_MalformedAccessIsRefused :
    wellFormed (fxHost [.read 0x000 64]).catalog = true ∧
    onNext (step (fxHost [.read 0x000 64])) (fun _ => true) = true ∧
    onNext (step (fxHost [.write 0x0F8 64 7])) (fun t => t.vAt 15 == 7) = true ∧
    refusedWith (step (fxHost [.read 0x100 64])) (.hostAccess 0x100 64) = true ∧
    refusedWith (step (fxHost [.write 0x004 64 1])) (.hostAccess 0x004 64) = true ∧
    refusedWith (step (fxHost [.read 0x008 32])) (.hostAccess 0x008 32) = true := by decide +kernel

/-- A write of each of the writable registers but V[0] to V[15], and of V[15] above. -/
theorem witness_HostAccessSideEffects :
    wellFormed (fxHost [.write 0x010 64 0xFFFFFFFFFFFFFFFF]).catalog = true ∧
    onNext (step (fxHost [.write 0x010 64 0xFFFFFFFFFFFFFFFF])) (fun t => t.qid == 0x1FFFFFFF) = true ∧
    onNext (step (fxHost [.write 0x020 64 0xFFFFFFFFFFFFFFFF])) (fun t => t.plen == 15) = true ∧
    onNext (step (fxHost [.write 0x028 64 9])) (fun t => t.payload == 9) = true ∧
    onNext (step (fxHost [.write 0x040 64 9])) (fun t => t.widlo == 9) = true ∧
    onNext (step (fxHost [.write 0x048 64 9])) (fun t => t.widhi == 9) = true ∧
    onNext (step (fxHost [.write 0x008 64 9])) (fun t => t == fxHost []) = true ∧
    onNext (step (fxHost [.read 0x018 64])) (fun t => t.answers == [0]) = true := by decide +kernel

theorem witness_StatusHoldsTheErrorRecord :
    ({ kind := .bitFieldOverflow, field := 255, width := 255, sub := 15 } : ErrorInfo).statusWord.toNat =
      4 + 2 ^ 8 * 255 + 2 ^ 16 * 255 + 2 ^ 24 * 15 := by decide +kernel

theorem witness_ErrorsLeaveEveryOtherRegister :
    failsWith 5 (performCommand 0 (fxState [])) = true ∧ (∀ idx, Sys2Proof.decode 0 ≠ .ok (.encode idx)) ∧
    failsWith 2 (performCommand 0x20002 (fxState e2aHigh)) = true ∧
    failsWith 1 (performCommand 0x80002 (fxState e2aHigh)) = true := by
  refine ⟨by decide +kernel, fun idx h => ?_, by decide +kernel, by decide +kernel⟩
  cases h

theorem witness_SuccessWritesOnlyTheListedRegisters :
    [exec .lookup { fxState [] with qid := 0x140 }, exec (.encode 2) (fxState e2a),
      exec (.decode 3) (fxPayload 7 0), exec (.packbits 1) (fxWidths 0x40 []),
      exec (.truncf 4) (fxState [])].all succeeds = true := by decide +kernel

/-- Two states that differ in what the command does not read. -/
theorem witness_CommandsDependOnlyOnWhatTheyRead :
    readsAgree .lookup (fxState e2a) (fxState []) ∧
    readsAgree (.decode 3) (fxState e2a) (fxState []) ∧
    readsAgree (.packbits 8) { fxWidths 0x40 [1] with widhi := 1 } (fxWidths 0x40 [1]) ∧
    readsAgree (.truncf 1) (fxPayload 1 1) (fxState []) ∧
    readsAgree (.encode 7) (fxState [1, 2]) (fxState [1, 3]) ∧
    fxState [1, 2] ≠ fxState [1, 3] := by
  refine ⟨⟨rfl, rfl, rfl⟩, ⟨rfl, rfl, rfl, rfl⟩, ⟨rfl, rfl, rfl, by decide, by decide +kernel⟩, ⟨rfl, rfl, rfl⟩,
    ⟨rfl, rfl, fun d hd j hj => ?_⟩, by decide +kernel⟩
  have hd : fx[7]? = some d := hd
  have h7 : fx[7]?.toList.all (fun d => decide (d.fields.length = 1)) = true := by decide +kernel
  rw [hd] at h7
  have h1 : d.fields.length = 1 := by simpa using h7
  obtain rfl : j = 0 := by omega
  rfl

/-- DECODE and TRUNCF ending in error, and completing without a NaN. -/
theorem witness_CommandsAreIdempotent :
    failsWith 3 (exec (.decode 3) (fxPayload 8 0)) = true ∧
    onNext (exec (.decode 3) (fxPayload 7 0)) (fun t =>
      t.status == 0 && (List.range 16).all fun j => !isNaN64 (t.vAt j)) = true ∧
    failsWith 2 (exec (.truncf 1) (fxState [0x47EFFFFFF0000000])) = true ∧
    succeeds (exec (.truncf 1) (fxState [1])) = true ∧ isNaN64 ((fxState [1]).vAt 0) = false ∧
    [exec .lookup (fxState []), exec (.encode 2) (fxState e2aHigh), exec (.packbits 16) (fxState [])].all
      (fun r => onNext r fun _ => true) = true := by decide +kernel

theorem witness_EveryCommandCompletes :
    wellFormed (fxHost [.read 0x0F8 64]).catalog = true ∧ (fxHost [.read 0x0F8 64]).host = [.read 0x0F8 64] ∧
    (∀ off bits, HostOp.read 0x0F8 64 = .read off bits → bits = 64 ∧ off % 8 = 0 ∧ off < 0x100) ∧
    (∀ off bits x, HostOp.read 0x0F8 64 = .write off bits x → bits = 64 ∧ off % 8 = 0 ∧ off < 0x100) ∧
    (fxHost []).host = [] := by
  refine ⟨by decide +kernel, rfl, fun off bits h => ?_, fun off bits x h => ?_, rfl⟩
  · cases h; decide
  · cases h

theorem witness_ResetValuesAreZero :
    wellFormed (fxHost [.reset]).catalog = true ∧ (fxHost [.reset]).host = [.reset] := by decide +kernel

/-- A catalog whose one field does not admit 0. -/
def aboveZero : Catalog := withFields [{ goodField with min := 0x3FF0000000000000 }]

theorem witness_CommandsStraightAfterReset :
    wellFormed fx = true ∧ fx[2]? = some ctrlReg ∧ ctrlReg.length ≠ 0 ∧
    ctrlReg.fields.all (fun f => inRange f 0) = true ∧ wellFormed aboveZero = true ∧
    aboveZero.all (fun d => d.fields.all fun f => !inRange f 0) = true ∧
    failsWith 2 (exec (.encode 0) (State.afterReset aboveZero)) = true := by decide +kernel

theorem witness_StepKeepsReadOnlyRegistersRegular :
    Inv (fxHost [.write 0x000 64 0x20002]) = true ∧ ∃ t, step (fxHost [.write 0x000 64 0x20002]) = .next t :=
  ⟨by decide +kernel, (next_of_onNext (p := fun _ => true) (by decide +kernel)).imp fun _ h => h.1⟩

theorem witness_AssembledStatements :
    assemble (.encode 255) = some [.write 0x000 64 0xFF0002] ∧ assemble (.encode 256) = none ∧
    assemble (.decode 255) = some [.write 0x000 64 0xFF0003] ∧ assemble (.decode 256) = none ∧
    assemble (.packbits 16) = some [.write 0x000 64 0x1004] ∧ assemble (.packbits 17) = none ∧
    assemble (.truncf 4) = some [.write 0x000 64 0x405] ∧ assemble (.truncf 5) = none ∧
    (∀ k, Reg.acc ≠ .reserved k) ∧ assemble (.rd .acc) = some [.read 0x038 64] ∧ assemble (.rd (.reserved 3)) = none ∧
    assemble (.wrf 5 ⟨true, 275, 0, 2⟩) = some [.write 0x0A8 64 0xC006000000000000] := by decide +kernel

/-- A decimal below the bound of binary64, and one beyond it. -/
theorem witness_AssembledStatements_decimal :
    12345678 * 10 ^ 0 * one64 < overflow64 * 10 ^ 4 ∧ overflow64 * 10 ^ 0 ≤ 1 * 10 ^ 309 * one64 ∧
    isInf64 (Decimal.toBinary64 ⟨false, 1, 309, 0⟩) = true := by decide +kernel

/-- Eight widths are one write, and a ninth makes it two; a ninth bit of a width carries, and a seventeenth width of 0
adds nothing. -/
theorem witness_SetwSetsTheWidths :
    assemble (.setw [1, 2, 3, 4, 5, 6, 7, 255]) = some [.write 0x040 64 0xFF07060504030201] ∧
    assemble (.setw [1, 2, 3, 4, 5, 6, 7, 8, 9]) =
      some [.write 0x040 64 0x0807060504030201, .write 0x048 64 0x9] ∧
    assemble (.setw [256]) = some [.write 0x040 64 0x100] ∧
    assemble (.setw (List.replicate 16 1 ++ [0])) =
      some [.write 0x040 64 0x0101010101010101, .write 0x048 64 0x0101010101010101] ∧
    (fxHost ([.write 0x040 64 0xFF07060504030201] ++ [])).host = [.write 0x040 64 0xFF07060504030201] ++ [] := by
  decide +kernel

theorem witness_ChkStopsTheHostOnError :
    wellFormed (fxHost [.check, .reset]).catalog = true ∧ (fxHost [.check, .reset]).host = .check :: [.reset] ∧
    statusCode (fxHost [.check, .reset]).status = 0 ∧
    statusCode ({ fxHost [.check, .reset] with status := 5 } : State).status ≠ 0 := by decide +kernel

end Sys2Proof.Tests
end

section
/-! SUPPORT. The proofs of the statements about the step that runs a command and about the numeric primitives of
00_scope.md. -/

namespace Sys2Proof.Scope

open Sys2Proof.Machine Sys2Proof.Safety

/-! ## The step and the host port -/

/-- A write of a command word is the host port's own access to CMD (10_state.md R20, R34). -/
theorem perform_write_cmd (v : Word) (s : State) : perform (.write 0x000 64 v) s = performCommand v s := rfl

theorem performCommand_of_decode {v : Word} {i : Instr} (h : Sys2Proof.decode v = .ok i) (s : State) :
    performCommand v s = exec i s := by
  simp [performCommand, h]

theorem performNext_cons {s : State} {op : HostOp} {rest : List HostOp} (h : s.host = op :: rest) :
    performNext s = perform op (s.setHost rest) := by
  simp [performNext, h]

theorem performNext_nil {s : State} (h : s.host = []) : performNext s = .next s := by
  simp [performNext, h]

theorem decodeTableWord_eq_some {nbits w : Nat} {i : Instr} (h : decodeTableWord nbits w = some i) :
    Sys2Proof.decode (BitVec.ofNat 64 (w % 2 ^ nbits)) = .ok i := by
  unfold decodeTableWord at h
  split at h
  · rename_i j hj; cases h; exact hj
  · cases h

theorem step_of_cmd_write {s : State} {rest : List HostOp} {v : Word} {i : Instr} (hwf : wellFormed s.catalog = true)
    (hhost : s.host = .write 0x000 64 v :: rest) (hdec : Sys2Proof.decode v = .ok i) :
    step s = exec i (s.setHost rest) := by
  rw [step_eq_performNext s hwf, performNext_cons hhost, perform_write_cmd, performCommand_of_decode hdec]

/-- Settles O5: the next access is the write of CMD, by either route. -/
theorem stepRunsTheDecodedCommand : Obligations.StepRunsTheDecodedCommand := by
  refine ⟨fun s rest v i hwf hhost hdec => step_of_cmd_write hwf hhost hdec, fun s nbits w i hwf hdec => ?_⟩
  exact step_of_cmd_write (s := s.withFetchWord nbits w) (rest := s.host) hwf rfl (decodeTableWord_eq_some hdec)

/-! ## Every command and every legal access completes -/

/-- No arm of `exec` faults or refuses. -/
theorem exec_total (i : Instr) (s : State) : ∃ t, exec i s = .next t := by
  cases i with
  | lookup =>
    simp only [exec, execLookup]
    split <;> exact ⟨_, rfl⟩
  | encode idx =>
    simp only [exec, execEncode, raiseEncode]
    repeat' split
    all_goals exact ⟨_, rfl⟩
  | decode idx =>
    simp only [exec, execDecode]
    repeat' split
    all_goals exact ⟨_, rfl⟩
  | packbits n =>
    simp only [exec, execPackbits]
    repeat' split
    all_goals exact ⟨_, rfl⟩
  | truncf k =>
    simp only [exec, execTruncf]
    split <;> exact ⟨_, rfl⟩

/-- Every command ends with STATUS = 0 or a raised error that is none of the reserved ones (60_exceptions.md R213). -/
theorem exec_status {i : Instr} {s t : State} (h : exec i s = .next t) :
    t.status = 0 ∨ ∃ e : ErrorInfo, t.status = e.statusWord ∧ e.kind.code ≤ 5 := by
  cases i with
  | lookup =>
    rcases execLookup_cases s t h with ⟨_, _, rfl⟩ | ⟨_, rfl⟩
    · exact .inl rfl
    · exact .inr ⟨_, rfl, by decide⟩
  | encode idx =>
    rcases execEncode_cases idx s t h with ⟨_, rfl⟩ | ⟨_, _, ⟨_, _, rfl⟩ | ⟨_, _, ⟨_, _, rfl⟩ | ⟨_, rfl⟩⟩⟩
    · exact .inr ⟨_, rfl, by decide⟩
    · exact .inl rfl
    · exact .inr ⟨_, rfl, (by decide : ErrorKind.fieldOutOfRange.code ≤ 5)⟩
    · exact .inr ⟨_, rfl, (by decide : ErrorKind.bitFieldOverflow.code ≤ 5)⟩
  | decode idx =>
    rcases execDecode_cases idx s t h with ⟨_, rfl⟩ | ⟨_, _, ⟨_, rfl⟩ | ⟨_, rfl⟩⟩
    · exact .inr ⟨_, rfl, by decide⟩
    · exact .inr ⟨_, rfl, by decide⟩
    · exact .inl rfl
  | packbits n =>
    rcases execPackbits_cases n s t h with ⟨_, rfl⟩ | ⟨_, ⟨_, _, rfl⟩ | ⟨_, _, rfl⟩⟩
    · exact .inr ⟨_, rfl, by decide⟩
    · exact .inl rfl
    · exact .inr ⟨_, rfl, (by decide : ErrorKind.bitFieldOverflow.code ≤ 5)⟩
  | truncf k =>
    rcases execTruncf_cases k s t h with ⟨_, rfl⟩ | ⟨_, _, rfl⟩
    · exact .inr ⟨_, rfl, by decide⟩
    · exact .inl rfl

theorem exec_statusCode_le {i : Instr} {s t : State} (h : exec i s = .next t) : statusCode t.status ≤ 5 := by
  rcases exec_status h with h0 | ⟨e, he, hle⟩
  · rw [h0]; decide
  · rwa [he, statusCode_statusWord]

/-- A CMD write of any word answers a next state, an illegal word by raising IllegalCommand. -/
theorem performCommand_completes (v : Word) (s : State) :
    ∃ t, performCommand v s = .next t ∧ statusCode t.status ≤ 5 := by
  cases hv : Sys2Proof.decode v with
  | ok i =>
    obtain ⟨t, ht⟩ := exec_total i s
    exact ⟨t, by rw [performCommand_of_decode hv, ht], exec_statusCode_le ht⟩
  | error e =>
    refine ⟨s.setStatus (ErrorInfo.statusWord { kind := .illegalCommand }), by simp [performCommand, hv], ?_⟩
    simp [statusCode_statusWord, ErrorKind.code]

theorem hostWrite_total (r : Reg) (x : Word) (s : State) : ∃ t, hostWrite r x s = .next t := by
  unfold hostWrite
  split
  · obtain ⟨t, ht, _⟩ := performCommand_completes x s
    exact ⟨t, ht⟩
  · exact ⟨_, rfl⟩

theorem exists_ofSlot : ∀ n < 32, ∃ r, Reg.ofSlot n = some r := by
  simp only [← Option.isSome_iff_exists]
  decide

/-- The window has a register at every access that 10_state.md R34 defines. -/
theorem exists_ofAccess {off bits : Nat} (h : bits = 64 ∧ off % 8 = 0 ∧ off < 0x100) :
    ∃ r, Reg.ofAccess off bits = some r := by
  obtain ⟨hbits, halign, hoff⟩ := h
  rw [Reg.ofAccess, if_pos ⟨hbits, halign⟩]
  exact exists_ofSlot _ (by omega)

theorem perform_total (op : HostOp) (s : State)
    (hread : ∀ off bits, op = .read off bits → bits = 64 ∧ off % 8 = 0 ∧ off < 0x100)
    (hwrite : ∀ off bits x, op = .write off bits x → bits = 64 ∧ off % 8 = 0 ∧ off < 0x100) :
    ∃ t, perform op s = .next t := by
  cases op with
  | reset => exact ⟨_, rfl⟩
  | check => exact ⟨_, rfl⟩
  | read off bits =>
    obtain ⟨r, hr⟩ := exists_ofAccess (hread off bits rfl)
    exact ⟨s.answer (regRead r s), by simp [perform, hr]⟩
  | write off bits x =>
    obtain ⟨r, hr⟩ := exists_ofAccess (hwrite off bits x rfl)
    obtain ⟨t, ht⟩ := hostWrite_total r x s
    exact ⟨t, by simp [perform, hr, ht]⟩

/-- Settles O52, by the totality of each command and of each access the window has. -/
theorem everyCommandCompletes : Obligations.EveryCommandCompletes := by
  refine ⟨performCommand_completes, fun s hwf hacc => ?_⟩
  rw [step_eq_performNext s hwf]
  cases hs : s.host with
  | nil => exact ⟨⟨s, performNext_nil hs⟩, fun _ => performNext_nil hs⟩
  | cons op rest =>
    obtain ⟨hread, hwrite⟩ := hacc op rest hs
    rw [performNext_cons hs]
    exact ⟨perform_total op _ hread hwrite, nofun⟩

end Sys2Proof.Scope
end

section
/-! SUPPORT. The proofs of the statements about the numeric primitives (00_scope.md R10, R11, R13). -/

namespace Sys2Proof.Scope

open Sys2Proof.Machine Sys2Proof.Safety

/-! ## A sign with a magnitude

Values, orders and roundings all have the form `± n`; the arithmetic of that form is said once. -/

/-- `n` with the sign `neg`. -/
def signed (neg : Bool) (n : Nat) : Int := if neg then -(n : Int) else n

theorem value64_eq (x : Word) : value64 x = signed x.msb (units64 x) := rfl

theorem value32_eq (x : Word32) : value32 x = signed x.msb (units32 x) := rfl

theorem order64_eq (x : Word) : order64 x = signed x.msb (mag64 x) := rfl

theorem rneInt_eq (x : Word) : rneInt x = signed x.msb (rneDiv (units64 x) one64) := rfl

@[simp] theorem natAbs_signed (s : Bool) (n : Nat) : (signed s n).natAbs = n := by
  cases s <;> simp [signed]

theorem signed_mul_signed (s t : Bool) (m n : Nat) : signed s m * signed t n = signed (s ^^ t) (m * n) := by
  cases s <;> cases t <;> simp [signed]

theorem signed_mul_natCast (s : Bool) (m n : Nat) : signed s m * (n : Int) = signed s (m * n) := by
  cases s <;> simp [signed]

theorem sign_signed (s : Bool) {n : Nat} (h : 0 < n) : (signed s n).sign = signed s 1 := by
  have hn : (n : Int).sign = 1 := Int.sign_eq_one_of_pos (by exact_mod_cast h)
  cases s <;> simp [signed, hn]

/-- Every integer is its magnitude with its sign. -/
theorem signed_natAbs (n : Int) : signed (decide (n < 0)) n.natAbs = n := by
  unfold signed
  split <;> rename_i h <;> rw [decide_eq_true_iff] at h <;> omega

theorem signed_even (s : Bool) {n : Nat} (h : n % 2 = 0) : signed s n % 2 = 0 := by
  unfold signed
  split <;> omega

/-- The distance of two magnitudes of one sign. -/
theorem abs_signed_sub (s : Bool) (m n : Nat) : |signed s m - signed s n| = |(m : Int) - n| := by
  cases s
  · rfl
  · change |-(m : Int) - -(n : Int)| = _
    rw [neg_sub_neg, abs_sub_comm]

/-- The distance of two magnitudes of opposite signs. -/
theorem abs_signed_sub_of_ne {s t : Bool} (h : s ≠ t) (m n : Nat) : |signed s m - signed t n| = (m : Int) + n := by
  cases s <;> cases t
  · exact absurd rfl h
  · change |(m : Int) - -(n : Int)| = _
    rw [sub_neg_eq_add, abs_of_nonneg (by positivity)]
  · change |-(m : Int) - (n : Int)| = _
    rw [← neg_add', abs_neg, abs_of_nonneg (by positivity)]
  · exact absurd rfl h

/-- The order of signed magnitudes is that of their units. -/
theorem signed_unitsOf_le_iff (fb : Nat) (s t : Bool) (m n : Nat) :
    signed s (unitsOf fb m) ≤ signed t (unitsOf fb n) ↔ signed s m ≤ signed t n := by
  have hmn := unitsOf_le_iff fb m n
  have hnm := unitsOf_le_iff fb n m
  have hm0 := unitsOf_le_iff fb m 0
  have hn0 := unitsOf_le_iff fb n 0
  rw [unitsOf_zero] at hm0 hn0
  cases s <;> cases t <;> simp only [signed, if_true, if_false, Bool.false_eq_true] <;> omega

/-! ## The encoding with a sign and a magnitude up to infinity -/

theorem inf64_lt : inf64 < 2 ^ 63 := by decide

theorem isFinite64_iff (x : Word) : isFinite64 x = true ↔ mag64 x < inf64 := decide_eq_true_iff

theorem isInf64_iff (x : Word) : isInf64 x = true ↔ mag64 x = inf64 := decide_eq_true_iff

theorem isZero64_iff (x : Word) : isZero64 x = true ↔ mag64 x = 0 := decide_eq_true_iff

theorem isNaN64_of_isFinite64 {x : Word} (h : isFinite64 x = true) : isNaN64 x = false := by
  rw [isFinite64_iff] at h
  exact decide_eq_false (by omega)

theorem isInf64_of_isFinite64 {x : Word} (h : isFinite64 x = true) : isInf64 x = false := by
  rw [isFinite64_iff] at h
  exact decide_eq_false (by omega)

theorem isNaN64_ofMag64 (s : Bool) {m : Nat} (h : m ≤ inf64) : isNaN64 (ofMag64 s m) = false := by
  rw [isNaN64, mag64_ofMag64 s m (h.trans_lt inf64_lt)]
  exact decide_eq_false (by omega)

theorem value64_ofMag64 (s : Bool) {m : Nat} (h : m ≤ inf64) : value64 (ofMag64 s m) = signed s (unitsOf frac64 m) := by
  have hm := h.trans_lt inf64_lt
  rw [value64_eq, units64, mag64_ofMag64 s m hm, msb_ofMag64 s m hm]

/-! ## Rounding to binary64 -/

theorem one64_eq : one64 = 2 ^ 1074 := by decide +kernel

theorem one64_pos : 0 < one64 := by decide +kernel

theorem roundFree_overflow64 : roundFree frac64 overflow64 1 = inf64 := by decide +kernel

/-- `overflow64` is the point halfway between the greatest finite value and the next of its exponent. -/
theorem two_mul_overflow64 : 2 * overflow64 = unitsOf frac64 (inf64 - 1) + unitsOf frac64 inf64 := by decide +kernel

/-- Rounding stays finite exactly below `overflow64`: from there on infinity's own magnitude is the nearest. -/
theorem roundFree_lt_inf64_iff {n d : Nat} (hd : 0 < d) : roundFree frac64 n d < inf64 ↔ n < overflow64 * d := by
  constructor
  · intro h
    by_contra hc
    have hmono : roundFree frac64 overflow64 1 ≤ roundFree frac64 n d := roundFree_mono (by decide) hd (by omega)
    rw [roundFree_overflow64] at hmono
    omega
  · intro h
    by_contra hc
    have hnear := roundFree_nearest frac64 n d (inf64 - 1) (by decide) hd
    have hle : unitsOf frac64 inf64 ≤ unitsOf frac64 (roundFree frac64 n d) := (unitsOf_le_iff _ _ _).mpr (by omega)
    have hlt : unitsOf frac64 (inf64 - 1) < unitsOf frac64 inf64 := (unitsOf_lt_iff _ _ _).mpr (by decide)
    have hmid := two_mul_overflow64
    generalize unitsOf frac64 (roundFree frac64 n d) = u at *
    generalize unitsOf frac64 (inf64 - 1) = v at *
    generalize unitsOf frac64 inf64 = w at *
    have h2n : 2 * n < v * d + u * d := by nlinarith
    have hvu : v * d < u * d := Nat.mul_lt_mul_of_pos_right (by omega) hd
    have hcloser : |(v : Int) * d - n| < |(u : Int) * d - n| := by
      zify at h2n hvu
      exact lt_of_lt_of_le (abs_lt.mpr ⟨by linarith, by linarith⟩) (le_abs_self _)
    rcases hnear with h1 | ⟨h1, _⟩
    · exact absurd hcloser h1.not_gt
    · exact absurd h1 hcloser.ne'

theorem roundUnits_of_lt {n d : Nat} (hd : 0 < d) (h : n < overflow64 * d) :
    roundUnits frac64 inf64 n d = roundFree frac64 n d := by
  rw [roundUnits_eq]
  exact min_eq_right ((roundFree_lt_inf64_iff hd).mpr h).le

theorem roundUnits_of_le {n d : Nat} (hd : 0 < d) (h : overflow64 * d ≤ n) : roundUnits frac64 inf64 n d = inf64 := by
  rw [roundUnits_eq]
  exact min_eq_left (not_lt.mp fun hlt => absurd ((roundFree_lt_inf64_iff hd).mp hlt) (by omega))

/-- What is a magnitude's number of units rounds to that magnitude. -/
theorem roundFree_of_unitsOf {fb n d m : Nat} (hfb : 1 ≤ fb) (hd : 0 < d) (h : unitsOf fb m * d = n) :
    roundFree fb n d = m := by
  have hzero : |(unitsOf fb m : Int) * d - n| = 0 := by rw [← h]; simp
  have hnear := roundFree_nearest fb n d m hfb hd
  rw [hzero] at hnear
  rcases hnear with hlt | ⟨heq, _⟩
  · exact absurd hlt (abs_nonneg _).not_gt
  · have hu : unitsOf fb (roundFree fb n d) * d = unitsOf fb m * d := by
      rw [h]; exact_mod_cast sub_eq_zero.mp (abs_eq_zero.mp heq)
    exact (unitsOf_inj fb _ _).mp (Nat.eq_of_mul_eq_mul_right hd hu)

/-- A number of at most `fb + 1` bits times a power of two is a magnitude's number of units. -/
theorem exists_unitsOf_eq (fb q e : Nat) (hq : q ≤ 2 ^ (fb + 1)) : ∃ m, unitsOf fb m = q * 2 ^ e := by
  induction e generalizing q with
  | zero => exact ⟨_, unitsOf_compose fb 0 q hq (.inl rfl)⟩
  | succ e ih =>
    by_cases hn : 2 ^ fb ≤ q
    · exact ⟨_, unitsOf_compose fb (e + 1) q hq (.inr hn)⟩
    · obtain ⟨m, hm⟩ := ih (2 * q) (by rw [Nat.pow_succ]; omega)
      exact ⟨m, by rw [hm]; ring⟩

theorem msb_ofMag64_roundUnits (s : Bool) (n d : Nat) : (ofMag64 s (roundUnits frac64 inf64 n d)).msb = s :=
  msb_ofMag64 s _ ((roundUnits_le_inf _ _ _ _).trans_lt inf64_lt)

theorem isInf64_ofMag64_roundUnits (s : Bool) {n d : Nat} (hd : 0 < d) (h : overflow64 * d ≤ n) :
    isInf64 (ofMag64 s (roundUnits frac64 inf64 n d)) = true := by
  rw [roundUnits_of_le hd h, isInf64_iff, mag64_ofMag64 s _ inf64_lt]

theorem isFinite64_ofMag64_roundUnits (s : Bool) {n d : Nat} (hd : 0 < d) (h : n < overflow64 * d) :
    isFinite64 (ofMag64 s (roundUnits frac64 inf64 n d)) = true := by
  have hlt := (roundFree_lt_inf64_iff hd).mpr h
  rwa [roundUnits_of_lt hd h, isFinite64_iff, mag64_ofMag64 s _ (hlt.trans inf64_lt)]

/-- `RoundsTo64` of a signed quotient: against a value of the other sign, the magnitude 0 is the one to compare with. -/
theorem roundsTo64_ofMag64_roundUnits (s : Bool) {n d : Nat} (hd : 0 < d) (h : n < overflow64 * d) :
    RoundsTo64 (ofMag64 s (roundUnits frac64 inf64 n d)) (signed s n) d := by
  have hlt := (roundFree_lt_inf64_iff hd).mpr h
  refine ⟨isFinite64_ofMag64_roundUnits s hd h, fun y _ => ?_⟩
  rw [roundUnits_of_lt hd h, value64_ofMag64 s hlt.le, mag64_ofMag64 s _ (hlt.trans inf64_lt), value64_eq y,
    signed_mul_natCast, signed_mul_natCast, abs_signed_sub, units64]
  by_cases hs : y.msb = s
  · rw [hs, abs_signed_sub]
    push_cast
    refine (roundFree_nearest frac64 n d (mag64 y) (by decide) hd).imp_right ?_
    exact fun ⟨hdist, htie⟩ => ⟨hdist, htie.imp_left fun hm => by rw [hm]⟩
  · have hnear := roundFree_nearest frac64 n d 0 (by decide) hd
    have hzero : |(unitsOf frac64 0 : Int) * d - n| = n := by simp
    rw [abs_signed_sub_of_ne hs]
    push_cast
    rw [hzero] at hnear
    have hy : (0 : Int) ≤ (unitsOf frac64 (mag64 y) : Int) * d := by positivity
    rcases hnear with hdist | ⟨hdist, htie⟩
    · exact .inl (by linarith)
    · rcases hy.lt_or_eq with hpos | h0
      · exact .inl (by linarith)
      · exact .inr ⟨by linarith, .inr (by rcases htie with h1 | h1 <;> omega)⟩

/-- A representable number of units is kept exactly. -/
theorem value64_ofMag64_roundUnits (s : Bool) {n m : Nat} (h : n < overflow64) (hm : unitsOf frac64 m = n) :
    value64 (ofMag64 s (roundUnits frac64 inf64 n 1)) = signed s n := by
  rw [← Nat.mul_one overflow64] at h
  have hlt := (roundFree_lt_inf64_iff (by decide)).mpr h
  have hr := roundFree_of_unitsOf (fb := frac64) (d := 1) (by decide) (by decide) ((Nat.mul_one _).trans hm)
  rw [roundUnits_of_lt (by decide) h, value64_ofMag64 s hlt.le, hr, hm]

/-! ## Products and quotients -/

theorem mul64_of_isFinite64 (nan : Word) {a b : Word} (ha : isFinite64 a = true) (hb : isFinite64 b = true) :
    mul64 nan a b = ofMag64 (a.msb ^^ b.msb) (roundUnits frac64 inf64 (units64 a * units64 b) one64) := by
  simp [mul64, isNaN64_of_isFinite64, isInf64_of_isFinite64, ha, hb]

theorem div64_of_isFinite64 (nan : Word) {a b : Word} (ha : isFinite64 a = true) (hb : isFinite64 b = true)
    (hz : isZero64 b = false) :
    div64 nan a b = ofMag64 (a.msb ^^ b.msb) (roundUnits frac64 inf64 (units64 a * one64) (units64 b)) := by
  simp [div64, isNaN64_of_isFinite64, isInf64_of_isFinite64, ha, hb, hz]

theorem units64_pos {x : Word} (h : isZero64 x = false) : 0 < units64 x := by
  have hm : mag64 x ≠ 0 := of_decide_eq_false h
  rw [units64, ← unitsOf_zero frac64, unitsOf_lt_iff]
  omega

/-- Settles O31: the exact product is a signed number of units over `one64`, rounded once. -/
theorem multiplicationRoundsOnce : Obligations.MultiplicationRoundsOnce := by
  intro nan a b ha hb
  rw [mul64_of_isFinite64 nan ha hb, value64_eq, value64_eq, signed_mul_signed, natAbs_signed]
  exact ⟨msb_ofMag64_roundUnits _ _ _, roundsTo64_ofMag64_roundUnits _ one64_pos,
    isInf64_ofMag64_roundUnits _ one64_pos⟩

/-- Settles O32: the exact quotient is a signed number of units over the divisor's, rounded once. -/
theorem divisionRoundsOnce : Obligations.DivisionRoundsOnce := by
  intro nan a b ha hb hz
  have hd := units64_pos hz
  rw [div64_of_isFinite64 nan ha hb hz, value64_eq, value64_eq, signed_mul_natCast, sign_signed _ hd,
    signed_mul_signed, Nat.mul_one]
  exact ⟨msb_ofMag64_roundUnits _ _ _, roundsTo64_ofMag64_roundUnits _ hd, isInf64_ofMag64_roundUnits _ hd⟩

/-! ## Conversions to binary64 -/

/-- The binary32 infinity's units lie far inside the range of binary64. -/
theorem unitsOf_inf32_mul_unitRatio_lt : unitsOf frac32 inf32 * unitRatio < overflow64 := by decide +kernel

theorem unitRatio_eq : unitRatio = 2 ^ 925 := by decide +kernel

theorem units32_mul_unitRatio_lt {b : Word32} (h : isFinite32 b = true) : units32 b * unitRatio < overflow64 := by
  have hm : mag32 b < inf32 := of_decide_eq_true h
  have hu : units32 b ≤ unitsOf frac32 inf32 := (unitsOf_le_iff _ _ _).mpr hm.le
  exact (Nat.mul_le_mul_right _ hu).trans_lt unitsOf_inf32_mul_unitRatio_lt

/-- The kept bits of a binary32 value, 24 at most, are kept by binary64 whatever the power of two. -/
theorem exists_unitsOf_eq_units32 (b : Word32) (k : Nat) : ∃ m, unitsOf frac64 m = units32 b * 2 ^ k := by
  obtain ⟨e, q, -, hq, -, hu⟩ := exists_compose frac32 (mag32 b)
  have hq' : q ≤ 2 ^ (frac64 + 1) := hq.le.trans (by decide)
  obtain ⟨m, hm⟩ := exists_unitsOf_eq frac64 q (e + k) hq'
  exact ⟨m, by rw [hm, units32, hu, Nat.pow_add, Nat.mul_assoc]⟩

/-- Settles O33: the rounding is of a value that binary64 has. -/
theorem wideningIsExact : Obligations.WideningIsExact := by
  intro nan b hnan
  by_cases hinf : isInf32 b = true
  · have hfin : ¬ isFinite32 b = true := by
      have hm : mag32 b = inf32 := of_decide_eq_true hinf
      simp [isFinite32, hm]
    have hc : cvt32to64 nan b = ofMag64 b.msb inf64 := by simp [cvt32to64, hnan, hinf]
    rw [hc, hinf, isInf64_iff]
    exact ⟨msb_ofMag64 _ _ inf64_lt, mag64_ofMag64 _ _ inf64_lt, fun h => absurd h hfin⟩
  · have hfin : isFinite32 b = true := by
      have hle : mag32 b ≤ inf32 := not_lt.mp (of_decide_eq_false hnan)
      exact decide_eq_true (lt_of_le_of_ne hle fun h => hinf (decide_eq_true h))
    have hlt := units32_mul_unitRatio_lt hfin
    have hc : cvt32to64 nan b = ofMag64 b.msb (roundUnits frac64 inf64 (units32 b * unitRatio) 1) := by
      simp [cvt32to64, hnan, hinf]
    have hfin64 := isFinite64_ofMag64_roundUnits b.msb (d := 1) (by decide) (by rwa [Nat.mul_one])
    obtain ⟨m, hm⟩ := exists_unitsOf_eq_units32 b 925
    rw [← unitRatio_eq] at hm
    rw [hc, isInf64_of_isFinite64 hfin64, value32_eq, signed_mul_natCast]
    exact ⟨msb_ofMag64_roundUnits _ _ _, (Bool.eq_false_of_not_eq_true hinf).symm,
      fun _ => ⟨hfin64, value64_ofMag64_roundUnits _ hlt hm⟩⟩

theorem two_pow_mul_one64_lt : 2 ^ 64 * one64 < overflow64 := by decide +kernel

/-- Settles O34: an integer is a signed whole number of ones, and one of at most 53 bits a binary64 value. -/
theorem integersConvertToNearest : Obligations.IntegersConvertToNearest := by
  intro n hn
  have hlt : n.natAbs * one64 < overflow64 := (Nat.mul_le_mul_right _ hn).trans_lt two_pow_mul_one64_lt
  have hval : n * (one64 : Int) = signed (decide (n < 0)) (n.natAbs * one64) := by
    rw [← signed_mul_natCast, signed_natAbs]
  rw [hval, cvtInt64]
  refine ⟨roundsTo64_ofMag64_roundUnits _ (by decide) (by rwa [Nat.mul_one]), msb_ofMag64_roundUnits _ _ _,
    fun h53 => ?_⟩
  obtain ⟨m, hm⟩ := exists_unitsOf_eq frac64 n.natAbs 1074 h53
  exact value64_ofMag64_roundUnits _ hlt (by rw [hm, one64_eq])

/-! ## Rounding to an integer -/

/-- `rneDiv` as a distance: at most half the divisor, and even at a tie. -/
theorem two_mul_abs_sub_rneDiv (n d : Nat) (hd : 0 < d) :
    2 * |(n : Int) - (rneDiv n d * d : Nat)| ≤ d ∧
      (2 * |(n : Int) - (rneDiv n d * d : Nat)| = d → rneDiv n d % 2 = 0) := by
  obtain ⟨hle, hge, htie⟩ := rneDiv_nearest n d hd
  generalize rneDiv n d * d = p at *
  rcases abs_cases ((n : Int) - p) with ⟨habs, _⟩ | ⟨habs, _⟩ <;> rw [habs]
  · exact ⟨by omega, fun h => htie (.inr (by omega))⟩
  · exact ⟨by omega, fun h => htie (.inl (by omega))⟩

/-- Settles O35, by the nearest quotient of the magnitude. -/
theorem rneIntIsNearestEven : Obligations.RneIntIsNearestEven := by
  refine ⟨fun x _ => ?_, by decide +kernel, by decide +kernel, by decide +kernel, by decide +kernel⟩
  obtain ⟨hle, htie⟩ := two_mul_abs_sub_rneDiv (units64 x) one64 one64_pos
  rw [value64_eq, rneInt_eq, signed_mul_natCast, abs_signed_sub]
  exact ⟨hle, fun h => signed_even _ (htie h)⟩

/-! ## The order -/

theorem le64_iff {a b : Word} (ha : isNaN64 a = false) (hb : isNaN64 b = false) :
    le64 a b = true ↔ order64 a ≤ order64 b := by
  simp [le64, ha, hb]

theorem le64_of_isNaN64 {a b : Word} (h : isNaN64 a = true ∨ isNaN64 b = true) : le64 a b = false := by
  rcases h with h | h <;> simp [le64, h]

theorem natAbs_order64 (x : Word) : (order64 x).natAbs = mag64 x := by rw [order64_eq, natAbs_signed]

theorem order64_negInf : order64 0xFFF0000000000000 = -(inf64 : Int) := by decide

theorem order64_posInf : order64 0x7FF0000000000000 = (inf64 : Int) := by decide

/-- Settles O36: magnitudes are ordered as their units, and every magnitude that is no NaN is at most infinity's. -/
theorem orderIsThatOfTheValues : Obligations.OrderIsThatOfTheValues := by
  have hneg : isNaN64 0xFFF0000000000000 = false := by decide
  have hpos : isNaN64 0x7FF0000000000000 = false := by decide
  intro a b
  refine ⟨le64_of_isNaN64, fun ha hb => ?_, fun ha => ?_, fun ha => ?_, by decide⟩
  · rw [le64_iff (isNaN64_of_isFinite64 ha) (isNaN64_of_isFinite64 hb), value64_eq, value64_eq]
    exact (signed_unitsOf_le_iff frac64 _ _ _ _).symm
  · have hm : mag64 a ≤ inf64 := not_lt.mp (of_decide_eq_false ha)
    have habs := natAbs_order64 a
    rw [le64_iff hneg ha, le64_iff ha hpos, order64_negInf, order64_posInf]
    omega
  · have hm := (isFinite64_iff a).mp ha
    have habs := natAbs_order64 a
    have hnan := isNaN64_of_isFinite64 ha
    rw [Bool.eq_false_iff, Bool.eq_false_iff, Ne, Ne, le64_iff hnan hneg, le64_iff hpos hnan, order64_negInf,
      order64_posInf]
    omega

/-! ## NaN results -/

/-- IEEE 754's invalid or propagated product. -/
def MulIsNaN (a b : Word) : Prop :=
  isNaN64 a = true ∨ isNaN64 b = true ∨ (isInf64 a = true ∧ isZero64 b = true) ∨
    (isZero64 a = true ∧ isInf64 b = true)

/-- IEEE 754's invalid or propagated quotient. -/
def DivIsNaN (a b : Word) : Prop :=
  isNaN64 a = true ∨ isNaN64 b = true ∨ (isInf64 a = true ∧ isInf64 b = true) ∨
    (isZero64 a = true ∧ isZero64 b = true)

theorem not_isZero64_of_isInf64 {x : Word} (h : isInf64 x = true) : ¬ isZero64 x = true := by
  rw [isInf64_iff] at h
  rw [isZero64_iff, h]
  decide

/-- A product is the draw, or a magnitude up to infinity with the sign of the signs. -/
theorem mul64_cases (nan a b : Word) :
    (MulIsNaN a b ∧ mul64 nan a b = nan) ∨
      (¬ MulIsNaN a b ∧ ∃ m ≤ inf64, mul64 nan a b = ofMag64 (a.msb ^^ b.msb) m) := by
  have ha := not_isZero64_of_isInf64 (x := a)
  have hb := not_isZero64_of_isInf64 (x := b)
  simp only [mul64, MulIsNaN, Bool.or_eq_true]
  split_ifs with hnan hinf hzero
  · exact .inl ⟨hnan.imp_right .inl, rfl⟩
  · refine .inl ⟨.inr (.inr ?_), rfl⟩
    rcases hinf with hia | hib
    · exact .inl ⟨hia, hzero.resolve_left (ha hia)⟩
    · exact .inr ⟨hzero.resolve_right (hb hib), hib⟩
  · exact .inr ⟨by tauto, _, le_rfl, rfl⟩
  · exact .inr ⟨by tauto, _, roundUnits_le_inf _ _ _ _, rfl⟩

/-- A quotient is the draw, or a magnitude up to infinity with the sign of the signs. -/
theorem div64_cases (nan a b : Word) :
    (DivIsNaN a b ∧ div64 nan a b = nan) ∨
      (¬ DivIsNaN a b ∧ ∃ m ≤ inf64, div64 nan a b = ofMag64 (a.msb ^^ b.msb) m) := by
  have ha := not_isZero64_of_isInf64 (x := a)
  have hb := not_isZero64_of_isInf64 (x := b)
  simp only [div64, DivIsNaN, Bool.or_eq_true]
  split_ifs with hnan hinfa hinfb hinfb hzb hza
  · exact .inl ⟨hnan.imp_right .inl, rfl⟩
  · exact .inl ⟨.inr (.inr (.inl ⟨hinfa, hinfb⟩)), rfl⟩
  · exact .inr ⟨by tauto, _, le_rfl, rfl⟩
  · exact .inr ⟨by tauto, _, Nat.zero_le _, rfl⟩
  · exact .inl ⟨.inr (.inr (.inr ⟨hza, hzb⟩)), rfl⟩
  · exact .inr ⟨by tauto, _, le_rfl, rfl⟩
  · exact .inr ⟨by tauto, _, roundUnits_le_inf _ _ _ _, rfl⟩

/-- A result that is the draw, a NaN, or else an encoding up to infinity is a NaN exactly where it is the draw. -/
theorem isNaN64_iff_of_cases {nan r : Word} {sign : Bool} {P : Prop} (hnan : isNaN64 nan = true)
    (h : (P ∧ r = nan) ∨ (¬ P ∧ ∃ m ≤ inf64, r = ofMag64 sign m)) :
    (isNaN64 r = true ↔ P) ∧ (isNaN64 r = true → r = nan) := by
  rcases h with ⟨hP, rfl⟩ | ⟨hP, m, hm, rfl⟩
  · exact ⟨⟨fun _ => hP, fun _ => hnan⟩, fun _ => rfl⟩
  · have hfalse := isNaN64_ofMag64 sign hm
    exact ⟨⟨fun h => absurd h (by simp [hfalse]), fun h => absurd h hP⟩, fun h => absurd h (by simp [hfalse])⟩

/-- Settles O37: each operation is the draw in IEEE 754's cases and an encoding up to infinity in all others. -/
theorem naNResultsAreTheDraw : Obligations.NaNResultsAreTheDraw := by
  intro nan a b hnan
  obtain ⟨hmul, hmulDraw⟩ := isNaN64_iff_of_cases hnan (mul64_cases nan a b)
  obtain ⟨hdiv, hdivDraw⟩ := isNaN64_iff_of_cases hnan (div64_cases nan a b)
  exact ⟨hmul, hmulDraw, hdiv, hdivDraw, fun _ _ => ⟨isNaN64_asNaN64 _, isNaN32_asNaN32 _⟩⟩

end Sys2Proof.Scope
end

section
/-! SUPPORT. STATUS and FRAME as numbers, and their fields (10_state.md R22, R27; 60_exceptions.md R210). -/

namespace Sys2Proof.Scope

open Sys2Proof.Machine Sys2Proof.Safety

/-! ## Words put together from fields -/

/-- A field placed above all bits of `x` adds to it as a number. -/
theorem toNat_or_shiftLeft {w n k : Nat} {x : BitVec w} (hx : x.toNat < 2 ^ k) (hn : n * 2 ^ k < 2 ^ w) :
    (x ||| BitVec.ofNat w n <<< k).toNat = x.toNat + 2 ^ k * n := by
  have hnw : n < 2 ^ w := (Nat.le_mul_of_pos_right n (Nat.two_pow_pos k)).trans_lt hn
  rw [BitVec.toNat_or, BitVec.toNat_shiftLeft, BitVec.toNat_ofNat, Nat.mod_eq_of_lt hnw, Nat.shiftLeft_eq,
    Nat.mod_eq_of_lt hn, Nat.or_comm, Nat.mul_comm n, ← Nat.two_pow_add_eq_or_of_lt hx, Nat.add_comm]

theorem or_reverse {w : Nat} (a b c d : BitVec w) : a ||| b ||| c ||| d = d ||| c ||| b ||| a := by ac_rfl

theorem statusWord_toNat {e : ErrorInfo} (hf : e.field < 256) (hw : e.width < 256) (hs : e.sub < 16) :
    e.statusWord.toNat = e.kind.code + 2 ^ 8 * e.field + 2 ^ 16 * e.width + 2 ^ 24 * e.sub := by
  have hc := e.kind.code_le
  have h0 : (BitVec.ofNat 28 e.kind.code).toNat = e.kind.code := Nat.mod_eq_of_lt (by omega)
  have h1 := toNat_or_shiftLeft (n := e.field) (k := 8) (x := BitVec.ofNat 28 e.kind.code) (by omega) (by omega)
  have h2 := toNat_or_shiftLeft (n := e.width) (k := 16) (x := _ ||| BitVec.ofNat 28 e.field <<< 8)
    (by rw [h1]; omega) (by omega)
  have h3 := toNat_or_shiftLeft (n := e.sub) (k := 24) (x := _ ||| BitVec.ofNat 28 e.width <<< 16)
    (by rw [h2, h1]; omega) (by omega)
  rw [ErrorInfo.statusWord, or_reverse, h3, h2, h1, h0]

section
variable {e : ErrorInfo} (hf : e.field < 256) (hw : e.width < 256) (hs : e.sub < 16)
include hf hw hs

theorem statusField_statusWord : statusField e.statusWord = e.field := by
  have := e.kind.code_le
  rw [statusField, BitVec.extractLsb'_toNat, statusWord_toNat hf hw hs, Nat.shiftRight_eq_div_pow]
  omega

theorem statusWidth_statusWord : statusWidth e.statusWord = e.width := by
  have := e.kind.code_le
  rw [statusWidth, BitVec.extractLsb'_toNat, statusWord_toNat hf hw hs, Nat.shiftRight_eq_div_pow]
  omega

theorem statusSub_statusWord : statusSub e.statusWord = e.sub := by
  have := e.kind.code_le
  rw [statusSub, BitVec.extractLsb'_toNat, statusWord_toNat hf hw hs, Nat.shiftRight_eq_div_pow]
  omega

end

/-! The two errors that record arguments leave STATUS in its shape (60_exceptions.md R210). -/

theorem statusRegular_fieldOutOfRange {j sub : Nat} (hj : j < 16) (hsub : sub ≤ 1) :
    statusRegular (ErrorInfo.statusWord { kind := .fieldOutOfRange, field := j, sub := sub }) = true := by
  have hf : j < 256 := by omega
  have hs : sub < 16 := by omega
  have h01 : sub = 0 ∨ sub = 1 := by omega
  simp [statusRegular, statusCode_statusWord, statusField_statusWord, statusWidth_statusWord, statusSub_statusWord,
    hf, hs, hj, h01, ErrorKind.code]

theorem statusRegular_bitFieldOverflow {j w : Nat} (hj : j < 16) (hw : w ≤ 64) :
    statusRegular (ErrorInfo.statusWord { kind := .bitFieldOverflow, field := j, width := w }) = true := by
  have hf : j < 256 := by omega
  have hw' : w < 256 := by omega
  simp [statusRegular, statusCode_statusWord, statusField_statusWord, statusWidth_statusWord, statusSub_statusWord,
    hf, hw', hj, hw, ErrorKind.code]

/-- FRAME of a definition as a number (10_state.md R27). -/
theorem frameOf_toNat {d : Definition} (hid : d.id < 2 ^ 29) (hlen : d.length < 16) :
    (frameOf d).toNat = d.id + 2 ^ 29 * d.ext.toNat + 2 ^ 32 * d.length := by
  have he := d.ext.toNat_le
  have h0 : (BitVec.ofNat 36 d.id).toNat = d.id := Nat.mod_eq_of_lt (by omega)
  have h1 := toNat_or_shiftLeft (n := d.ext.toNat) (k := 29) (x := BitVec.ofNat 36 d.id) (by omega) (by omega)
  have h2 := toNat_or_shiftLeft (n := d.length) (k := 32) (x := _ ||| BitVec.ofNat 36 d.ext.toNat <<< 29)
    (by rw [h1]; omega) (by omega)
  rw [frameOf, h2, h1, h0]

section
variable {d : Definition} (hid : d.id < 2 ^ 29) (hlen : d.length < 16)
include hid hlen

theorem frameOf_id : ((frameOf d).extractLsb' 0 29).toNat = d.id := by
  rw [BitVec.extractLsb'_toNat, frameOf_toNat hid hlen, Nat.shiftRight_eq_div_pow]
  omega

theorem frameOf_ext : (frameOf d).getLsbD 29 = d.ext := by
  have he := d.ext.toNat_le
  rw [← BitVec.testBit_toNat, frameOf_toNat hid hlen, Nat.testBit_eq_decide_div_mod_eq]
  cases h : d.ext <;> simp <;> omega

theorem frameOf_zero : (frameOf d).extractLsb' 30 2 = 0 := by
  have he := d.ext.toNat_le
  apply BitVec.eq_of_toNat_eq
  rw [BitVec.extractLsb'_toNat, frameOf_toNat hid hlen, Nat.shiftRight_eq_div_pow]
  simp; omega

theorem frameOf_dlc : ((frameOf d).extractLsb' 32 4).toNat = d.length := by
  have he := d.ext.toNat_le
  rw [BitVec.extractLsb'_toNat, frameOf_toNat hid hlen, Nat.shiftRight_eq_div_pow]
  omega

end

theorem wellFormed_standardId_lt {cat : Catalog} (hwf : wellFormed cat = true) {i : Nat} {d : Definition}
    (hd : cat[i]? = some d) (hext : d.ext = false) : d.id < 2 ^ 11 := by
  have := ((wellFormed_iff_passes cat).mp hwf .wf2 i d hd).1
  simpa [WfCheck.onDefinition, wf2, hext, Nat.shiftLeft_eq] using this

/-- The frame of a definition of a well-formed catalog has the shape of 10_state.md R27. -/
theorem frameRegular_frameOf {cat : Catalog} (hwf : wellFormed cat = true) {i : Nat} {d : Definition}
    (hd : cat[i]? = some d) : frameRegular (frameOf d) = true := by
  have hid := wellFormed_id_lt hwf hd
  have hlen := wellFormed_length_le hwf hd
  have hlen' : d.length < 16 := by omega
  rw [frameRegular, frameOf_zero hid hlen', frameOf_dlc hid hlen', frameOf_ext hid hlen', frameOf_id hid hlen']
  cases hext : d.ext with
  | true => simp [hlen]
  | false => simpa [hlen] using wellFormed_standardId_lt hwf hd hext

end Sys2Proof.Scope
end

section
/-! SUPPORT. The proofs of the statements about the register window and reset (10_state.md R20 to R34, R42). -/

namespace Sys2Proof.Scope

open Sys2Proof.Machine Sys2Proof.Safety

/-! ## The window of registers -/

theorem ofSlot_offset (r : Reg) : Reg.ofSlot (r.offset / 8) = some r := by
  cases r with
  | reserved k => revert k; decide
  | v i => revert i; decide
  | _ => rfl

theorem ofSlot_eq_none (n : Nat) : Reg.ofSlot (n + 32) = none := by
  simp [Reg.ofSlot]

theorem map_offset_ofSlot : ∀ n < 32, (Reg.ofSlot n).map Reg.offset = some (8 * n) := by decide

/-- A slot of the window names the register at its offset, and every register has a slot (10_state.md R20). -/
theorem ofSlot_eq_some_iff {n : Nat} {r : Reg} : Reg.ofSlot n = some r ↔ r.offset = 8 * n := by
  constructor
  · intro h
    have hn : n < 32 := by
      by_contra hge
      obtain ⟨m, rfl⟩ := Nat.exists_eq_add_of_le' (Nat.not_lt.mp hge)
      rw [ofSlot_eq_none] at h
      cases h
    simpa [h] using map_offset_ofSlot n hn
  · intro h
    rw [← ofSlot_offset r, h, Nat.mul_div_cancel_left n (by decide)]

theorem offset_bounds (r : Reg) : r.offset % 8 = 0 ∧ r.offset < 0x100 := by
  cases r with
  | reserved k => simp only [Reg.offset]; omega
  | v i => simp only [Reg.offset]; omega
  | _ => decide

theorem ofAccess_eq_some_iff {off bits : Nat} {r : Reg} :
    Reg.ofAccess off bits = some r ↔ bits = 64 ∧ off = r.offset := by
  have hr := offset_bounds r
  rw [Reg.ofAccess]
  split
  · rw [ofSlot_eq_some_iff]; omega
  · simp; omega

theorem ofAccess_eq_none_iff {off bits : Nat} :
    Reg.ofAccess off bits = none ↔ ¬ (bits = 64 ∧ off % 8 = 0 ∧ off < 0x100) := by
  constructor
  · intro h hacc
    obtain ⟨r, hr⟩ := exists_ofAccess hacc
    simp [h] at hr
  · intro h
    cases hr : Reg.ofAccess off bits with
    | none => rfl
    | some r =>
      obtain ⟨hbits, rfl⟩ := ofAccess_eq_some_iff.mp hr
      exact absurd ⟨hbits, offset_bounds r⟩ h

/-- Settles O42, by the correspondence of slots and offsets. -/
theorem offsetsNameTheRegisters : Obligations.OffsetsNameTheRegisters :=
  ⟨rfl, rfl, rfl, rfl, rfl, rfl, rfl, rfl, rfl, rfl, rfl, rfl, rfl, rfl, rfl, rfl,
    fun _ _ _ => ofAccess_eq_some_iff, fun _ => rfl, offset_bounds⟩

theorem perform_read_refused_iff (off bits : Nat) (s : State) :
    perform (.read off bits) s = .refused (.hostAccess off bits) ↔ Reg.ofAccess off bits = none := by
  cases hr : Reg.ofAccess off bits <;> simp [perform, hr]

theorem perform_write_refused_iff (off bits : Nat) (x : Word) (s : State) :
    perform (.write off bits x) s = .refused (.hostAccess off bits) ↔ Reg.ofAccess off bits = none := by
  cases hr : Reg.ofAccess off bits with
  | none => simp [perform, hr]
  | some r =>
    obtain ⟨t, ht⟩ := hostWrite_total r x s
    simp [perform, hr, ht]

/-- Settles O43: an access is refused exactly where it reaches no register. -/
theorem malformedAccessIsRefused : Obligations.MalformedAccessIsRefused := by
  intro s rest off bits x hwf
  rw [step_eq_performNext s hwf, ← ofAccess_eq_none_iff]
  constructor <;> intro hhost <;> rw [performNext_cons hhost]
  · exact perform_read_refused_iff off bits _
  · exact perform_write_refused_iff off bits x _

/-- A register held at `w` bits reads 0 in the bits above (log entry 5). -/
theorem extractLsb'_setWidth_eq_zero {w : Nat} (x : BitVec w) (m n : Nat) : (x.setWidth m).extractLsb' w n = 0 := by
  ext i hi
  simp

/-- Settles O45: the narrow registers are read extended with zeros, the others as they stand. -/
theorem registersReadZeroExtended : Obligations.RegistersReadZeroExtended := by
  intro s
  refine ⟨rfl, fun _ => rfl, ?_, extractLsb'_setWidth_eq_zero _ _ _, ?_, extractLsb'_setWidth_eq_zero _ _ _,
    ?_, extractLsb'_setWidth_eq_zero _ _ _, ?_, extractLsb'_setWidth_eq_zero _ _ _,
    ?_, extractLsb'_setWidth_eq_zero _ _ _, rfl, rfl, rfl, rfl, rfl, rfl, fun _ => rfl⟩ <;>
    exact BitVec.toNat_setWidth_of_le (by decide)

/-! ## Reset -/

@[simp] theorem vAt_afterReset (c : Catalog) (i : Nat) : (State.afterReset c).vAt i = 0 := by
  simp [State.vAt]

@[simp] theorem regRead_afterReset (r : Reg) (c : Catalog) : regRead r (State.afterReset c) = 0 := by
  cases r <;> simp [regRead]

/-- Settles O53, register by register. -/
theorem resetValuesAreZero : Obligations.ResetValuesAreZero := by
  refine ⟨fun s rest hwf hhost => ?_, fun c => ?_⟩
  · rw [step_eq_performNext s hwf, performNext_cons hhost]
    rfl
  · exact ⟨rfl, rfl, rfl, rfl, rfl, rfl, rfl, rfl, rfl, rfl, rfl, vAt_afterReset c,
      fun r => regRead_afterReset r c, rfl⟩

end Sys2Proof.Scope
end

section
/-! SUPPORT. The proofs of the statements about what a command or a step leaves unchanged, and what the read-only
registers keep (10_state.md R27, R40, R41). -/

namespace Sys2Proof.Scope

open Sys2Proof.Machine Sys2Proof.Safety

/-! ## The frames of error and success -/

/-- R41: the registers that a command ending in error leaves alone. -/
theorem exec_of_status_ne_zero {i : Instr} {s t : State} (h : exec i s = .next t) (hst : t.status ≠ 0) :
    t = { s with status := t.status, errmin := t.errmin, errmax := t.errmax } ∧
    (((∀ idx, i ≠ .encode idx) ∨ statusCode t.status ≠ 2) → t.errmin = s.errmin ∧ t.errmax = s.errmax) := by
  cases i with
  | lookup =>
    rcases execLookup_cases s t h with ⟨_, _, rfl⟩ | ⟨_, rfl⟩
    · exact absurd rfl hst
    · exact ⟨rfl, fun _ => ⟨rfl, rfl⟩⟩
  | encode idx =>
    rcases execEncode_cases idx s t h with ⟨_, rfl⟩ | ⟨_, _, ⟨_, _, rfl⟩ | ⟨_, _, ⟨_, _, rfl⟩ | ⟨_, rfl⟩⟩⟩
    · exact ⟨rfl, fun _ => ⟨rfl, rfl⟩⟩
    · exact absurd rfl hst
    · refine ⟨rfl, fun hor => ?_⟩
      rcases hor with hne | hcode
      · exact absurd rfl (hne idx)
      · exact absurd (statusCode_statusWord _) hcode
    · exact ⟨rfl, fun _ => ⟨rfl, rfl⟩⟩
  | decode idx =>
    rcases execDecode_cases idx s t h with ⟨_, rfl⟩ | ⟨_, _, ⟨_, rfl⟩ | ⟨_, rfl⟩⟩
    · exact ⟨rfl, fun _ => ⟨rfl, rfl⟩⟩
    · exact ⟨rfl, fun _ => ⟨rfl, rfl⟩⟩
    · exact absurd rfl hst
  | packbits n =>
    rcases execPackbits_cases n s t h with ⟨_, rfl⟩ | ⟨_, ⟨_, _, rfl⟩ | ⟨_, _, rfl⟩⟩
    · exact ⟨rfl, fun _ => ⟨rfl, rfl⟩⟩
    · exact absurd rfl hst
    · exact ⟨rfl, fun _ => ⟨rfl, rfl⟩⟩
  | truncf k =>
    rcases execTruncf_cases k s t h with ⟨_, rfl⟩ | ⟨_, _, rfl⟩
    · exact ⟨rfl, fun _ => ⟨rfl, rfl⟩⟩
    · exact absurd rfl hst

/-- Settles O47, with IllegalCommand for the words that spell no command. -/
theorem errorsLeaveEveryOtherRegister : Obligations.ErrorsLeaveEveryOtherRegister := by
  intro s t v h hst
  cases hv : Sys2Proof.decode v with
  | error e =>
    obtain rfl : s.setStatus (ErrorInfo.statusWord { kind := .illegalCommand }) = t := by
      simpa [performCommand, hv] using h
    exact ⟨rfl, fun _ => ⟨rfl, rfl⟩⟩
  | ok i =>
    rw [performCommand_of_decode hv] at h
    obtain ⟨hframe, herr⟩ := exec_of_status_ne_zero h hst
    exact ⟨hframe, fun hor => herr (hor.imp_left fun hne idx hi => hne idx (congrArg _ hi))⟩

theorem vAt_decodeFields_of_le {cmd : Nat} {p : Word} {fs : List FieldSpec} {s : State} {j : Nat} (hj : fs.length ≤ j) :
    (s.setV (decodeFields cmd p fs 0 s.v)).vAt j = s.vAt j := by
  unfold State.vAt
  split
  · rw [State.setV_v, decodeFields_getElem, dif_neg (by omega)]
  · rfl

/-- Settles O48, command by command. -/
theorem successWritesOnlyTheListedRegisters : Obligations.SuccessWritesOnlyTheListedRegisters := by
  intro s t i h hst
  cases i with
  | lookup =>
    rcases execLookup_cases s t h with ⟨_, _, rfl⟩ | ⟨_, rfl⟩
    · rfl
    · exact absurd hst (statusWord_ne_zero _)
  | encode idx =>
    rcases execEncode_cases idx s t h with ⟨_, rfl⟩ | ⟨_, _, ⟨_, _, rfl⟩ | ⟨_, _, ⟨_, _, rfl⟩ | ⟨_, rfl⟩⟩⟩
    · exact absurd hst (statusWord_ne_zero _)
    · rfl
    · exact absurd hst (statusWord_ne_zero _)
    · exact absurd hst (statusWord_ne_zero _)
  | decode idx =>
    rcases execDecode_cases idx s t h with ⟨_, rfl⟩ | ⟨d, hd, ⟨_, rfl⟩ | ⟨_, rfl⟩⟩
    · exact absurd hst (statusWord_ne_zero _)
    · exact absurd hst (statusWord_ne_zero _)
    · refine ⟨rfl, fun d' hd' j hj => ?_⟩
      obtain rfl : d = d' := Option.some.inj (hd.symm.trans hd')
      exact vAt_decodeFields_of_le hj
  | packbits n =>
    rcases execPackbits_cases n s t h with ⟨_, rfl⟩ | ⟨_, ⟨_, _, rfl⟩ | ⟨_, _, rfl⟩⟩
    · exact absurd hst (statusWord_ne_zero _)
    · rfl
    · exact absurd hst (statusWord_ne_zero _)
  | truncf k =>
    rcases execTruncf_cases k s t h with ⟨_, rfl⟩ | ⟨_, _, rfl⟩
    · exact absurd hst (statusWord_ne_zero _)
    · rfl

/-- Only an ENCODE that succeeds writes FRAME (10_state.md R27). -/
theorem exec_frame_of_not_encoded {i : Instr} {s t : State} (h : exec i s = .next t)
    (hor : (∀ idx, i ≠ .encode idx) ∨ t.status ≠ 0) : t.frame = s.frame := by
  by_cases hst : t.status = 0
  · have hsucc := successWritesOnlyTheListedRegisters s t i h hst
    cases i with
    | encode idx => exact absurd rfl (hor.resolve_right (not_not.mpr hst) idx)
    | decode idx =>
      obtain ⟨ht, _⟩ := hsucc
      rw [ht]
    | _ => rw [hsucc]
  · obtain ⟨ht, _⟩ := exec_of_status_ne_zero h hst
    rw [ht]

theorem exec_encode_frame {s t : State} {idx : Nat} {d : Definition} (hd : s.cat idx = some d)
    (h : exec (.encode idx) s = .next t) (hst : t.status = 0) : t.frame = frameOf d := by
  rcases execEncode_cases idx s t h with ⟨hnone, _⟩ | ⟨d', hd', ⟨_, _, rfl⟩ | ⟨_, _, ⟨_, _, rfl⟩ | ⟨_, rfl⟩⟩⟩
  · rw [hd] at hnone
    cases hnone
  · obtain rfl : d = d' := Option.some.inj (hd.symm.trans hd')
    rfl
  · exact absurd hst (statusWord_ne_zero _)
  · exact absurd hst (statusWord_ne_zero _)

/-! ## What host writes and `chk` leave unchanged

A host write of a register other than CMD reaches no read-only register (20_memory.md R68). -/

@[simp] theorem regWrite_status (r : Reg) (x : Word) (s : State) : (regWrite r x s).status = s.status := by
  cases r <;> rfl
@[simp] theorem regWrite_midx (r : Reg) (x : Word) (s : State) : (regWrite r x s).midx = s.midx := by
  cases r <;> rfl
@[simp] theorem regWrite_frame (r : Reg) (x : Word) (s : State) : (regWrite r x s).frame = s.frame := by
  cases r <;> rfl
@[simp] theorem regWrite_errmin (r : Reg) (x : Word) (s : State) : (regWrite r x s).errmin = s.errmin := by
  cases r <;> rfl
@[simp] theorem regWrite_errmax (r : Reg) (x : Word) (s : State) : (regWrite r x s).errmax = s.errmax := by
  cases r <;> rfl
@[simp] theorem regWrite_catalog (r : Reg) (x : Word) (s : State) : (regWrite r x s).catalog = s.catalog := by
  cases r <;> rfl

/-- `chk` touches only the model's own lists (30_encoding.md R88; log entries 2 and 3). -/
theorem hostCheck_eq (s : State) : ∃ ops, hostCheck s = (s.answer (regRead .status s)).setHost ops := by
  unfold hostCheck
  dsimp only
  split
  · exact ⟨s.host, rfl⟩
  · exact ⟨[], rfl⟩

/-- Settles O12, by FRAME as a number and the frames of error and success. -/
theorem frameHoldsIdExtAndDlc : Obligations.FrameHoldsIdExtAndDlc := by
  refine ⟨fun s t idx d hwf hd h hst => ?_, fun _ _ _ h hor => exec_frame_of_not_encoded h hor,
    fun s r x => regWrite_frame r x s⟩
  have hid := wellFormed_id_lt hwf hd
  have hlen : d.length < 16 := Nat.lt_of_le_of_lt (wellFormed_length_le hwf hd) (by decide)
  rw [exec_encode_frame hd h hst]
  exact ⟨frameOf_id hid hlen, frameOf_ext hid hlen, frameOf_zero hid hlen, frameOf_dlc hid hlen,
    extractLsb'_setWidth_eq_zero t.frame 64 28⟩

/-- Settles O41, by what a step can be. -/
theorem catalogNeverChanges : Obligations.CatalogNeverChanges := by
  intro s t h
  rcases step_cases s t h with ⟨_, rfl⟩ | ⟨op, rest, _, ⟨_, rfl⟩ | ⟨_, _, _, _, _, rfl⟩ | ⟨_, rfl⟩ |
    ⟨_, _, _, _, _, _, _, rfl⟩ | ⟨_, _, _, _, _, ⟨i, _, hexec⟩ | ⟨_, _, rfl⟩⟩⟩
  · rfl
  · rfl
  · rfl
  · obtain ⟨ops, hops⟩ := hostCheck_eq (s.setHost rest)
    rw [hops]
    rfl
  · simp
  · exact (exec_keeps i _ t hexec).1
  · rfl

/-! ## The invariant of the read-only registers -/

theorem inv_iff (s : State) : Inv s = true ↔
    statusRegular s.status = true ∧ frameRegular s.frame = true ∧ (s.frame = 0 ∨ ∃ d ∈ s.catalog, s.frame = frameOf d) ∧
    (s.midx = 0 ∨ s.midx.toNat < s.catalog.length) ∧
    ((s.errmin = 0 ∧ s.errmax = 0) ∨ ∃ d ∈ s.catalog, ∃ f ∈ d.fields, s.errmin = f.min ∧ s.errmax = f.max) := by
  simp [Safety.Inv, frameFromCatalog, midxFromCatalog, errFromCatalog, and_assoc]

theorem statusRegular_zero : statusRegular 0 = true := by decide

/-- A state whose read-only registers are 0 meets the invariant (10_state.md R42). -/
theorem inv_of_zero {s : State} (hstatus : s.status = 0) (hframe : s.frame = 0) (hmidx : s.midx = 0)
    (hmin : s.errmin = 0) (hmax : s.errmax = 0) : Inv s = true := by
  rw [inv_iff, hstatus, hframe]
  exact ⟨statusRegular_zero, by decide, .inl rfl, .inl hmidx, .inl ⟨hmin, hmax⟩⟩

/-- Settles O56: reset makes the read-only registers 0. -/
theorem resetIsRegular : Obligations.ResetIsRegular :=
  ⟨fun _ => inv_of_zero rfl rfl rfl rfl rfl, inv_of_zero rfl rfl rfl rfl rfl⟩

/-- What a transition from `s` may leave in the read-only registers: what they held, or what a command writes there under
the catalog of `s` (10_state.md R22, R24, R27, R30). -/
structure RegularWrites (s t : State) : Prop where
  catalog : t.catalog = s.catalog
  status : t.status = s.status ∨ statusRegular t.status = true
  frame : t.frame = s.frame ∨ ∃ d ∈ s.catalog, t.frame = frameOf d
  midx : t.midx = s.midx ∨ t.midx.toNat < s.catalog.length
  err : (t.errmin = s.errmin ∧ t.errmax = s.errmax) ∨
    ∃ d ∈ s.catalog, ∃ f ∈ d.fields, t.errmin = f.min ∧ t.errmax = f.max

theorem RegularWrites.refl (s : State) : RegularWrites s s :=
  ⟨rfl, .inl rfl, .inl rfl, .inl rfl, .inl ⟨rfl, rfl⟩⟩

/-- A transition that changes of these registers STATUS alone, and that to a regular value. -/
theorem RegularWrites.of_setStatus (s : State) {w : BitVec 28} (h : statusRegular w = true) :
    RegularWrites s (s.setStatus w) :=
  { RegularWrites.refl s with status := .inr h }

theorem RegularWrites.inv {s t : State} (h : RegularWrites s t) (hwf : wellFormed s.catalog = true)
    (hinv : Inv s = true) : Inv t = true := by
  rw [inv_iff] at hinv ⊢
  obtain ⟨hstatus, hframe, hframeCat, hmidx, herr⟩ := hinv
  rw [h.catalog]
  refine ⟨?_, ?_, ?_, ?_, ?_⟩
  · exact h.status.elim (fun he => he ▸ hstatus) id
  · rcases h.frame with he | ⟨d, hd, he⟩
    · rw [he]; exact hframe
    · obtain ⟨i, hi⟩ := List.mem_iff_getElem?.mp hd
      rw [he]; exact frameRegular_frameOf hwf hi
  · exact h.frame.elim (fun he => he ▸ hframeCat) .inr
  · exact h.midx.elim (fun he => he ▸ hmidx) .inr
  · rcases h.err with ⟨hmin, hmax⟩ | hfield
    · rw [hmin, hmax]; exact herr
    · exact .inr hfield

/-! The arguments that ENCODE and PACKBITS record fit their fields of STATUS. -/

theorem encodeField_error_sub_le {draw : Draw} {f : FieldSpec} {x : Word} {sub : Nat}
    (h : encodeField draw f x = .error (.outOfRange sub)) : sub ≤ 1 := by
  rcases encodeField_eq_error.mp h with ⟨_, he⟩ | ⟨_, _, he⟩
  · cases he
    decide
  · unfold rawError at he
    split at he <;> cases he <;> decide

/-- Where ENCODE fails, the failing field is one of the definition's, at its index. -/
theorem encodeFields_error_field {s : State} {fs : List FieldSpec} {p : Word} {e : EncodeFailure}
    (h : encodeFields s fs 0 p = .error e) :
    fs[e.index]? = some e.field ∧ ∃ draw x, encodeField draw e.field x = .error e.error := by
  obtain ⟨j, hindex, hfield, herror, _⟩ := (encodeFields_eq_error s fs 0 p e).mp h
  rw [hindex, Nat.zero_add]
  exact ⟨hfield, _, _, herror⟩

theorem packBits_error_bounds {s : State} {n : Nat} {e : PackFailure}
    (hlegal : widthsLegal ((s.packPairs n).map Prod.snd) = true) (h : packBits (s.packPairs n) = .error e) :
    e.index < n ∧ e.width ≤ 64 := by
  obtain ⟨j, x, hindex, hpair, _, _⟩ := (packFrom_eq_error _ _ _ _ e).mp h
  have hj : j < (s.packPairs n).length := (List.getElem?_eq_some_iff.mp hpair).1
  have hmem : e.width ∈ (s.packPairs n).map Prod.snd := List.mem_map_of_mem (List.mem_of_getElem? hpair)
  have hw := ((widthsLegal_iff _).mp hlegal).1 _ hmem
  simp only [State.packPairs, List.length_map, List.length_range] at hj
  omega

theorem lookupIdx_lt {s : State} {idx : Nat} (h : s.lookupIdx = some idx) : idx < s.catalog.length :=
  (List.findIdx?_eq_some_iff_findIdx_eq.mp h).1

theorem decodeIndexed_eq_ok {mk : Nat → Instr} {v : Word} {i : Instr} (h : decodeIndexed mk v = .ok i) :
    i = mk (cmdIdx v).toNat := by
  unfold decodeIndexed at h
  split at h <;> cases h
  rfl

theorem decodeCounted_eq_ok {mk : Nat → Instr} {most : Nat} {v : Word} {i : Instr} (h : decodeCounted mk most v = .ok i) :
    ∃ n, 1 ≤ n ∧ n ≤ most ∧ i = mk n := by
  unfold decodeCounted at h
  split at h
  · cases h
  · split at h <;> cases h
    rename_i hn
    obtain ⟨hpos, hmost⟩ := hn
    exact ⟨_, hpos, hmost, rfl⟩

/-- The decoder gives only commands whose operands are in range (30_encoding.md R81 to R83). -/
theorem wf_of_decode {v : Word} {i : Instr} (h : Sys2Proof.decode v = .ok i) : i.wf = true := by
  unfold Sys2Proof.decode at h
  split at h
  · cases h
  split at h
  · repeat' split at h
    all_goals cases h
    rfl
  split at h
  · rw [decodeIndexed_eq_ok h]
    exact decide_eq_true (cmdIdx v).isLt
  split at h
  · rw [decodeIndexed_eq_ok h]
    exact decide_eq_true (cmdIdx v).isLt
  split at h
  · obtain ⟨n, hpos, hn, rfl⟩ := decodeCounted_eq_ok h
    simp [Instr.wf, Instr.fieldCountLegal, hpos, hn]
  split at h
  · obtain ⟨k, hpos, hk, rfl⟩ := decodeCounted_eq_ok h
    simp [Instr.wf, Instr.keepBytesLegal, hpos, hk]
  · cases h

theorem fieldCount_le_of_wf {n : Nat} (h : (Instr.packbits n).wf = true) : n ≤ 16 :=
  of_decide_eq_true (Bool.and_eq_true_iff.mp h).2

theorem encode_regularWrites {idx : Nat} {s t : State} (hwf : wellFormed s.catalog = true)
    (h : execEncode idx s = .next t) : RegularWrites s t := by
  rcases execEncode_cases idx s t h with ⟨_, rfl⟩ | ⟨d, hd, ⟨p, _, rfl⟩ | ⟨e, he, hfail⟩⟩
  · exact .of_setStatus s (by decide)
  · exact { RegularWrites.refl s with
      status := .inr statusRegular_zero, frame := .inr ⟨d, List.mem_of_getElem? hd, rfl⟩ }
  · obtain ⟨hfield, draw, x, herror⟩ := encodeFields_error_field he
    have hindex : e.index < 16 :=
      (List.getElem?_eq_some_iff.mp hfield).1.trans_le (wellFormed_fieldCount_le hwf hd)
    rcases hfail with ⟨sub, hsub, rfl⟩ | ⟨_, rfl⟩
    · rw [hsub] at herror
      exact { RegularWrites.refl s with
        status := .inr (statusRegular_fieldOutOfRange hindex (encodeField_error_sub_le herror))
        err := .inr ⟨d, List.mem_of_getElem? hd, e.field, List.mem_of_getElem? hfield, rfl, rfl⟩ }
    · exact .of_setStatus s (statusRegular_bitFieldOverflow hindex (wellFormed_width hwf hd hfield).2)

/-- Every well-formed command writes the read-only registers regularly. -/
theorem exec_regularWrites {i : Instr} {s t : State} (hwf : wellFormed s.catalog = true) (hi : i.wf = true)
    (h : exec i s = .next t) : RegularWrites s t := by
  cases i with
  | lookup =>
    rcases execLookup_cases s t h with ⟨idx, hidx, rfl⟩ | ⟨_, rfl⟩
    · have hlt : (BitVec.ofNat 8 idx).toNat < s.catalog.length :=
        (Nat.mod_le _ _).trans_lt (lookupIdx_lt hidx)
      exact { RegularWrites.refl s with status := .inr statusRegular_zero, midx := .inr hlt }
    · exact .of_setStatus s (by decide)
  | encode idx => exact encode_regularWrites hwf h
  | decode idx =>
    rcases execDecode_cases idx s t h with ⟨_, rfl⟩ | ⟨_, _, ⟨_, rfl⟩ | ⟨_, rfl⟩⟩
    · exact .of_setStatus s (by decide)
    · exact .of_setStatus s (by decide)
    · exact { RegularWrites.refl s with status := .inr statusRegular_zero }
  | packbits n =>
    rcases execPackbits_cases n s t h with ⟨_, rfl⟩ | ⟨hlegal, ⟨_, _, rfl⟩ | ⟨e, he, rfl⟩⟩
    · exact .of_setStatus s (by decide)
    · exact { RegularWrites.refl s with status := .inr statusRegular_zero }
    · obtain ⟨hindex, hwidth⟩ := packBits_error_bounds hlegal he
      exact .of_setStatus s
        (statusRegular_bitFieldOverflow (hindex.trans_le (fieldCount_le_of_wf hi)) hwidth)
  | truncf k =>
    rcases execTruncf_cases k s t h with ⟨_, rfl⟩ | ⟨_, _, rfl⟩
    · exact .of_setStatus s (by decide)
    · exact { RegularWrites.refl s with status := .inr statusRegular_zero }

/-- Settles O55: reset makes the registers 0, and every other step writes them regularly. -/
theorem stepKeepsReadOnlyRegistersRegular : Obligations.StepKeepsReadOnlyRegistersRegular := by
  intro s t hinv h
  have hwf := wellFormed_of_step s t h
  rcases step_cases s t h with ⟨_, rfl⟩ | ⟨op, rest, _, ⟨_, rfl⟩ | ⟨_, _, r, _, _, rfl⟩ | ⟨_, rfl⟩ |
    ⟨_, _, x, r, _, _, _, rfl⟩ | ⟨_, _, _, _, _, ⟨i, hv, hexec⟩ | ⟨_, _, rfl⟩⟩⟩
  · exact hinv
  · exact inv_of_zero rfl rfl rfl rfl rfl
  · exact hinv
  · obtain ⟨ops, hops⟩ := hostCheck_eq (s.setHost rest)
    rw [hops]
    exact hinv
  · have hregs : RegularWrites s (regWrite r x (s.setHost rest)) := by constructor <;> simp
    exact hregs.inv hwf hinv
  · exact (exec_regularWrites (s := s.setHost rest) hwf (wf_of_decode hv) hexec).inv hwf hinv
  · exact (RegularWrites.of_setStatus (s.setHost rest) (by decide)).inv hwf hinv

end Sys2Proof.Scope
end

section
/-! SUPPORT. The proofs of the statements about the order of the payload's bytes, the host's accesses and the repetition
of a command (20_memory.md R61, R68, R69). -/

namespace Sys2Proof.Scope

open Sys2Proof.Machine Sys2Proof.Safety

/-! ## What each host access does -/

theorem ofAccess_offset (r : Reg) : Reg.ofAccess r.offset 64 = some r := ofAccess_eq_some_iff.mpr ⟨rfl, rfl⟩

theorem step_of_read {s : State} {rest : List HostOp} {r : Reg} (hwf : wellFormed s.catalog = true)
    (hhost : s.host = .read r.offset 64 :: rest) : step s = .next ((s.setHost rest).answer (regRead r s)) := by
  rw [step_eq_performNext s hwf, performNext_cons hhost, perform, ofAccess_offset]
  cases r <;> rfl

theorem step_of_write {s : State} {rest : List HostOp} {x : Word} (hwf : wellFormed s.catalog = true) (r : Reg)
    (hhost : s.host = .write r.offset 64 x :: rest) : step s = hostWrite r x (s.setHost rest) := by
  rw [step_eq_performNext s hwf, performNext_cons hhost, perform, ofAccess_offset]

/-- Settles O44: each offset is that of its register, and a write there is the host port's write of the register. -/
theorem hostAccessSideEffects : Obligations.HostAccessSideEffects := by
  intro s rest x hwf
  have hwrite := step_of_write (rest := rest) (x := x) hwf
  refine ⟨fun r => step_of_read hwf, hwrite .cmd, fun h => ?_, fun h => ?_, hwrite .payload, hwrite .widlo,
    hwrite .widhi, fun i => hwrite (.v i), ?_⟩
  · rw [hwrite .qid h, ← BitVec.setWidth_eq_extractLsb' (by decide)]
    rfl
  · rw [hwrite .plen h, ← BitVec.setWidth_eq_extractLsb' (by decide)]
    rfl
  · simp only [List.forall_mem_cons]
    exact ⟨hwrite .status, hwrite .midx, hwrite .frame, hwrite .acc, hwrite .errmin, hwrite .errmax,
      hwrite (.reserved 0), hwrite (.reserved 1), hwrite (.reserved 2), hwrite (.reserved 3), nofun⟩

/-! ## Where ENCODE puts the bits of a field -/

/-- A payload bit outside every field placed keeps its value. -/
theorem getLsbD_foldl_insertBits_of_uncovered {l : List (FieldSpec × Word)} {n : Nat}
    (h : ∀ q ∈ l, ¬ (q.1.off ≤ n ∧ n < q.1.off + q.1.w)) (p : Word) :
    (l.foldl (fun p q => insertBits p q.1.off q.1.w q.2) p).getLsbD n = p.getLsbD n := by
  induction l generalizing p with
  | nil => rfl
  | cons q l ih =>
    rw [List.foldl_cons, ih fun q' hq' => h q' (List.mem_cons_of_mem _ hq'), getLsbD_insertBits,
      if_neg (h q List.mem_cons_self)]
    by_cases hn : n < 64
    · simp [hn]
    · simp [BitVec.getLsbD_of_ge p n (by omega)]

/-- The bits of a field are those of its raw form, once no later field covers them. -/
theorem getLsbD_foldl_insertBits {l : List (FieldSpec × Word)} {i k : Nat} {f : FieldSpec} {r : Word}
    (hi : l[i]? = some (f, r)) (hk : k < f.w) (h64 : f.off + k < 64)
    (hlater : ∀ q ∈ l.drop (i + 1), ¬ (q.1.off ≤ f.off + k ∧ f.off + k < q.1.off + q.1.w)) (p : Word) :
    (l.foldl (fun p q => insertBits p q.1.off q.1.w q.2) p).getLsbD (f.off + k) = r.getLsbD k := by
  obtain ⟨hlen, hget⟩ := List.getElem?_eq_some_iff.mp hi
  have hsplit : l = l.take i ++ (f, r) :: l.drop (i + 1) := by
    rw [← hget, ← List.drop_eq_getElem_cons hlen, List.take_append_drop]
  rw [hsplit, List.foldl_append, List.foldl_cons, getLsbD_foldl_insertBits_of_uncovered hlater, getLsbD_insertBits,
    if_pos ⟨Nat.le_add_right .., Nat.add_lt_add_left hk _⟩]
  simp [h64]

/-- Under a well-formed catalog ENCODE leaves bit `k` of every field's raw form in bit `off + k` of the payload. -/
theorem getLsbD_encodeFields {s : State} {idx i k : Nat} {d : Definition} {f : FieldSpec} {p r : Word}
    (hwf : wellFormed s.catalog = true) (hd : s.catalog[idx]? = some d) (hp : encodeFields s d.fields 0 0 = .ok p)
    (hf : d.fields[i]? = some f) (hr : rawConv (drawAt s.nanDraws i) f (s.vAt i) = some r) (hk : k < f.w) :
    p.getLsbD (f.off + k) = r.getLsbD k := by
  obtain ⟨raws, hlen, hraw, rfl⟩ := (encodeFields_eq_ok s d.fields 0 0 p).mp hp
  obtain ⟨hi, -⟩ := List.getElem?_eq_some_iff.mp hf
  have hri : raws[i]? = some r := by
    have hget : raws[i]? = some raws[i] := List.getElem?_eq_getElem (hlen ▸ hi)
    obtain ⟨-, hconv⟩ := encodeField_eq_ok.mp (hraw i f _ hf hget)
    rw [Nat.zero_add, hr] at hconv
    rw [hget, hconv]
  have hend := wellFormed_field_end hwf hd hf
  have hlength := wellFormed_length_le hwf hd
  refine getLsbD_foldl_insertBits (List.getElem?_zip_eq_some.mpr ⟨hf, hri⟩) hk (by omega) ?_ 0
  intro q hq
  obtain ⟨m, hm⟩ := List.mem_iff_getElem?.mp hq
  rw [List.getElem?_drop] at hm
  have hdisjoint := wellFormed_disjoint hwf hd hf (List.getElem?_zip_eq_some.mp hm).1 (by omega)
  omega

theorem encodeFields_of_exec_encode {s t : State} {idx : Nat} {d : Definition} (hd : s.cat idx = some d)
    (h : exec (.encode idx) s = .next t) (hst : t.status = 0) : encodeFields s d.fields 0 0 = .ok t.payload := by
  rcases execEncode_cases idx s t h with ⟨hnone, _⟩ | ⟨d', hd', ⟨_, hp, rfl⟩ | ⟨_, _, ⟨_, _, rfl⟩ | ⟨_, rfl⟩⟩⟩
  · rw [hd] at hnone
    cases hnone
  · obtain rfl : d = d' := Option.some.inj (hd.symm.trans hd')
    exact hp
  · exact absurd hst (statusWord_ne_zero _)
  · exact absurd hst (statusWord_ne_zero _)

/-- WF5 and WF6: a field of a numeric kind is whole bytes of the payload. -/
theorem wellFormed_bytes {cat : Catalog} (hwf : wellFormed cat = true) {idx i : Nat} {d : Definition} {f : FieldSpec}
    (hd : cat[idx]? = some d) (hf : d.fields[i]? = some f) (hkind : f.kind ≠ .bits) : f.off % 8 = 0 ∧ f.w % 8 = 0 := by
  have hoff : wf6 f = true := ((wellFormed_iff_passes cat).mp hwf .wf6 idx d hd).2 i f hf
  have hw := wellFormed_widthLegal hwf hd hf
  unfold wf6 at hoff
  cases hk : f.kind <;> simp only [hk, Kind.numeric, Kind.widthLegal, Bool.not_true, Bool.false_or, Bool.or_eq_true,
    decide_eq_true_eq] at hoff hw
  case bits => exact absurd hk hkind
  all_goals omega

/-- Settles O13, bit by bit: bit `b` of byte `j` of a byte-aligned field is bit `8 * j + b` of its raw form. -/
theorem encodeIsLittleEndian : Obligations.EncodeIsLittleEndian := by
  intro s t idx d i f r hwf hd h hst hf hkind hr j hj
  obtain ⟨hoff, hw⟩ := wellFormed_bytes hwf hd hf hkind
  have hp := encodeFields_of_exec_encode hd h hst
  ext b hb
  have hpos : 8 * (f.off / 8 + j) + b = f.off + (8 * j + b) := by omega
  rw [BitVec.getElem_extractLsb', BitVec.getElem_extractLsb', hpos]
  exact getLsbD_encodeFields hwf hd hp hf hr (by omega)

/-! ## Results that are no NaN do not depend on the draw -/

theorem div64_eq_of_not_isNaN64 {nan a b : Word} (nan' : Word) (hnan : isNaN64 nan = true)
    (h : isNaN64 (div64 nan a b) = false) : div64 nan' a b = div64 nan a b := by
  have hP : ¬ DivIsNaN a b := by
    rw [← (isNaN64_iff_of_cases hnan (div64_cases nan a b)).1, h]
    decide
  simp only [DivIsNaN, not_or, not_and] at hP
  obtain ⟨ha, hb, hinf, hzero⟩ := hP
  unfold div64
  split_ifs <;> simp_all

theorem div64_cvt32to64_eq_of_not_isNaN64 {nan scale : Word} {b : Word32} (nan' : Word) (hnan : isNaN64 nan = true)
    (h : isNaN64 (div64 nan (cvt32to64 nan b) scale) = false) :
    div64 nan' (cvt32to64 nan' b) scale = div64 nan (cvt32to64 nan b) scale := by
  cases hb : isNaN32 b with
  | true => simp [cvt32to64, hb, div64, hnan] at h
  | false =>
    have hcvt : cvt32to64 nan' b = cvt32to64 nan b := by simp [cvt32to64, hb]
    rw [hcvt, div64_eq_of_not_isNaN64 nan' hnan h]

theorem decodeField_eq_of_not_isNaN64 {draw : Draw} {f : FieldSpec} {raw : Word} (draw' : Draw)
    (hnan : isNaN64 draw.nan64 = true) (h : f.kind ≠ .bits → isNaN64 (decodeField draw f raw) = false) :
    decodeField draw' f raw = decodeField draw f raw := by
  unfold decodeField at h ⊢
  cases hk : f.kind <;> simp only [hk, ne_eq, reduceCtorEq, not_false_eq_true, forall_const] at h ⊢
  case f32 => exact div64_cvt32to64_eq_of_not_isNaN64 _ hnan h
  case sint => exact div64_eq_of_not_isNaN64 _ hnan h
  case uint => exact div64_eq_of_not_isNaN64 _ hnan h
  case trunc => exact div64_cvt32to64_eq_of_not_isNaN64 _ hnan h

theorem cvt64to32_eq_of_not_isNaN64 {x : Word} (nan nan' : Word32) (h : isNaN64 x = false) :
    cvt64to32 nan x = cvt64to32 nan' x := by
  simp [cvt64to32, h]

/-! ## A command performed again -/

theorem lookup_again {s t : State} (h : exec .lookup s = .next t) : exec .lookup t = .next t := by
  rcases execLookup_cases s t h with ⟨idx, hidx, rfl⟩ | ⟨hnone, rfl⟩
  · simp only [exec, execLookup, State.setStatus_lookupIdx, State.setMidx_lookupIdx, hidx]
    rfl
  · simp only [exec, execLookup, State.setStatus_lookupIdx, hnone]
    rfl

/-- The loop of ENCODE reads V and the count of draws, and nothing else of the state. -/
theorem encodeFields_congr {s t : State} (hdraws : t.nanDraws = s.nanDraws) (hv : t.v = s.v) (fs : List FieldSpec)
    (i : Nat) (p : Word) : encodeFields t fs i p = encodeFields s fs i p := by
  induction fs generalizing i p with
  | nil => rfl
  | cons f rest ih => simp only [encodeFields, State.vAt, hdraws, hv, ih]

theorem encode_again {idx : Nat} {s t : State} (h : exec (.encode idx) s = .next t) :
    exec (.encode idx) t = .next t := by
  have hsame : ∀ fs, t.nanDraws = s.nanDraws → t.v = s.v → encodeFields t fs 0 0 = encodeFields s fs 0 0 :=
    fun fs hdraws hv => encodeFields_congr hdraws hv fs 0 0
  rcases execEncode_cases idx s t h with ⟨hd, rfl⟩ | ⟨d, hd, ⟨p, hp, rfl⟩ | ⟨e, he, ⟨sub, hsub, rfl⟩ | ⟨hover, rfl⟩⟩⟩
  · simp only [exec, execEncode, State.setStatus_cat, hd]
    rfl
  · simp only [exec, execEncode, State.setStatus_cat, State.setFrame_cat, State.setPlen_cat, State.setPayload_cat, hd,
      hsame d.fields rfl rfl, hp]
    rfl
  · simp only [exec, execEncode, State.setStatus_cat, State.setErr_cat, hd, hsame d.fields rfl rfl, he, raiseEncode, hsub]
    rfl
  · simp only [exec, execEncode, State.setStatus_cat, hd, hsame d.fields rfl rfl, he, raiseEncode, hover]
    rfl

theorem packbits_again {n : Nat} {s t : State} (h : exec (.packbits n) s = .next t) :
    exec (.packbits n) t = .next t := by
  rcases execPackbits_cases n s t h with ⟨hw, rfl⟩ | ⟨hw, ⟨acc, hacc, rfl⟩ | ⟨e, he, rfl⟩⟩
  · simp only [exec, execPackbits, State.setStatus_packPairs, hw]
    rfl
  · simp only [exec, execPackbits, State.setStatus_packPairs, State.setAcc_packPairs, hw, hacc]
    rfl
  · simp only [exec, execPackbits, State.setStatus_packPairs, hw, he]
    rfl

theorem decodeFields_again {cmd : Nat} {p : Word} {fs : List FieldSpec} {v : Vector Word 16} (cmd' : Nat)
    (h : ∀ (j : Nat) (f : FieldSpec), fs[j]? = some f → f.kind ≠ .bits →
      ∀ hj : j < 16, isNaN64 (decodeFields cmd p fs 0 v)[j] = false) :
    decodeFields cmd' p fs 0 (decodeFields cmd p fs 0 v) = decodeFields cmd p fs 0 v := by
  ext1 j hj
  rw [decodeFields_getElem cmd']
  split
  · rename_i hfield
    have hres := decodeFields_getElem cmd p fs 0 v j hj
    rw [dif_pos hfield] at hres
    rw [hres]
    refine decodeField_eq_of_not_isNaN64 _ (isNaN64_asNaN64 _) fun hkind => ?_
    rw [← hres]
    exact h j _ (List.getElem?_eq_getElem hfield.2) hkind hj
  · rfl

theorem decode_again_of_error {idx : Nat} {s t : State} (h : exec (.decode idx) s = .next t) (hst : t.status ≠ 0) :
    exec (.decode idx) t = .next t := by
  rcases execDecode_cases idx s t h with ⟨hd, rfl⟩ | ⟨d, hd, ⟨hlen, rfl⟩ | ⟨_, rfl⟩⟩
  · simp only [exec, execDecode, State.setStatus_cat, hd]
    rfl
  · simp only [exec, execDecode, State.setStatus_cat, hd]
    exact if_pos hlen
  · exact absurd rfl hst

/-- Where V holds the fields' values already, DECODE moves on the count of draws only. -/
theorem execDecode_of_values_held {idx : Nat} {t : State} {d : Definition} (hd : t.cat idx = some d)
    (hlen : t.plen.toNat = d.length) (hst : t.status = 0)
    (hv : decodeFields t.nanDraws t.payload d.fields 0 t.v = t.v) :
    execDecode idx t = .next { t with nanDraws := t.nanDraws + 1 } := by
  simp only [execDecode, hd, hv]
  rw [if_neg (not_not.mpr hlen), complete_eq, ← hst]
  rfl

theorem decode_again_of_success {idx : Nat} {s t : State} (h : exec (.decode idx) s = .next t) (hst : t.status = 0)
    (hnan : ∀ d : Definition, s.catalog[idx]? = some d → ∀ (j : Nat) (f : FieldSpec), d.fields[j]? = some f →
      f.kind ≠ .bits → isNaN64 (t.vAt j) = false) :
    exec (.decode idx) t = .next { t with nanDraws := t.nanDraws + 1 } := by
  rcases execDecode_cases idx s t h with ⟨_, rfl⟩ | ⟨d, hd, ⟨_, rfl⟩ | ⟨hlen, rfl⟩⟩
  · exact absurd hst (statusWord_ne_zero _)
  · exact absurd hst (statusWord_ne_zero _)
  · have hv := decodeFields_again (cmd := s.nanDraws) (p := s.payload) (v := s.v) (s.nanDraws + 1)
      fun j f hf hkind hj => by simpa [State.vAt, hj] using hnan d hd j f hf hkind
    exact execDecode_of_values_held hd hlen rfl hv

theorem truncf_again_of_error {k : Nat} {s t : State} (h : exec (.truncf k) s = .next t) (hst : t.status ≠ 0) :
    exec (.truncf k) t = .next t := by
  rcases execTruncf_cases k s t h with ⟨hnone, rfl⟩ | ⟨_, _, rfl⟩
  · simp only [exec, execTruncf, State.setStatus_vAt, State.setStatus_nanDraws, hnone]
    rfl
  · exact absurd rfl hst

/-- Where ACC holds the kept bytes already, TRUNCF moves on the count of draws only. -/
theorem execTruncf_of_bytes_held {k : Nat} {t : State} {b : Word32}
    (hb : cvt64to32 (drawAt t.nanDraws 0).nan32 (t.vAt 0) = some b) (hacc : keepBytes k b = t.acc)
    (hst : t.status = 0) : execTruncf k t = .next { t with nanDraws := t.nanDraws + 1 } := by
  simp only [execTruncf, hb, hacc, complete_eq]
  rw [← hst]
  rfl

theorem truncf_again_of_success {k : Nat} {s t : State} (h : exec (.truncf k) s = .next t) (hst : t.status = 0)
    (hnan : isNaN64 (s.vAt 0) = false) : exec (.truncf k) t = .next { t with nanDraws := t.nanDraws + 1 } := by
  rcases execTruncf_cases k s t h with ⟨_, rfl⟩ | ⟨b, hb, rfl⟩
  · exact absurd hst (statusWord_ne_zero _)
  · have hagain := (cvt64to32_eq_of_not_isNaN64 (drawAt (s.nanDraws + 1) 0).nan32 _ hnan).trans hb
    exact execTruncf_of_bytes_held hagain rfl rfl

/-- Settles O51: no command writes what it reads, and only a NaN shows the draw that it was taken from. -/
theorem commandsAreIdempotent : Obligations.CommandsAreIdempotent := by
  intro i s t h
  cases i with
  | lookup => exact lookup_again h
  | encode idx => exact encode_again h
  | packbits n => exact packbits_again h
  | decode idx => exact ⟨decode_again_of_error h, decode_again_of_success h⟩
  | truncf k => exact ⟨truncf_again_of_error h, truncf_again_of_success h⟩

end Sys2Proof.Scope
end

section
/-! SUPPORT. The proofs of the statements about the command word: its fields, its decoder and its encoder
(30_encoding.md R80 to R87). -/

namespace Sys2Proof.Encoding

open Sys2Proof.Machine

/-! ## The fields of a word -/

theorem toNat_cmdOp (v : Word) : (cmdOp v).toNat = v.toNat % 2 ^ 8 := by
  rw [cmdOp, BitVec.extractLsb'_toNat, Nat.shiftRight_zero]

theorem toNat_cmdArg (v : Word) : (cmdArg v).toNat = v.toNat / 2 ^ 8 % 2 ^ 8 := by
  rw [cmdArg, BitVec.extractLsb'_toNat, Nat.shiftRight_eq_div_pow]

theorem toNat_cmdIdx (v : Word) : (cmdIdx v).toNat = v.toNat / 2 ^ 16 % 2 ^ 8 := by
  rw [cmdIdx, BitVec.extractLsb'_toNat, Nat.shiftRight_eq_div_pow]

theorem toNat_cmdRsv (v : Word) : (cmdRsv v).toNat = v.toNat / 2 ^ 24 := by
  have h := v.isLt
  rw [cmdRsv, BitVec.extractLsb'_toNat, Nat.shiftRight_eq_div_pow]
  omega

/-- The four fields of 30_encoding.md R80 make up the whole word. -/
theorem word_eq_iff {v u : Word} :
    v = u ↔ cmdRsv v = cmdRsv u ∧ cmdOp v = cmdOp u ∧ cmdArg v = cmdArg u ∧ cmdIdx v = cmdIdx u := by
  refine ⟨fun h => h ▸ ⟨rfl, rfl, rfl, rfl⟩, fun ⟨hrsv, hop, harg, hidx⟩ => BitVec.eq_of_toNat_eq ?_⟩
  simp only [← BitVec.toNat_inj, toNat_cmdOp, toNat_cmdArg, toNat_cmdIdx, toNat_cmdRsv] at hrsv hop harg hidx
  omega

/-- RSV and IDX together are the bits from 16 on. -/
theorem extractLsb'_16_48_eq_zero_iff (v : Word) : v.extractLsb' 16 48 = 0 ↔ cmdRsv v = 0 ∧ cmdIdx v = 0 := by
  simp only [← BitVec.toNat_inj, toNat_cmdRsv, toNat_cmdIdx, BitVec.extractLsb'_toNat, Nat.shiftRight_eq_div_pow,
    BitVec.ofNat_eq_ofNat, BitVec.toNat_ofNat]
  have h := v.isLt
  omega

/-! ## What decodes to each command -/

/-- The condition on ARG and IDX in the row of a command (30_encoding.md R81). -/
def OperandsSpell (v : Word) : Instr → Prop
  | .lookup => cmdArg v = 0 ∧ cmdIdx v = 0
  | .encode k => cmdArg v = 0 ∧ k = (cmdIdx v).toNat
  | .decode k => cmdArg v = 0 ∧ k = (cmdIdx v).toNat
  | .packbits n => n = (cmdArg v).toNat ∧ cmdIdx v = 0 ∧ 1 ≤ n ∧ n ≤ 16
  | .truncf k => k = (cmdArg v).toNat ∧ cmdIdx v = 0 ∧ 1 ≤ k ∧ k ≤ 4

theorem decodeIndexed_eq_ok_iff {mk : Nat → Instr} {v : Word} {i : Instr} :
    decodeIndexed mk v = .ok i ↔ cmdArg v = 0 ∧ i = mk (cmdIdx v).toNat := by
  unfold decodeIndexed
  split <;> simp_all [eq_comm]

theorem decodeCounted_eq_ok_iff {mk : Nat → Instr} {most : Nat} {v : Word} {i : Instr} :
    decodeCounted mk most v = .ok i ↔
      cmdIdx v = 0 ∧ (1 ≤ (cmdArg v).toNat ∧ (cmdArg v).toNat ≤ most) ∧ i = mk (cmdArg v).toNat := by
  unfold decodeCounted
  split
  · simp_all
  · split <;> simp_all [eq_comm]

/-- The decoder selects by RSV and OP, then reads the operands. -/
theorem decode_eq_ok_iff {v : Word} {i : Instr} :
    decode v = .ok i ↔ cmdRsv v = 0 ∧ cmdOp v = opcode i ∧ OperandsSpell v i := by
  constructor
  · intro h
    unfold decode at h
    split_ifs at h with hrsv hlookup harg hidx hencode hdecode hpackbits htruncf
    all_goals rw [not_not] at hrsv
    · cases h
      exact ⟨hrsv, hlookup, not_not.mp harg, not_not.mp hidx⟩
    · obtain ⟨harg, rfl⟩ := decodeIndexed_eq_ok_iff.mp h
      exact ⟨hrsv, hencode, harg, rfl⟩
    · obtain ⟨harg, rfl⟩ := decodeIndexed_eq_ok_iff.mp h
      exact ⟨hrsv, hdecode, harg, rfl⟩
    · obtain ⟨hidx, hcount, rfl⟩ := decodeCounted_eq_ok_iff.mp h
      exact ⟨hrsv, hpackbits, rfl, hidx, hcount⟩
    · obtain ⟨hidx, hcount, rfl⟩ := decodeCounted_eq_ok_iff.mp h
      exact ⟨hrsv, htruncf, rfl, hidx, hcount⟩
  · rintro ⟨hrsv, hop, hspell⟩
    unfold decode
    rw [if_neg (not_not.mpr hrsv), hop]
    cases i with
    | lookup =>
      obtain ⟨harg, hidx⟩ := hspell
      simp [opcode, harg, hidx]
    | encode k =>
      obtain ⟨harg, rfl⟩ := hspell
      exact decodeIndexed_eq_ok_iff.mpr ⟨harg, rfl⟩
    | decode k =>
      obtain ⟨harg, rfl⟩ := hspell
      exact decodeIndexed_eq_ok_iff.mpr ⟨harg, rfl⟩
    | packbits n =>
      obtain ⟨rfl, hidx, hcount⟩ := hspell
      exact decodeCounted_eq_ok_iff.mpr ⟨hidx, hcount, rfl⟩
    | truncf k =>
      obtain ⟨rfl, hidx, hcount⟩ := hspell
      exact decodeCounted_eq_ok_iff.mpr ⟨hidx, hcount, rfl⟩

/-! ## The words of the commands -/

/-- A field above an opcode: as `k` bits hold the opcode, no bit of the two meets. -/
theorem shiftLeft_or_ofNat (n : Nat) {k op : Nat} (hop : op < 2 ^ k) :
    BitVec.ofNat 64 n <<< k ||| BitVec.ofNat 64 op = BitVec.ofNat 64 (op + 2 ^ k * n) := by
  have hshift : BitVec.ofNat 64 n <<< k = BitVec.ofNat 64 (2 ^ k * n) := by
    apply BitVec.eq_of_toNat_eq
    simp [Nat.shiftLeft_eq, Nat.mul_comm]
  rw [Nat.add_comm, Nat.two_pow_add_eq_or_of_lt hop, BitVec.ofNat_or, hshift]

theorem encode_lookup : encode .lookup = BitVec.ofNat 64 1 := rfl

theorem encode_encode (idx : Nat) : encode (.encode idx) = BitVec.ofNat 64 (2 + 2 ^ 16 * idx) :=
  shiftLeft_or_ofNat idx (by decide)

theorem encode_decode (idx : Nat) : encode (.decode idx) = BitVec.ofNat 64 (3 + 2 ^ 16 * idx) :=
  shiftLeft_or_ofNat idx (by decide)

theorem encode_packbits (n : Nat) : encode (.packbits n) = BitVec.ofNat 64 (4 + 2 ^ 8 * n) :=
  shiftLeft_or_ofNat n (by decide)

theorem encode_truncf (k : Nat) : encode (.truncf k) = BitVec.ofNat 64 (5 + 2 ^ 8 * k) :=
  shiftLeft_or_ofNat k (by decide)

theorem wf_encode_iff (idx : Nat) : (Instr.encode idx).wf = true ↔ idx < 256 := decide_eq_true_iff

theorem wf_decode_iff (idx : Nat) : (Instr.decode idx).wf = true ↔ idx < 256 := decide_eq_true_iff

theorem wf_packbits_iff (n : Nat) : (Instr.packbits n).wf = true ↔ 1 ≤ n ∧ n ≤ 16 := by
  rw [Instr.wf, Instr.fieldCountLegal, Config.nfMax, Bool.and_eq_true, decide_eq_true_iff, decide_eq_true_iff]

theorem wf_truncf_iff (k : Nat) : (Instr.truncf k).wf = true ↔ 1 ≤ k ∧ k ≤ 4 := by
  rw [Instr.wf, Instr.keepBytesLegal, Bool.and_eq_true, decide_eq_true_iff, decide_eq_true_iff]

/-- The word put together from three fields is the only one that has them. -/
theorem ofNat_fields_eq_iff {op arg idx : Nat} (hop : op < 2 ^ 8) (harg : arg < 2 ^ 8) (hidx : idx < 2 ^ 8) {v : Word} :
    BitVec.ofNat 64 (op + 2 ^ 8 * arg + 2 ^ 16 * idx) = v ↔
      cmdRsv v = 0#40 ∧ cmdOp v = BitVec.ofNat 8 op ∧ arg = (cmdArg v).toNat ∧ idx = (cmdIdx v).toNat := by
  have hv := v.isLt
  simp only [← BitVec.toNat_inj, toNat_cmdOp, toNat_cmdArg, toNat_cmdIdx, toNat_cmdRsv, BitVec.toNat_ofNat]
  omega

theorem zero_eq_toNat_iff {w : Nat} (x : BitVec w) : 0 = x.toNat ↔ x = 0 := by
  rw [eq_comm, ← BitVec.toNat_inj]
  rfl

/-- The word of a well-formed command is the one whose fields are the command's row. -/
theorem encode_eq_iff {i : Instr} (h : i.wf = true) {v : Word} :
    encode i = v ↔ cmdRsv v = 0 ∧ cmdOp v = opcode i ∧ OperandsSpell v i := by
  cases i with
  | lookup =>
    rw [encode_lookup]
    simpa [opcode, OperandsSpell, zero_eq_toNat_iff] using
      ofNat_fields_eq_iff (op := 1) (arg := 0) (idx := 0) (by decide) (by decide) (by decide)
  | encode idx =>
    rw [encode_encode]
    simpa [opcode, OperandsSpell, zero_eq_toNat_iff] using
      ofNat_fields_eq_iff (op := 2) (arg := 0) (by decide) (by decide) ((wf_encode_iff idx).mp h)
  | decode idx =>
    rw [encode_decode]
    simpa [opcode, OperandsSpell, zero_eq_toNat_iff] using
      ofNat_fields_eq_iff (op := 3) (arg := 0) (by decide) (by decide) ((wf_decode_iff idx).mp h)
  | packbits n =>
    have hn := (wf_packbits_iff n).mp h
    rw [encode_packbits]
    simpa [opcode, OperandsSpell, zero_eq_toNat_iff, hn] using
      ofNat_fields_eq_iff (op := 4) (arg := n) (idx := 0) (by decide) (by omega) (by decide)
  | truncf k =>
    have hk := (wf_truncf_iff k).mp h
    rw [encode_truncf]
    simpa [opcode, OperandsSpell, zero_eq_toNat_iff, hk] using
      ofNat_fields_eq_iff (op := 5) (arg := k) (idx := 0) (by decide) (by omega) (by decide)

/-- No word spells an operand out of range. -/
theorem wf_of_operandsSpell {v : Word} {i : Instr} (h : OperandsSpell v i) : i.wf = true := by
  cases i with
  | lookup => rfl
  | encode k =>
    obtain ⟨-, rfl⟩ := h
    exact (wf_encode_iff _).mpr (cmdIdx v).isLt
  | decode k =>
    obtain ⟨-, rfl⟩ := h
    exact (wf_decode_iff _).mpr (cmdIdx v).isLt
  | packbits n =>
    obtain ⟨-, -, hcount⟩ := h
    exact (wf_packbits_iff n).mpr hcount
  | truncf k =>
    obtain ⟨-, -, hcount⟩ := h
    exact (wf_truncf_iff k).mpr hcount

/-- Decoding and encoding are inverse to each other between the well-formed commands and the words that decode. -/
theorem decode_eq_ok_iff_encode {v : Word} {i : Instr} : decode v = .ok i ↔ i.wf = true ∧ encode i = v := by
  constructor
  · intro h
    obtain ⟨hrsv, hop, hspell⟩ := decode_eq_ok_iff.mp h
    have hwf := wf_of_operandsSpell hspell
    exact ⟨hwf, (encode_eq_iff hwf).mpr ⟨hrsv, hop, hspell⟩⟩
  · rintro ⟨hwf, h⟩
    exact decode_eq_ok_iff.mpr ((encode_eq_iff hwf).mp h)

theorem decode_encode {i : Instr} (h : i.wf = true) : decode (encode i) = .ok i :=
  decode_eq_ok_iff_encode.mpr ⟨h, rfl⟩

/-- Settles O1: a word decodes to a command exactly where the command is well-formed and the word is its own. -/
theorem decodeInvertsEncode : Obligations.DecodeInvertsEncode :=
  ⟨fun _ => decode_encode, fun _ _ => decode_eq_ok_iff_encode.mp⟩

/-- Settles O4: each of the words is one that the encoder writes. -/
theorem sampleWordsDecode : Obligations.SampleWordsDecode :=
  ⟨decode_encode (i := .lookup) rfl, decode_encode (i := .encode 2) rfl, decode_encode (i := .encode 255) rfl,
    decode_encode (i := .decode 3) rfl, decode_encode (i := .packbits 4) rfl, decode_encode (i := .packbits 16) rfl,
    decode_encode (i := .truncf 3) rfl⟩

/-! ## The match and mask table -/

theorem cmdRsv_and (v u : Word) : cmdRsv (v &&& u) = cmdRsv v &&& cmdRsv u := BitVec.extractLsb'_and

theorem cmdOp_and (v u : Word) : cmdOp (v &&& u) = cmdOp v &&& cmdOp u := BitVec.extractLsb'_and

theorem cmdArg_and (v u : Word) : cmdArg (v &&& u) = cmdArg v &&& cmdArg u := BitVec.extractLsb'_and

theorem cmdIdx_and (v u : Word) : cmdIdx (v &&& u) = cmdIdx v &&& cmdIdx u := BitVec.extractLsb'_and

/-- The mask of ENCODE and DECODE keeps every field but IDX. -/
theorem and_indexedMask_eq_iff (v p : Word) :
    v &&& 0xFFFFFFFFFF00FFFF = p ↔ cmdRsv v = cmdRsv p ∧ cmdOp v = cmdOp p ∧ cmdArg v = cmdArg p ∧ 0 = cmdIdx p := by
  have hrsv : cmdRsv 0xFFFFFFFFFF00FFFF = BitVec.allOnes 40 := rfl
  have hop : cmdOp 0xFFFFFFFFFF00FFFF = BitVec.allOnes 8 := rfl
  have harg : cmdArg 0xFFFFFFFFFF00FFFF = BitVec.allOnes 8 := rfl
  have hidx : cmdIdx 0xFFFFFFFFFF00FFFF = 0#8 := rfl
  rw [word_eq_iff, cmdRsv_and, cmdOp_and, cmdArg_and, cmdIdx_and, hrsv, hop, harg, hidx, BitVec.and_allOnes,
    BitVec.and_allOnes, BitVec.and_allOnes, BitVec.and_zero]
  rfl

/-- The mask of PACKBITS and TRUNCF keeps every field but ARG. -/
theorem and_countedMask_eq_iff (v p : Word) :
    v &&& 0xFFFFFFFFFFFF00FF = p ↔ cmdRsv v = cmdRsv p ∧ cmdOp v = cmdOp p ∧ 0 = cmdArg p ∧ cmdIdx v = cmdIdx p := by
  have hrsv : cmdRsv 0xFFFFFFFFFFFF00FF = BitVec.allOnes 40 := rfl
  have hop : cmdOp 0xFFFFFFFFFFFF00FF = BitVec.allOnes 8 := rfl
  have harg : cmdArg 0xFFFFFFFFFFFF00FF = 0#8 := rfl
  have hidx : cmdIdx 0xFFFFFFFFFFFF00FF = BitVec.allOnes 8 := rfl
  rw [word_eq_iff, cmdRsv_and, cmdOp_and, cmdArg_and, cmdIdx_and, hrsv, hop, harg, hidx, BitVec.and_allOnes,
    BitVec.and_allOnes, BitVec.and_allOnes, BitVec.and_zero]
  rfl

/-- A command whose only operand is IDX is selected by its row of the match and mask table. -/
theorem exists_decode_indexed_iff {mk : Nat → Instr} {v p : Word} (hidx : cmdIdx p = 0)
    (hmk : ∀ k, decode v = .ok (mk k) ↔
      cmdRsv v = cmdRsv p ∧ cmdOp v = cmdOp p ∧ cmdArg v = cmdArg p ∧ k = (cmdIdx v).toNat) :
    (∃ k, decode v = .ok (mk k)) ↔ v &&& 0xFFFFFFFFFF00FFFF = p := by
  simp only [hmk, and_indexedMask_eq_iff, hidx, exists_and_left, exists_eq]

/-- A command whose only operand is a count is selected by its row of the match and mask table and the count's range. -/
theorem exists_decode_counted_iff {mk : Nat → Instr} {most : Nat} {v p : Word} (harg : cmdArg p = 0)
    (hmk : ∀ k, decode v = .ok (mk k) ↔
      cmdRsv v = cmdRsv p ∧ cmdOp v = cmdOp p ∧ k = (cmdArg v).toNat ∧ cmdIdx v = cmdIdx p ∧ 1 ≤ k ∧ k ≤ most) :
    (∃ k, decode v = .ok (mk k)) ↔
      v &&& 0xFFFFFFFFFFFF00FF = p ∧ 1 ≤ (cmdArg v).toNat ∧ (cmdArg v).toNat ≤ most := by
  simp only [hmk, and_countedMask_eq_iff, harg, exists_and_left, exists_eq_left, true_and, and_assoc]

/-- A command whose only operand is a count is selected by its row of the fields' table. -/
theorem decode_counted_iff {mk : Nat → Instr} {most n : Nat} {op : BitVec 8} {v : Word}
    (hmk : decode v = .ok (mk n) ↔
      cmdRsv v = 0 ∧ cmdOp v = op ∧ n = (cmdArg v).toNat ∧ cmdIdx v = 0 ∧ 1 ≤ n ∧ n ≤ most) :
    decode v = .ok (mk n) ↔
      v.extractLsb' 16 48 = 0 ∧ cmdOp v = op ∧ n = (cmdArg v).toNat ∧ 1 ≤ n ∧ n ≤ most := by
  rw [hmk, extractLsb'_16_48_eq_zero_iff]
  tauto

theorem decode_eq_lookup_iff (v : Word) : decode v = .ok .lookup ↔ v = 1 := by
  rw [decode_eq_ok_iff_encode, encode_lookup, eq_comm (a := v)]
  exact and_iff_right rfl

/-- Settles O2: the fields' table is `decode_eq_ok_iff`, and the match and mask table says the same of the word. -/
theorem decodeSelectsTheRowOfTheWord : Obligations.DecodeSelectsTheRowOfTheWord := fun v =>
  ⟨decode_eq_lookup_iff v,
    fun _ => decode_eq_ok_iff.trans (and_congr_right' and_left_comm),
    fun _ => decode_eq_ok_iff.trans (and_congr_right' and_left_comm),
    fun _ => decode_counted_iff decode_eq_ok_iff,
    fun _ => decode_counted_iff decode_eq_ok_iff,
    exists_decode_indexed_iff rfl fun _ => decode_eq_ok_iff,
    exists_decode_indexed_iff rfl fun _ => decode_eq_ok_iff,
    exists_decode_counted_iff rfl fun _ => decode_eq_ok_iff,
    exists_decode_counted_iff rfl fun _ => decode_eq_ok_iff⟩

/-! ## Illegal words -/

/-- The words that spell a command, by their fields (30_encoding.md R81). -/
theorem exists_decode_eq_ok_iff (v : Word) :
    (∃ i, decode v = .ok i) ↔ cmdRsv v = 0 ∧
      ((cmdOp v = 1 ∧ cmdArg v = 0 ∧ cmdIdx v = 0) ∨ ((cmdOp v = 2 ∨ cmdOp v = 3) ∧ cmdArg v = 0) ∨
        (cmdOp v = 4 ∧ cmdIdx v = 0 ∧ 1 ≤ (cmdArg v).toNat ∧ (cmdArg v).toNat ≤ 16) ∨
        (cmdOp v = 5 ∧ cmdIdx v = 0 ∧ 1 ≤ (cmdArg v).toNat ∧ (cmdArg v).toNat ≤ 4)) := by
  simp only [decode_eq_ok_iff]
  constructor
  · rintro ⟨i, hrsv, hop, hspell⟩
    refine ⟨hrsv, ?_⟩
    cases i with
    | lookup => exact .inl ⟨hop, hspell⟩
    | encode k => exact .inr (.inl ⟨.inl hop, hspell.1⟩)
    | decode k => exact .inr (.inl ⟨.inr hop, hspell.1⟩)
    | packbits n =>
      obtain ⟨rfl, hidx, hrange⟩ := hspell
      exact .inr (.inr (.inl ⟨hop, hidx, hrange⟩))
    | truncf k =>
      obtain ⟨rfl, hidx, hrange⟩ := hspell
      exact .inr (.inr (.inr ⟨hop, hidx, hrange⟩))
  · rintro ⟨hrsv, ⟨hop, hspell⟩ | ⟨hop | hop, harg⟩ | ⟨hop, hidx, hrange⟩ | ⟨hop, hidx, hrange⟩⟩
    · exact ⟨.lookup, hrsv, hop, hspell⟩
    · exact ⟨.encode _, hrsv, hop, harg, rfl⟩
    · exact ⟨.decode _, hrsv, hop, harg, rfl⟩
    · exact ⟨.packbits _, hrsv, hop, rfl, hidx, hrange⟩
    · exact ⟨.truncf _, hrsv, hop, rfl, hidx, hrange⟩

theorem performCommand_of_illegal {v : Word} (h : ∀ i, decode v ≠ .ok i) (s : State) :
    performCommand v s = .next (s.setStatus 0x0000005) := by
  cases hv : decode v with
  | ok i => exact absurd hv (h i)
  | error e =>
    simp only [performCommand, hv]
    rfl

/-- The list of 30_encoding.md R85. -/
def IllegalFields (v : Word) : Prop :=
  cmdOp v = 0x00 ∨ 0x06 ≤ (cmdOp v).toNat ∨ cmdRsv v ≠ 0 ∨
  (cmdOp v = 0x01 ∧ ((cmdArg v).toNat ≠ 0 ∨ cmdIdx v ≠ 0)) ∨
  ((cmdOp v = 0x02 ∨ cmdOp v = 0x03) ∧ (cmdArg v).toNat ≠ 0) ∨
  (cmdOp v = 0x04 ∧ (cmdIdx v ≠ 0 ∨ (cmdArg v).toNat = 0 ∨ 16 < (cmdArg v).toNat)) ∨
  (cmdOp v = 0x05 ∧ (cmdIdx v ≠ 0 ∨ (cmdArg v).toNat = 0 ∨ 4 < (cmdArg v).toNat))

/-- The list of R85 is the complement of what spells a command. -/
theorem forall_decode_ne_ok_iff (v : Word) : (∀ i, decode v ≠ .ok i) ↔ IllegalFields v := by
  rw [← not_exists, exists_decode_eq_ok_iff, IllegalFields]
  bv_omega

/-- Settles O3, by the list of R85 and what a CMD write of a word without a command does. -/
theorem illegalWordsOnlyRaiseIllegalCommand : Obligations.IllegalWordsOnlyRaiseIllegalCommand := by
  refine fun v => ⟨forall_decode_ne_ok_iff v, fun hill s rest hwf hhost => ?_⟩
  rw [step_eq_performNext s hwf, Scope.performNext_cons hhost, Scope.perform_write_cmd,
    performCommand_of_illegal ((forall_decode_ne_ok_iff v).mpr hill)]
  rfl

end Sys2Proof.Encoding
end

section
/-! SUPPORT. The proof that a command's outcome depends only on what it reads (30_encoding.md R86). -/

namespace Sys2Proof.Encoding

open Sys2Proof.Machine Sys2Proof.Safety

/-! ## Two runs side by side -/

theorem sameOrKept_same {α : Type} {a a' b : α} : sameOrKept a a' b b := .inl rfl

theorem sameOrKept_kept {α : Type} {a a' : α} : sameOrKept a a' a a' := .inr ⟨rfl, rfl⟩

/-- Two runs from `s` and `s'` have come to `t` and `t'`, and each register stands at the same value in both or at its
old one in both. -/
structure Tracks (s s' t t' : State) : Prop where
  qid : sameOrKept s.qid s'.qid t.qid t'.qid
  widlo : sameOrKept s.widlo s'.widlo t.widlo t'.widlo
  widhi : sameOrKept s.widhi s'.widhi t.widhi t'.widhi
  midx : sameOrKept s.midx s'.midx t.midx t'.midx
  plen : sameOrKept s.plen s'.plen t.plen t'.plen
  payload : sameOrKept s.payload s'.payload t.payload t'.payload
  frame : sameOrKept s.frame s'.frame t.frame t'.frame
  acc : sameOrKept s.acc s'.acc t.acc t'.acc
  errmin : sameOrKept s.errmin s'.errmin t.errmin t'.errmin
  errmax : sameOrKept s.errmax s'.errmax t.errmax t'.errmax
  vAt : ∀ j, sameOrKept (s.vAt j) (s'.vAt j) (t.vAt j) (t'.vAt j)

/-- Two outcomes are next states with the same STATUS whose other registers track. -/
def OutcomesTrack (s s' : State) (r r' : Result) : Prop :=
  ∃ t t', r = .next t ∧ r' = .next t' ∧ t'.status = t.status ∧ Tracks s s' t t'

section
variable {s s' t t' : State}

theorem Tracks.refl (s s' : State) : Tracks s s' s s' where
  qid := sameOrKept_kept
  widlo := sameOrKept_kept
  widhi := sameOrKept_kept
  midx := sameOrKept_kept
  plen := sameOrKept_kept
  payload := sameOrKept_kept
  frame := sameOrKept_kept
  acc := sameOrKept_kept
  errmin := sameOrKept_kept
  errmax := sameOrKept_kept
  vAt _ := sameOrKept_kept

theorem Tracks.setMidx (h : Tracks s s' t t') (x : BitVec 8) : Tracks s s' (t.setMidx x) (t'.setMidx x) :=
  { h with midx := sameOrKept_same }

theorem Tracks.setPlen (h : Tracks s s' t t') (x : BitVec 4) : Tracks s s' (t.setPlen x) (t'.setPlen x) :=
  { h with plen := sameOrKept_same }

theorem Tracks.setPayload (h : Tracks s s' t t') (x : Word) : Tracks s s' (t.setPayload x) (t'.setPayload x) :=
  { h with payload := sameOrKept_same }

theorem Tracks.setFrame (h : Tracks s s' t t') (x : BitVec 36) : Tracks s s' (t.setFrame x) (t'.setFrame x) :=
  { h with frame := sameOrKept_same }

theorem Tracks.setAcc (h : Tracks s s' t t') (x : Word) : Tracks s s' (t.setAcc x) (t'.setAcc x) :=
  { h with acc := sameOrKept_same }

theorem Tracks.setErr (h : Tracks s s' t t') (lo hi : Word) : Tracks s s' (t.setErr lo hi) (t'.setErr lo hi) :=
  { h with errmin := sameOrKept_same, errmax := sameOrKept_same }

theorem Tracks.drewNaN (h : Tracks s s' t t') : Tracks s s' t.drewNaN t'.drewNaN := { h with }

theorem Tracks.setStatus (h : Tracks s s' t t') (w : BitVec 28) : Tracks s s' (t.setStatus w) (t'.setStatus w) :=
  { h with }

theorem Tracks.complete (h : Tracks s s' t t') : OutcomesTrack s s' (complete t) (complete t') :=
  ⟨_, _, rfl, rfl, rfl, h.setStatus 0⟩

theorem Tracks.raise (h : Tracks s s' t t') (e : ErrorInfo) : OutcomesTrack s s' (raise e t) (raise e t') :=
  ⟨_, _, rfl, rfl, rfl, h.setStatus e.statusWord⟩

theorem vAt_setV (s : State) (x : Vector Word 16) {j : Nat} (hj : j < 16) : (s.setV x).vAt j = x[j] := by
  simp [State.vAt, hj]

/-- The loop of DECODE gives the fields' registers the same values in both runs and leaves the others. -/
theorem Tracks.setV_decodeFields (s s' : State) (cmd : Nat) (p : Word) (fs : List FieldSpec) :
    Tracks s s' (s.setV (decodeFields cmd p fs 0 s.v)) (s'.setV (decodeFields cmd p fs 0 s'.v)) := by
  refine { Tracks.refl s s' with vAt := fun j => ?_ }
  by_cases hj : j < 16
  · rw [vAt_setV s _ hj, vAt_setV s' _ hj, decodeFields_getElem, decodeFields_getElem]
    split
    · exact sameOrKept_same
    · rw [State.vAt, State.vAt, dif_pos hj, dif_pos hj]
      exact sameOrKept_kept
  · simp only [State.vAt, dif_neg hj]
    exact sameOrKept_same

/-! ## The commands -/

theorem execLookup_tracks (hcat : s.catalog = s'.catalog) (hqid : s.qid = s'.qid) :
    OutcomesTrack s s' (execLookup s) (execLookup s') := by
  have hidx : s'.lookupIdx = s.lookupIdx := by rw [State.lookupIdx, State.lookupIdx, hcat, hqid]
  rw [execLookup, execLookup, hidx]
  cases s.lookupIdx with
  | none => exact (Tracks.refl s s').raise _
  | some idx => exact ((Tracks.refl s s').setMidx _).complete

/-- The loop of ENCODE reads the registers of its fields and the draws to come. -/
theorem encodeFields_eq_of_vAt (hdraws : s.nanDraws = s'.nanDraws) {fs : List FieldSpec} {i : Nat}
    (hv : ∀ j, j < fs.length → s.vAt (i + j) = s'.vAt (i + j)) (p : Word) :
    encodeFields s' fs i p = encodeFields s fs i p := by
  induction fs generalizing i p with
  | nil => rfl
  | cons f rest ih =>
    have hhead : s.vAt i = s'.vAt i := hv 0 (by simp)
    have htail : ∀ j, j < rest.length → s.vAt (i + 1 + j) = s'.vAt (i + 1 + j) := fun j hj => by
      rw [Nat.add_right_comm, Nat.add_assoc]
      exact hv (j + 1) (by simpa using hj)
    simp only [encodeFields, hdraws, hhead, ih htail]

theorem raiseEncode_tracks (e : EncodeFailure) : OutcomesTrack s s' (raiseEncode e s) (raiseEncode e s') := by
  unfold raiseEncode
  split
  · exact ((Tracks.refl s s').setErr _ _).raise _
  · exact (Tracks.refl s s').raise _

theorem execEncode_tracks {idx : Nat} (hcat : s.catalog = s'.catalog) (hdraws : s.nanDraws = s'.nanDraws)
    (hv : ∀ d : Definition, s.catalog[idx]? = some d → ∀ j, j < d.fields.length → s.vAt j = s'.vAt j) :
    OutcomesTrack s s' (execEncode idx s) (execEncode idx s') := by
  have hdef : s'.cat idx = s.cat idx := by rw [State.cat, State.cat, hcat]
  rw [execEncode, execEncode, hdef]
  cases hd : s.cat idx with
  | none => exact (Tracks.refl s s').raise _
  | some d =>
    have hfields : encodeFields s' d.fields 0 0 = encodeFields s d.fields 0 0 :=
      encodeFields_eq_of_vAt hdraws (fun j hj => by rw [Nat.zero_add]; exact hv d hd j hj) 0
    simp only [hfields]
    cases encodeFields s d.fields 0 0 with
    | ok p => exact (((Tracks.refl s s').setPayload p).setPlen _ |>.setFrame _).complete
    | error e => exact raiseEncode_tracks e

theorem execDecode_tracks {idx : Nat} (hcat : s.catalog = s'.catalog) (hdraws : s.nanDraws = s'.nanDraws)
    (hplen : s.plen = s'.plen) (hpayload : s.payload = s'.payload) :
    OutcomesTrack s s' (execDecode idx s) (execDecode idx s') := by
  have hdef : s'.cat idx = s.cat idx := by rw [State.cat, State.cat, hcat]
  rw [execDecode, execDecode, hdef, ← hplen, ← hpayload, ← hdraws]
  cases s.cat idx with
  | none => exact (Tracks.refl s s').raise _
  | some d =>
    dsimp only
    split
    · exact (Tracks.refl s s').raise _
    · exact (Tracks.setV_decodeFields s s' s.nanDraws s.payload d.fields).drewNaN.complete

theorem packPairs_congr {n : Nat} (hlo : s.widlo = s'.widlo) (hhi : 8 < n → s.widhi = s'.widhi)
    (hv : ∀ j, j < n → s.vAt j = s'.vAt j) : s'.packPairs n = s.packPairs n := by
  refine List.map_congr_left fun j hj => ?_
  have hjn : j < n := List.mem_range.mp hj
  have hwid : s.wid j = s'.wid j := by
    unfold State.wid
    split
    · rw [hlo]
    · rw [hhi (by omega)]
  rw [hv j hjn, hwid]

theorem execPackbits_tracks {n : Nat} (hlo : s.widlo = s'.widlo) (hhi : 8 < n → s.widhi = s'.widhi)
    (hv : ∀ j, j < n → s.vAt j = s'.vAt j) : OutcomesTrack s s' (execPackbits n s) (execPackbits n s') := by
  rw [execPackbits, execPackbits, packPairs_congr hlo hhi hv]
  split
  · cases packBits (s.packPairs n) with
    | ok acc => exact ((Tracks.refl s s').setAcc acc).complete
    | error e => exact (Tracks.refl s s').raise _
  · exact (Tracks.refl s s').raise _

theorem execTruncf_tracks {k : Nat} (hdraws : s.nanDraws = s'.nanDraws) (hv : s.vAt 0 = s'.vAt 0) :
    OutcomesTrack s s' (execTruncf k s) (execTruncf k s') := by
  rw [execTruncf, execTruncf, hdraws, hv]
  cases cvt64to32 (drawAt s'.nanDraws 0).nan32 (s'.vAt 0) with
  | none => exact (Tracks.refl s s').raise _
  | some b => exact ((Tracks.refl s s').setAcc _).drewNaN.complete

theorem exec_tracks {i : Instr} (h : readsAgree i s s') : OutcomesTrack s s' (exec i s) (exec i s') := by
  obtain ⟨hcat, hdraws, hread⟩ := h
  cases i with
  | lookup => exact execLookup_tracks hcat hread
  | encode idx => exact execEncode_tracks hcat hdraws hread
  | decode idx => exact execDecode_tracks hcat hdraws hread.1 hread.2
  | packbits n =>
    obtain ⟨hlo, hhi, hv⟩ := hread
    exact execPackbits_tracks hlo hhi hv
  | truncf k => exact execTruncf_tracks hdraws hread

end

/-- Settles O50, by running each command from both states at once. -/
theorem commandsDependOnlyOnWhatTheyRead : Obligations.CommandsDependOnlyOnWhatTheyRead := by
  intro i s s' t hread hexec
  obtain ⟨u, t', hu, ht', hstatus, h⟩ := exec_tracks hread
  obtain rfl : t = u := by
    rw [hexec] at hu
    exact Host.Outcome.next.inj hu
  exact ⟨t', ht', hstatus, h.qid, h.widlo, h.widhi, h.midx, h.plen, h.payload, h.frame, h.acc, h.errmin, h.errmax, h.vAt⟩

end Sys2Proof.Encoding
end

section
/-! SUPPORT. The proofs of the statements about the host program's statements (30_encoding.md R87, R88). -/

namespace Sys2Proof.Encoding

open Sys2Proof.Machine Sys2Proof.Safety

/-! ## The statements of the commands and of the registers -/

theorem assembleCommand_of_wf {i : Instr} {w : Word} (hwf : i.wf = true) (hw : encode i = w) :
    assembleCommand i = some [.write 0x000 64 w] := by
  rw [assembleCommand, if_pos hwf, hw]
  rfl

theorem assembleCommand_of_not_wf {i : Instr} (hwf : ¬ i.wf = true) : assembleCommand i = none := if_neg hwf

theorem named_of_ne_reserved {r : Reg} (h : ∀ k, r ≠ .reserved k) : r.named = true := by
  cases r with
  | reserved k => exact absurd rfl (h k)
  | _ => rfl

/-! ## Decimals -/

/-- A decimal is a signed number of units over a power of ten, rounded once (30_encoding.md R88, log entry 8). -/
theorem toBinary64_eq (x : Decimal) : x.toBinary64 =
    ofMag64 x.negative (roundUnits frac64 inf64 (x.digits * 10 ^ x.up * one64) (10 ^ x.down)) := rfl

theorem sign_mul_eq_signed (s : Bool) (n : Nat) : (if s then -1 else 1) * (n : Int) = Scope.signed s n := by
  cases s <;> simp [Scope.signed]

/-- Settles O57, statement by statement. -/
theorem assembledStatements : Obligations.AssembledStatements := by
  refine ⟨rfl, fun idx => ⟨fun h => ?_, fun h => ?_⟩, fun idx => ⟨fun h => ?_, fun h => ?_⟩,
    fun n => ⟨fun h1 h16 => ?_, fun h => ?_⟩, fun k => ⟨fun h1 h4 => ?_, fun h => ?_⟩, fun _ => rfl,
    fun r hr => ⟨fun imm => if_pos (named_of_ne_reserved hr), if_pos (named_of_ne_reserved hr)⟩, fun _ _ => rfl,
    fun i x => ⟨x.toBinary64, rfl, ?_⟩⟩
  · exact assembleCommand_of_wf ((wf_encode_iff idx).mpr h) (encode_encode idx)
  · exact assembleCommand_of_not_wf (by rw [wf_encode_iff]; omega)
  · exact assembleCommand_of_wf ((wf_decode_iff idx).mpr h) (encode_decode idx)
  · exact assembleCommand_of_not_wf (by rw [wf_decode_iff]; omega)
  · exact assembleCommand_of_wf ((wf_packbits_iff n).mpr ⟨h1, h16⟩) (encode_packbits n)
  · exact assembleCommand_of_not_wf (by rw [wf_packbits_iff]; omega)
  · exact assembleCommand_of_wf ((wf_truncf_iff k).mpr ⟨h1, h4⟩) (encode_truncf k)
  · exact assembleCommand_of_not_wf (by rw [wf_truncf_iff]; omega)
  · have hd : 0 < 10 ^ x.down := by positivity
    rw [toBinary64_eq, sign_mul_eq_signed]
    exact ⟨Scope.msb_ofMag64_roundUnits _ _ _, Scope.roundsTo64_ofMag64_roundUnits _ hd,
      Scope.isInf64_ofMag64_roundUnits _ hd⟩

/-! ## `chk` -/

/-- Settles O59, by the two branches of `hostCheck`. -/
theorem chkStopsTheHostOnError : Obligations.ChkStopsTheHostOnError := by
  intro s rest hwf hhost
  have hstep : step s = .next (hostCheck (s.setHost rest)) := by
    rw [step_eq_performNext s hwf, Scope.performNext_cons hhost]
    rfl
  rw [hstep]
  exact ⟨fun hcode => congrArg _ (if_pos hcode), fun hcode => congrArg _ (if_neg hcode)⟩

/-! ## `setw` -/

/-- The sum of R88 as it is written there. -/
theorem widthSum_eq_sum (ws : List Nat) :
    widthSum ws = ∑ j ∈ Finset.range ws.length, ws.getD j 0 * 2 ^ (8 * j) := by
  induction ws with
  | nil => rfl
  | cons w rest ih =>
    rw [widthSum_cons, List.length_cons, Finset.sum_range_succ', ih, Finset.mul_sum, Nat.add_comm]
    simp only [List.getD_cons_zero, List.getD_cons_succ, Nat.mul_add, Nat.pow_add]
    congr 1
    · exact Finset.sum_congr rfl fun j _ => by ring
    · simp

theorem widthSum_take_eight (ws : List Nat) :
    widthSum (ws.take 8) = ∑ j ∈ Finset.range (min ws.length 8), ws.getD j 0 * 2 ^ (8 * j) := by
  rw [widthSum_eq_sum, List.length_take, Nat.min_comm]
  refine Finset.sum_congr rfl fun j hj => ?_
  rw [Finset.mem_range] at hj
  rw [List.getD_eq_getElem?_getD, List.getElem?_take_of_lt (by omega), ← List.getD_eq_getElem?_getD]

theorem widthSum_drop_eight (ws : List Nat) :
    widthSum (ws.drop 8) = ∑ j ∈ Finset.Ico 8 ws.length, ws.getD j 0 * 2 ^ (8 * (j - 8)) := by
  rw [widthSum_eq_sum, List.length_drop, Finset.sum_Ico_eq_sum_range]
  refine Finset.sum_congr rfl fun j _ => ?_
  rw [List.getD_eq_getElem?_getD, List.getElem?_drop, ← List.getD_eq_getElem?_getD, Nat.add_sub_cancel_left]

/-- `setw` writes the first eight widths to WIDLO and the others, where there are any, to WIDHI. -/
theorem assemble_setw (ws : List Nat) : assemble (.setw ws) =
    some (if ws.length ≤ 8 then [writeReg .widlo (packWidths (ws.take 8))]
      else [writeReg .widlo (packWidths (ws.take 8)), writeReg .widhi (packWidths (ws.drop 8))]) := by
  rw [assemble]
  split
  · rename_i h
    rw [List.take_of_length_le h]
  · rfl

/-- Up to eight widths of eight bits make a 64-bit number. -/
theorem widthSum_lt_two_pow {ws : List Nat} (hlen : ws.length ≤ 8) (hw : ∀ w ∈ ws, w < 256) : widthSum ws < 2 ^ 64 :=
  calc widthSum ws < 256 ^ ws.length := widthSum_lt ws hw
    _ ≤ 256 ^ 8 := Nat.pow_le_pow_right (by decide) hlen
    _ = 2 ^ 64 := by decide

/-- Byte `i` of the word `setw` writes is width `i`. -/
theorem extractBits_packWidths {ws : List Nat} (hlen : ws.length ≤ 8) (hw : ∀ w ∈ ws, w < 256) {i w : Nat}
    (hi : ws[i]? = some w) : (extractBits (packWidths ws) (8 * i) 8).toNat = w := by
  rw [extractBits_toNat, packWidths_toNat ws (widthSum_lt_two_pow hlen hw), Nat.pow_mul]
  exact widthSum_byte ws hw i w hi

/-- A state that holds the words of `setw` gives PACKBITS the listed widths (10_state.md R29). -/
theorem wid_of_packWidths {t : State} {ws : List Nat} (hlen : ws.length ≤ 16) (hw : ∀ w ∈ ws, w < 256)
    (hlo : t.widlo = packWidths (ws.take 8)) (hhi : 8 < ws.length → t.widhi = packWidths (ws.drop 8)) {i w : Nat}
    (hi : ws[i]? = some w) : t.wid i = w := by
  obtain ⟨hlt, -⟩ := List.getElem?_eq_some_iff.mp hi
  rw [State.wid]
  split
  · rename_i h8
    rw [hlo]
    refine extractBits_packWidths (by simp) (fun x hx => hw x (List.mem_of_mem_take hx)) ?_
    rwa [List.getElem?_take_of_lt h8]
  · rename_i h8
    rw [hhi (by omega)]
    refine extractBits_packWidths (by rw [List.length_drop]; omega) (fun x hx => hw x (List.mem_of_mem_drop hx)) ?_
    rwa [List.getElem?_drop, Nat.add_sub_cancel' (by omega)]

theorem run_succ_of_step {M : Host.Core} {s t : M.State} (k : Nat) (h : M.step s = .next t) :
    M.run (k + 1) s = M.run k t := by
  rw [Host.Core.run, h]

theorem step_of_write_widlo {s : State} {rest : List HostOp} {x : Word} (hwf : wellFormed s.catalog = true)
    (hhost : s.host = writeReg .widlo x :: rest) : step s = .next ((s.setHost rest).setWidlo x) :=
  Scope.step_of_write hwf .widlo hhost

theorem step_of_write_widhi {s : State} {rest : List HostOp} {x : Word} (hwf : wellFormed s.catalog = true)
    (hhost : s.host = writeReg .widhi x :: rest) : step s = .next ((s.setHost rest).setWidhi x) :=
  Scope.step_of_write hwf .widhi hhost

/-- The accesses of `setw`, performed, leave its words in WIDLO and, of more than eight widths, in WIDHI. -/
theorem run_setw {s : State} {ws : List Nat} (hwf : wellFormed s.catalog = true) :
    ∃ ops, assemble (.setw ws) = some ops ∧ ∀ rest, s.host = ops ++ rest →
      Sys2Proof.core.run ops.length s = .next { s with
        widlo := packWidths (ws.take 8)
        widhi := if ws.length ≤ 8 then s.widhi else packWidths (ws.drop 8)
        host := rest } := by
  refine ⟨_, assemble_setw ws, fun rest hhost => ?_⟩
  by_cases h8 : ws.length ≤ 8
  · rw [if_pos h8] at hhost ⊢
    rw [if_pos h8]
    exact run_succ_of_step (M := core) 0 (step_of_write_widlo hwf hhost)
  · rw [if_neg h8] at hhost ⊢
    rw [if_neg h8]
    have hlo := run_succ_of_step (M := core) 1 (step_of_write_widlo hwf hhost)
    exact hlo.trans (run_succ_of_step 0 (step_of_write_widhi hwf rfl))

/-- Settles O58, by the sums as the words written and the widths as their bytes. -/
theorem setwSetsTheWidths : Obligations.SetwSetsTheWidths := by
  constructor
  · intro ws
    refine ⟨packWidths (ws.take 8), packWidths (ws.drop 8), assemble_setw ws, fun hlo => ?_, fun hhi => ?_⟩
    · rw [← widthSum_take_eight] at hlo ⊢
      exact packWidths_toNat _ hlo
    · rw [← widthSum_drop_eight] at hhi ⊢
      exact packWidths_toNat _ hhi
  · intro s ws hwf hlen hw
    obtain ⟨ops, hops, hrun⟩ := run_setw (ws := ws) hwf
    refine ⟨ops, hops, fun rest hhost => ⟨_, hrun rest hhost, rfl, fun i w hi => ?_, fun h8 => if_pos h8⟩⟩
    exact wid_of_packWidths hlen hw rfl (fun h8 => if_neg (by omega)) hi

end Sys2Proof.Encoding
end

section
/-! SUPPORT. Which finite values of a numeric field convert: not the draw's choice, and all between two that do
(41_scalar_codec.md R131 to R135; 42_bitfield_packer.md R182; 40_catalog.md R107). -/

namespace Sys2Proof.MessageCatalog

open Sys2Proof.Machine Sys2Proof.Safety Sys2Proof.Scope

/-! ## The product with the scale -/

/-- The magnitude of the product of finite values, infinity's where it overflows. -/
def productMag (scale x : Word) : Nat := roundUnits frac64 inf64 (units64 x * units64 scale) one64

theorem productMag_le (scale x : Word) : productMag scale x ≤ inf64 := roundUnits_le_inf _ _ _ _

theorem units64_le_of_mag64_le {x y : Word} (h : mag64 x ≤ mag64 y) : units64 x ≤ units64 y :=
  (unitsOf_le_iff _ _ _).mpr h

theorem productMag_mono (scale : Word) {x y : Word} (h : mag64 x ≤ mag64 y) :
    productMag scale x ≤ productMag scale y := by
  refine roundUnits_mono one64_pos one64_pos ?_
  gcongr
  exact units64_le_of_mag64_le h

theorem productMag_of_mag64_eq_zero (scale : Word) {x : Word} (h : mag64 x = 0) : productMag scale x = 0 := by
  have hzero : roundFree frac64 0 one64 = 0 := roundFree_of_unitsOf (by decide) one64_pos (by simp)
  rw [productMag, units64, h, unitsOf_zero, Nat.zero_mul, roundUnits_eq, hzero, Nat.min_zero]

section
variable {scale x : Word} (hscale : isFinite64 scale = true) (hx : isFinite64 x = true)
include hscale hx

theorem mul64_eq_productMag (nan : Word) : mul64 nan x scale = ofMag64 (x.msb ^^ scale.msb) (productMag scale x) :=
  mul64_of_isFinite64 nan hx hscale

theorem mag64_mul64 (nan : Word) : mag64 (mul64 nan x scale) = productMag scale x := by
  rw [mul64_eq_productMag hscale hx, mag64_ofMag64 _ _ ((productMag_le scale x).trans_lt inf64_lt)]

theorem msb_mul64 (nan : Word) : (mul64 nan x scale).msb = (x.msb ^^ scale.msb) := by
  rw [mul64_eq_productMag hscale hx, msb_ofMag64 _ _ ((productMag_le scale x).trans_lt inf64_lt)]

end

/-! ## What converts to binary32 -/

/-- The product with the scale is finite and rounds to a finite binary32. -/
def FitsBinary32 (scale x : Word) : Prop :=
  productMag scale x < inf64 ∧ roundUnits frac32 inf32 (unitsOf frac64 (productMag scale x)) unitRatio < inf32

theorem isSome_cvt64to32_iff (nan : Word32) {p : Word} (h : mag64 p < inf64) :
    (cvt64to32 nan p).isSome = true ↔ roundUnits frac32 inf32 (units64 p) unitRatio < inf32 := by
  have hfin := (isFinite64_iff p).mpr h
  rw [cvt64to32, isNaN64_of_isFinite64 hfin, isInf64_of_isFinite64 hfin, lt_iff_le_and_ne]
  simp [roundUnits_le_inf]

theorem isSome_scaledBinary32_iff {scale x : Word} (hscale : isFinite64 scale = true) (hx : isFinite64 x = true)
    (draw : Draw) : (scaledBinary32 draw scale x).isSome = true ↔ FitsBinary32 scale x := by
  have hmag := mag64_mul64 hscale hx draw.nan64
  rw [scaledBinary32, isInf64, hmag, FitsBinary32, (productMag_le scale x).lt_iff_ne]
  by_cases h : productMag scale x = inf64
  · simp [h]
  · have hlt := lt_of_le_of_ne (productMag_le scale x) h
    rw [← hmag] at hlt
    simp [h, isSome_cvt64to32_iff _ hlt, units64, hmag]

theorem FitsBinary32.of_mag64_le {scale x y : Word} (h : mag64 x ≤ mag64 y) (hy : FitsBinary32 scale y) :
    FitsBinary32 scale x := by
  obtain ⟨hprod, hround⟩ := hy
  have hmono := productMag_mono scale h
  have hpos : 0 < unitRatio := by decide +kernel
  refine ⟨hmono.trans_lt hprod, (roundUnits_mono hpos hpos ?_).trans_lt hround⟩
  exact Nat.mul_le_mul_right _ ((unitsOf_le_iff _ _ _).mpr hmono)

/-! ## What converts to an integer -/

/-- The integer nearest to the product of finite values. -/
def scaledMag (scale x : Word) : Nat := rneDiv (unitsOf frac64 (productMag scale x)) one64

/-- `round(value * scale)` of finite values with a finite product. -/
def scaledValue (scale x : Word) : Int := signed (x.msb ^^ scale.msb) (scaledMag scale x)

/-- The product with the scale is finite and rounds to an integer from `lo` to `hi`. -/
def FitsInteger (lo hi : Int) (scale x : Word) : Prop :=
  productMag scale x < inf64 ∧ lo ≤ scaledValue scale x ∧ scaledValue scale x ≤ hi

theorem scaledInt_eq {scale x : Word} (hscale : isFinite64 scale = true) (hx : isFinite64 x = true) (draw : Draw) :
    scaledInt draw scale x = if productMag scale x < inf64 then some (scaledValue scale x) else none := by
  simp only [scaledInt, isFinite64, rneInt_eq, units64, mag64_mul64 hscale hx, msb_mul64 hscale hx, decide_eq_true_eq]
  rfl

theorem isSome_rawSint_iff {f : FieldSpec} {x : Word} (hscale : isFinite64 f.scale = true) (hx : isFinite64 x = true)
    (draw : Draw) : (rawSint draw f x).isSome = true ↔
      FitsInteger (-((1 <<< (f.w - 1) : Nat) : Int)) (((1 <<< (f.w - 1) : Nat) : Int) - 1) f.scale x := by
  rw [rawSint, scaledInt_eq hscale hx, FitsInteger]
  by_cases h : productMag f.scale x < inf64
  · simp [h, apply_ite Option.isSome]
  · simp [h]

theorem isSome_rawUint_iff {f : FieldSpec} {x : Word} (hscale : isFinite64 f.scale = true) (hx : isFinite64 x = true)
    (draw : Draw) : (rawUint draw f x).isSome = true ↔ FitsInteger 0 (((1 <<< f.w : Nat) : Int) - 1) f.scale x := by
  rw [rawUint, scaledInt_eq hscale hx, FitsInteger]
  by_cases h : productMag f.scale x < inf64
  · simp [h, apply_ite Option.isSome]
  · simp [h]

theorem scaledMag_mono (scale : Word) {x y : Word} (h : mag64 x ≤ mag64 y) : scaledMag scale x ≤ scaledMag scale y :=
  rneDiv_mono one64_pos one64_pos
    (Nat.mul_le_mul_right _ ((unitsOf_le_iff _ _ _).mpr (productMag_mono scale h)))

theorem scaledMag_of_mag64_eq_zero (scale : Word) {x : Word} (h : mag64 x = 0) : scaledMag scale x = 0 := by
  have hzero := rneDiv_mul_self 0 one64 one64_pos
  rw [Nat.zero_mul] at hzero
  rw [scaledMag, productMag_of_mag64_eq_zero scale h, unitsOf_zero, hzero]

theorem signed_xor (s t : Bool) (n : Nat) : signed (s ^^ t) n = if t then -signed s n else signed s n := by
  cases s <;> cases t <;> simp [signed]

/-- What grows with the magnitude from 0 on, taken with the value's sign, keeps the order of the values. -/
theorem signed_le_of_order64_le {g : Word → Nat} (hmono : ∀ {x y : Word}, mag64 x ≤ mag64 y → g x ≤ g y)
    (hzero : ∀ {x : Word}, mag64 x = 0 → g x = 0) {x y : Word} (h : order64 x ≤ order64 y) :
    signed x.msb (g x) ≤ signed y.msb (g y) := by
  rw [order64_eq, order64_eq] at h
  cases hx : x.msb <;> cases hy : y.msb <;> simp only [signed, hx, hy, if_true, if_false, Bool.false_eq_true] at h ⊢
  · exact_mod_cast hmono (by omega)
  · rw [hzero (x := x) (by omega), hzero (x := y) (by omega)]
    rfl
  · omega
  · have := hmono (x := y) (y := x) (by omega)
    omega

/-- Rounding the product is monotone, up or down with the sign of the scale. -/
theorem scaledValue_between {scale lo x hi : Word} (hlo : order64 lo ≤ order64 x) (hhi : order64 x ≤ order64 hi) :
    (scaledValue scale lo ≤ scaledValue scale x ∧ scaledValue scale x ≤ scaledValue scale hi) ∨
      (scaledValue scale hi ≤ scaledValue scale x ∧ scaledValue scale x ≤ scaledValue scale lo) := by
  have hl := signed_le_of_order64_le (scaledMag_mono scale) (scaledMag_of_mag64_eq_zero scale) hlo
  have hh := signed_le_of_order64_le (scaledMag_mono scale) (scaledMag_of_mag64_eq_zero scale) hhi
  simp only [scaledValue, signed_xor]
  split <;> omega

/-- The magnitude of a value between two others is at most one of theirs. -/
theorem mag64_le_of_between {lo x hi : Word} (hlo : order64 lo ≤ order64 x) (hhi : order64 x ≤ order64 hi) :
    mag64 x ≤ mag64 lo ∨ mag64 x ≤ mag64 hi := by
  have hl := natAbs_order64 lo
  have hx := natAbs_order64 x
  have hh := natAbs_order64 hi
  omega

theorem FitsBinary32.of_between {scale lo x hi : Word} (hlo : FitsBinary32 scale lo) (hhi : FitsBinary32 scale hi)
    (hlx : order64 lo ≤ order64 x) (hxh : order64 x ≤ order64 hi) : FitsBinary32 scale x :=
  (mag64_le_of_between hlx hxh).elim (fun h => hlo.of_mag64_le h) (fun h => hhi.of_mag64_le h)

theorem FitsInteger.of_between {a b : Int} {scale lo x hi : Word} (hlo : FitsInteger a b scale lo)
    (hhi : FitsInteger a b scale hi) (hlx : order64 lo ≤ order64 x) (hxh : order64 x ≤ order64 hi) :
    FitsInteger a b scale x := by
  obtain ⟨hprodLo, hloA, hloB⟩ := hlo
  obtain ⟨hprodHi, hhiA, hhiB⟩ := hhi
  have hprod : productMag scale x < inf64 := (mag64_le_of_between hlx hxh).elim
    (fun h => (productMag_mono scale h).trans_lt hprodLo) (fun h => (productMag_mono scale h).trans_lt hprodHi)
  refine ⟨hprod, ?_⟩
  rcases scaledValue_between (scale := scale) hlx hxh with ⟨h1, h2⟩ | ⟨h1, h2⟩ <;> omega

/-! ## The raw form -/

/-- What RawConv and BitsRaw ask of a value, a finite one for a numeric kind. -/
def Converts (f : FieldSpec) (x : Word) : Prop :=
  match f.kind with
  | .f32 => FitsBinary32 f.scale x
  | .sint => FitsInteger (-((1 <<< (f.w - 1) : Nat) : Int)) (((1 <<< (f.w - 1) : Nat) : Int) - 1) f.scale x
  | .uint => FitsInteger 0 (((1 <<< f.w : Nat) : Int) - 1) f.scale x
  | .trunc => FitsBinary32 f.scale x
  | .bits => f.w < 64 → x.toNat < 1 <<< f.w

/-- Whether a finite value converts does not depend on the draw. -/
theorem isSome_rawConv_iff {f : FieldSpec} {x : Word} (draw : Draw)
    (h : f.kind ≠ .bits → isFinite64 f.scale = true ∧ isFinite64 x = true) :
    (rawConv draw f x).isSome = true ↔ Converts f x := by
  cases hk : f.kind <;> simp only [hk, rawConv, Converts, ne_eq, reduceCtorEq, not_false_eq_true, forall_const] at h ⊢
  case f32 =>
    obtain ⟨hscale, hx⟩ := h
    simpa [rawF32] using isSome_scaledBinary32_iff hscale hx draw
  case sint =>
    obtain ⟨hscale, hx⟩ := h
    exact isSome_rawSint_iff hscale hx draw
  case uint =>
    obtain ⟨hscale, hx⟩ := h
    exact isSome_rawUint_iff hscale hx draw
  case trunc =>
    obtain ⟨hscale, hx⟩ := h
    simpa [rawTrunc] using isSome_scaledBinary32_iff hscale hx draw
  case bits => simp [bitsRaw, apply_ite Option.isSome, imp_iff_not_or]

/-- Rounding is monotone: between two values that convert all values do (40_catalog.md R107). -/
theorem Converts.of_between {f : FieldSpec} {lo x hi : Word} (hkind : f.kind ≠ .bits) (hlo : Converts f lo)
    (hhi : Converts f hi) (hlx : order64 lo ≤ order64 x) (hxh : order64 x ≤ order64 hi) : Converts f x := by
  cases hk : f.kind <;> simp only [hk, Converts] at hlo hhi ⊢
  case bits => exact absurd hk hkind
  case f32 => exact hlo.of_between hhi hlx hxh
  case trunc => exact hlo.of_between hhi hlx hxh
  case sint => exact hlo.of_between hhi hlx hxh
  case uint => exact hlo.of_between hhi hlx hxh

end Sys2Proof.MessageCatalog
end

section
/-! SUPPORT. The proofs of the statements about the catalog checks and what follows from them (40_catalog.md R104 to
R107). -/

namespace Sys2Proof.MessageCatalog

open Sys2Proof.Machine Sys2Proof.Safety Sys2Proof.Scope

/-! ## What each check says -/

/-- A symmetric relation holds of each element and all before it exactly where it holds of every two elements. -/
theorem forall_mem_take_iff {α : Type} {R : α → α → Prop} (hsymm : ∀ x y, R x y → R y x) (l : List α) :
    (∀ (i : Nat) (x : α), l[i]? = some x → ∀ y ∈ l.take i, R y x) ↔
      ∀ (i j : Nat) (x y : α), l[i]? = some x → l[j]? = some y → i ≠ j → R x y := by
  constructor
  · intro h i j x y hi hj hij
    have earlier : ∀ (a b : Nat) (u v : α), l[a]? = some u → l[b]? = some v → a < b → R u v := fun a b u v ha hb hab =>
      h b v hb u (List.mem_of_getElem? (i := a) (by rwa [List.getElem?_take_of_lt hab]))
    rcases Nat.lt_or_gt_of_ne hij with hlt | hgt
    · exact earlier i j x y hi hj hlt
    · exact hsymm y x (earlier j i y x hj hi hgt)
  · intro h i x hi y hy
    obtain ⟨j, hj⟩ := List.mem_iff_getElem?.mp hy
    rw [List.getElem?_take] at hj
    split at hj
    · exact h j i y x hj hi (by omega)
    · cases hj

/-- No two elements have the same key. -/
def Distinct {α β : Type} (key : α → β) (l : List α) : Prop :=
  ∀ (i j : Nat) (x y : α), l[i]? = some x → l[j]? = some y → i ≠ j → key x ≠ key y

theorem forall_wf1_iff (cat : Catalog) :
    (∀ (i : Nat) (d : Definition), cat[i]? = some d → wf1 cat i d = true) ↔ Distinct Definition.id cat := by
  simp only [wf1, List.all_eq_true, decide_eq_true_eq]
  exact forall_mem_take_iff (R := fun e d => e.id ≠ d.id) (fun _ _ => Ne.symm) cat

theorem forall_wf12Definition_iff (cat : Catalog) :
    (∀ (i : Nat) (d : Definition), cat[i]? = some d → wf12Definition cat i d = true) ↔
      Distinct Definition.name cat := by
  simp only [wf12Definition, List.all_eq_true, decide_eq_true_eq]
  exact forall_mem_take_iff (R := fun e d => e.name ≠ d.name) (fun _ _ => Ne.symm) cat

theorem numeric_iff (k : Kind) : k.numeric = true ↔ k ≠ .bits := by cases k <;> decide

theorem wf2_iff (d : Definition) :
    wf2 d = true ↔ (d.ext = false → d.id < 2 ^ 11) ∧ (d.ext = true → d.id < 2 ^ 29) := by
  cases h : d.ext <;> simp [wf2, h, Nat.shiftLeft_eq]

theorem wf3_iff (d : Definition) : wf3 d = true ↔ d.length ≤ 8 := decide_eq_true_iff

theorem wf4_iff (d : Definition) : wf4 d = true ↔ d.fields.length ≤ 16 := decide_eq_true_iff

theorem wf5_iff (f : FieldSpec) : wf5 f = true ↔
    (f.kind = .f32 → f.w = 32) ∧
    (f.kind = .sint ∨ f.kind = .uint → f.w = 8 ∨ f.w = 16 ∨ f.w = 32 ∨ f.w = 64) ∧
    (f.kind = .trunc → f.w = 8 ∨ f.w = 16 ∨ f.w = 24 ∨ f.w = 32) ∧
    (f.kind = .bits → 1 ≤ f.w ∧ f.w ≤ 64) := by
  cases h : f.kind <;> simp [wf5, Kind.widthLegal, h, or_assoc]

theorem one_le_of_wf5 {f : FieldSpec} (h : wf5 f = true) : 1 ≤ f.w := by
  rw [wf5_iff] at h
  cases hk : f.kind <;> simp [hk] at h <;> omega

theorem wf6_iff (f : FieldSpec) : wf6 f = true ↔ (f.kind ≠ .bits → f.off % 8 = 0) := by
  cases h : f.kind <;> simp [wf6, Kind.numeric, h]

theorem wf7_iff (d : Definition) (f : FieldSpec) : wf7 d f = true ↔ f.off + f.w ≤ 8 * d.length := decide_eq_true_iff

/-- Two ranges of bits that are not empty are disjoint exactly where no bit lies in both. -/
theorem disjoint_iff {f g : FieldSpec} (hf : 1 ≤ f.w) (hg : 1 ≤ g.w) :
    FieldSpec.disjoint f g = true ↔ ∀ b, ¬ (f.off ≤ b ∧ b < f.off + f.w ∧ g.off ≤ b ∧ b < g.off + g.w) := by
  rw [FieldSpec.disjoint, Bool.or_eq_true, decide_eq_true_iff, decide_eq_true_iff]
  constructor
  · intro h b
    omega
  · intro h
    have := h (max f.off g.off)
    omega

theorem disjoint_comm (f g : FieldSpec) : FieldSpec.disjoint f g = FieldSpec.disjoint g f := Bool.or_comm _ _

theorem forall_wf8_iff {d : Definition} (hw : ∀ (j : Nat) (f : FieldSpec), d.fields[j]? = some f → 1 ≤ f.w) :
    (∀ (j : Nat) (f : FieldSpec), d.fields[j]? = some f → wf8 d j f = true) ↔
      ∀ (i j : Nat) (f g : FieldSpec), d.fields[i]? = some f → d.fields[j]? = some g → i ≠ j →
        ∀ b, ¬ (f.off ≤ b ∧ b < f.off + f.w ∧ g.off ≤ b ∧ b < g.off + g.w) := by
  simp only [wf8, List.all_eq_true]
  rw [forall_mem_take_iff fun f g h => by rwa [disjoint_comm]]
  refine forall₄_congr fun i j f g => forall₃_congr fun hi hj _ => disjoint_iff (hw i f hi) (hw j g hj)

theorem forall_wf9_iff (d : Definition) :
    (∀ (j : Nat) (f : FieldSpec), d.fields[j]? = some f → wf9 d j f = true) ↔
      ∀ (i : Nat) (f g : FieldSpec), d.fields[i]? = some f → d.fields[i + 1]? = some g → f.kind = .bits →
        g.kind = .bits → g.off = f.off + f.w := by
  have hbits : ∀ k : Kind, k.numeric = false ↔ k = .bits := by intro k; cases k <;> decide
  have hbefore : ∀ (i : Nat) (f g : FieldSpec), d.fields[i]? = some f →
      (wf9 d (i + 1) g = true ↔ (f.kind = .bits → g.kind = .bits → g.off = f.off + f.w)) := by
    intro i f g hf
    simp only [wf9, Definition.fieldBefore, List.getLast?_take, hf, Nat.add_sub_cancel, Nat.add_one_ne_zero, if_false,
      Option.some_or, ← hbits]
    cases f.kind.numeric <;> cases g.kind.numeric <;> simp
  constructor
  · intro h i f g hf hg
    exact (hbefore i f g hf).mp (h (i + 1) g hg)
  · intro h j g hg
    cases j with
    | zero => rfl
    | succ i =>
      obtain ⟨hlt, -⟩ := List.getElem?_eq_some_iff.mp hg
      have hf : d.fields[i]? = some d.fields[i] := List.getElem?_eq_getElem (by omega)
      exact (hbefore i _ g hf).mpr (h i _ g hf hg)

theorem wf10_iff (f : FieldSpec) :
    wf10 f = true ↔ (f.kind ≠ .bits → isFinite64 f.scale = true ∧ isZero64 f.scale = false) := by
  cases h : f.kind <;> simp [wf10, Kind.numeric, h]

theorem wf11_iff (f : FieldSpec) : wf11 f = true ↔
    (f.kind = .bits → f.min.toNat ≤ f.max.toNat) ∧
    (f.kind ≠ .bits → isFinite64 f.min = true ∧ isFinite64 f.max = true ∧ le64 f.min f.max = true) := by
  cases h : f.kind <;> simp [wf11, Kind.numeric, h, and_assoc]

theorem forall_wf12Field_iff (d : Definition) :
    (∀ (j : Nat) (f : FieldSpec), d.fields[j]? = some f → wf12Field d j f = true) ↔
      Distinct FieldSpec.name d.fields := by
  simp only [wf12Field, List.all_eq_true, decide_eq_true_eq]
  exact forall_mem_take_iff (R := fun e d => e.name ≠ d.name) (fun _ _ => Ne.symm) d.fields

/-- WF13 of a field with finite scale and range: its one draw stands for all. -/
theorem wf13_iff {f : FieldSpec} (h10 : wf10 f = true) (h11 : wf11 f = true) : wf13 f = true ↔
    (f.kind = .bits → f.max.toNat < 2 ^ f.w) ∧
    (f.kind ≠ .bits → ∀ draw, (rawConv draw f f.min).isSome = true ∧ (rawConv draw f f.max).isSome = true) := by
  obtain ⟨-, hrange⟩ := (wf11_iff f).mp h11
  rw [wf10_iff] at h10
  by_cases hk : f.kind = .bits
  · simp [wf13, hk, Kind.numeric, Nat.shiftLeft_eq]
  · have hnum := (numeric_iff f.kind).mpr hk
    have : Nonempty Draw := ⟨drawAt 0 0⟩
    obtain ⟨hscale, -⟩ := h10 hk
    obtain ⟨hmin, hmax, -⟩ := hrange hk
    have hlo := fun draw => isSome_rawConv_iff (x := f.min) draw fun _ => ⟨hscale, hmin⟩
    have hhi := fun draw => isSome_rawConv_iff (x := f.max) draw fun _ => ⟨hscale, hmax⟩
    simp [wf13, hnum, hk, hlo, hhi]

/-! ## All checks -/

/-- The checks of one field by itself, WF5 to WF7, WF10, WF11 and WF13. -/
def FieldChecks (d : Definition) (f : FieldSpec) : Prop :=
  wf5 f = true ∧ wf6 f = true ∧ wf7 d f = true ∧ wf10 f = true ∧ wf11 f = true ∧ wf13 f = true

/-- The checks of one definition by itself: WF2 to WF4, and all of its fields. -/
def DefinitionChecks (d : Definition) : Prop :=
  wf2 d = true ∧ wf3 d = true ∧ wf4 d = true ∧
  ∀ (j : Nat) (f : FieldSpec), d.fields[j]? = some f →
    FieldChecks d f ∧ wf8 d j f = true ∧ wf9 d j f = true ∧ wf12Field d j f = true

theorem wellFormed_iff_checks (cat : Catalog) : wellFormed cat = true ↔
    ∀ (i : Nat) (d : Definition), cat[i]? = some d →
      i < Config.nMsgMax ∧ wf1 cat i d = true ∧ wf12Definition cat i d = true ∧ DefinitionChecks d := by
  rw [wellFormed_iff_passes]
  constructor
  · intro h i d hd
    have onDefinition := fun k => (h k i d hd).1
    have onField := fun k => (h k i d hd).2
    exact ⟨of_decide_eq_true (onDefinition .nMsg), onDefinition .wf1, onDefinition .wf12, onDefinition .wf2,
      onDefinition .wf3, onDefinition .wf4, fun j f hf =>
        ⟨⟨onField .wf5 j f hf, onField .wf6 j f hf, onField .wf7 j f hf, onField .wf10 j f hf, onField .wf11 j f hf,
          onField .wf13 j f hf⟩, onField .wf8 j f hf, onField .wf9 j f hf, onField .wf12 j f hf⟩⟩
  · intro h k i d hd
    obtain ⟨hindex, h1, h12, h2, h3, h4, hfields⟩ := h i d hd
    refine ⟨?_, fun j f hf => ?_⟩
    · cases k with
      | nMsg => exact decide_eq_true hindex
      | wf1 => exact h1
      | wf2 => exact h2
      | wf3 => exact h3
      | wf4 => exact h4
      | wf12 => exact h12
      | _ => rfl
    · obtain ⟨⟨h5, h6, h7, h10, h11, h13⟩, h8, h9, h12⟩ := hfields j f hf
      cases k with
      | wf5 => exact h5
      | wf6 => exact h6
      | wf7 => exact h7
      | wf8 => exact h8
      | wf9 => exact h9
      | wf10 => exact h10
      | wf11 => exact h11
      | wf12 => exact h12
      | wf13 => exact h13
      | _ => rfl

theorem fieldChecks_iff (d : Definition) (f : FieldSpec) : FieldChecks d f ↔
    f.off + f.w ≤ 8 * d.length ∧
    (f.kind = .f32 → f.w = 32) ∧
    (f.kind = .sint ∨ f.kind = .uint → f.w = 8 ∨ f.w = 16 ∨ f.w = 32 ∨ f.w = 64) ∧
    (f.kind = .trunc → f.w = 8 ∨ f.w = 16 ∨ f.w = 24 ∨ f.w = 32) ∧
    (f.kind = .bits → 1 ≤ f.w ∧ f.w ≤ 64 ∧ f.min.toNat ≤ f.max.toNat ∧ f.max.toNat < 2 ^ f.w) ∧
    (f.kind ≠ .bits → f.off % 8 = 0 ∧ isFinite64 f.scale = true ∧ isZero64 f.scale = false ∧
      isFinite64 f.min = true ∧ isFinite64 f.max = true ∧ le64 f.min f.max = true ∧
      ∀ draw, (rawConv draw f f.min).isSome = true ∧ (rawConv draw f f.max).isSome = true) := by
  rw [FieldChecks, wf5_iff, wf6_iff, wf7_iff]
  constructor
  · rintro ⟨⟨hf32, hint, htrunc, hbits⟩, halign, hend, h10, h11, h13⟩
    obtain ⟨hrangeBits, hrange⟩ := (wf11_iff f).mp h11
    obtain ⟨hmaxBits, hconv⟩ := (wf13_iff h10 h11).mp h13
    refine ⟨hend, hf32, hint, htrunc, fun hk => ?_, fun hk => ?_⟩
    · obtain ⟨hw1, hw64⟩ := hbits hk
      exact ⟨hw1, hw64, hrangeBits hk, hmaxBits hk⟩
    · obtain ⟨hfin, hzero⟩ := (wf10_iff f).mp h10 hk
      obtain ⟨hmin, hmax, hle⟩ := hrange hk
      exact ⟨halign hk, hfin, hzero, hmin, hmax, hle, hconv hk⟩
  · rintro ⟨hend, hf32, hint, htrunc, hbits, hnumeric⟩
    have h10 : wf10 f = true := (wf10_iff f).mpr fun hk => by
      obtain ⟨-, hfin, hzero, -⟩ := hnumeric hk
      exact ⟨hfin, hzero⟩
    have h11 : wf11 f = true := (wf11_iff f).mpr ⟨fun hk => by
      obtain ⟨-, -, hle, -⟩ := hbits hk
      exact hle, fun hk => by
      obtain ⟨-, -, -, hmin, hmax, hle, -⟩ := hnumeric hk
      exact ⟨hmin, hmax, hle⟩⟩
    refine ⟨⟨hf32, hint, htrunc, fun hk => ?_⟩, fun hk => (hnumeric hk).1, hend, h10, h11,
      (wf13_iff h10 h11).mpr ⟨fun hk => ?_, fun hk => ?_⟩⟩
    · obtain ⟨hw1, hw64, -, -⟩ := hbits hk
      exact ⟨hw1, hw64⟩
    · obtain ⟨-, -, -, hmax⟩ := hbits hk
      exact hmax
    · obtain ⟨-, -, -, -, -, -, hconv⟩ := hnumeric hk
      exact hconv

theorem definitionChecks_iff (d : Definition) : DefinitionChecks d ↔
    wf2 d = true ∧ wf3 d = true ∧ wf4 d = true ∧
    (∀ (i j : Nat) (f g : FieldSpec), d.fields[i]? = some f → d.fields[j]? = some g → i ≠ j →
      f.name ≠ g.name ∧ ∀ b, ¬ (f.off ≤ b ∧ b < f.off + f.w ∧ g.off ≤ b ∧ b < g.off + g.w)) ∧
    (∀ (i : Nat) (f g : FieldSpec), d.fields[i]? = some f → d.fields[i + 1]? = some g → f.kind = .bits →
      g.kind = .bits → g.off = f.off + f.w) ∧
    ∀ f ∈ d.fields, FieldChecks d f := by
  constructor
  · rintro ⟨h2, h3, h4, hfields⟩
    simp only [forall_and] at hfields
    obtain ⟨hself, h8, h9, h12⟩ := hfields
    rw [forall_wf8_iff fun j f hf => one_le_of_wf5 (hself j f hf).1] at h8
    rw [forall_wf9_iff] at h9
    rw [forall_wf12Field_iff] at h12
    refine ⟨h2, h3, h4, fun i j f g hf hg hij => ⟨h12 i j f g hf hg hij, h8 i j f g hf hg hij⟩, h9, fun f hf => ?_⟩
    obtain ⟨j, hj⟩ := List.mem_iff_getElem?.mp hf
    exact hself j f hj
  · rintro ⟨h2, h3, h4, hpairs, h9, hself⟩
    have hself' : ∀ (j : Nat) (f : FieldSpec), d.fields[j]? = some f → FieldChecks d f :=
      fun j f hf => hself f (List.mem_of_getElem? hf)
    have h8 := (forall_wf8_iff fun j f hf => one_le_of_wf5 (hself' j f hf).1).mpr
      fun i j f g hf hg hij => (hpairs i j f g hf hg hij).2
    have h12 := (forall_wf12Field_iff d).mpr fun i j f g hf hg hij => (hpairs i j f g hf hg hij).1
    exact ⟨h2, h3, h4, fun j f hf =>
      ⟨hself' j f hf, h8 j f hf, (forall_wf9_iff d).mpr h9 j f hf, h12 j f hf⟩⟩

theorem wellFormed_iff_definitions (cat : Catalog) : wellFormed cat = true ↔
    cat.length ≤ 256 ∧ Distinct Definition.id cat ∧ Distinct Definition.name cat ∧ ∀ d ∈ cat, DefinitionChecks d := by
  rw [wellFormed_iff_checks]
  constructor
  · intro h
    simp only [forall_and] at h
    obtain ⟨hindex, h1, h12, hdefs⟩ := h
    refine ⟨?_, (forall_wf1_iff cat).mp h1, (forall_wf12Definition_iff cat).mp h12, fun d hd => ?_⟩
    · by_contra hlen
      exact absurd (hindex 256 cat[256] (List.getElem?_eq_getElem (by omega))) (by decide)
    · obtain ⟨i, hi⟩ := List.mem_iff_getElem?.mp hd
      exact hdefs i d hi
  · rintro ⟨hlen, hid, hname, hdefs⟩ i d hd
    obtain ⟨hi, -⟩ := List.getElem?_eq_some_iff.mp hd
    exact ⟨hi.trans_le hlen, (forall_wf1_iff cat).mpr hid i d hd, (forall_wf12Definition_iff cat).mpr hname i d hd,
      hdefs d (List.mem_of_getElem? hd)⟩

/-- Settles O38: the checks regrouped by catalog, definition and field, each as its rule states it. -/
theorem wellFormedIsEveryCheck : Obligations.WellFormedIsEveryCheck := by
  intro cat
  have hpairs : Distinct Definition.id cat ∧ Distinct Definition.name cat ↔
      ∀ (i j : Nat) (d e : Definition), cat[i]? = some d → cat[j]? = some e → i ≠ j →
        d.id ≠ e.id ∧ d.name ≠ e.name := by
    simp only [Distinct, ← forall_and]
  rw [wellFormed_iff_definitions, ← and_assoc (a := Distinct Definition.id cat), hpairs]
  simp only [definitionChecks_iff, fieldChecks_iff, wf2_iff, wf3_iff, wf4_iff, and_assoc]

/-! ## The sum of the widths -/

/-- The payload bits of a field. -/
def bitRange (f : FieldSpec) : Finset Nat := Finset.Ico f.off (f.off + f.w)

theorem card_bitRange (f : FieldSpec) : (bitRange f).card = f.w := by simp [bitRange]

/-- Fields inside the first `n` bits that share no bit have widths that sum to at most `n`. -/
theorem sum_width_le {fs : List FieldSpec} {n : Nat} (hend : ∀ f ∈ fs, f.off + f.w ≤ n)
    (hdisjoint : ∀ (i j : Nat) (f g : FieldSpec), fs[i]? = some f → fs[j]? = some g → i ≠ j →
      ∀ b, ¬ (f.off ≤ b ∧ b < f.off + f.w ∧ g.off ≤ b ∧ b < g.off + g.w)) : (fs.map FieldSpec.w).sum ≤ n := by
  have hpairwise : ((Finset.univ : Finset (Fin fs.length)) : Set (Fin fs.length)).PairwiseDisjoint
      fun i => bitRange fs[i] := by
    intro i _ j _ hij
    refine Finset.disjoint_left.mpr fun b hbi hbj => ?_
    obtain ⟨hloi, hhii⟩ := Finset.mem_Ico.mp hbi
    obtain ⟨hloj, hhij⟩ := Finset.mem_Ico.mp hbj
    exact hdisjoint i j fs[i] fs[j] (by simp) (by simp) (by omega) b ⟨hloi, hhii, hloj, hhij⟩
  have hsub : Finset.univ.biUnion (fun i : Fin fs.length => bitRange fs[i]) ⊆ Finset.range n := by
    intro b hb
    obtain ⟨i, -, hbi⟩ := Finset.mem_biUnion.mp hb
    obtain ⟨-, hlt⟩ := Finset.mem_Ico.mp hbi
    exact Finset.mem_range.mpr (hlt.trans_le (hend fs[i] (List.getElem_mem _)))
  calc (fs.map FieldSpec.w).sum = ∑ i : Fin fs.length, (bitRange fs[i]).card := by
        rw [← Fin.sum_univ_fun_getElem]
        simp only [card_bitRange, Fin.getElem_fin]
    _ = (Finset.univ.biUnion fun i : Fin fs.length => bitRange fs[i]).card := (Finset.card_biUnion hpairwise).symm
    _ ≤ (Finset.range n).card := Finset.card_le_card hsub
    _ = n := Finset.card_range n

/-- Settles O40: the fields are disjoint ranges of the payload's bits. -/
theorem fieldWidthsFitThePayload : Obligations.FieldWidthsFitThePayload := by
  intro c d hwf hd
  obtain ⟨-, -, -, hdefs⟩ := (wellFormed_iff_definitions c).mp hwf
  obtain ⟨-, h3, -, hpairs, -, hfields⟩ := (definitionChecks_iff d).mp (hdefs d hd)
  have hlen := (wf3_iff d).mp h3
  have hsum : (d.fields.map FieldSpec.w).sum ≤ 8 * d.length :=
    sum_width_le (fun f hf => ((fieldChecks_iff d f).mp (hfields f hf)).1)
      fun i j f g hf hg hij => (hpairs i j f g hf hg hij).2
  exact ⟨hsum, by omega⟩

/-! ## The refusal of an ill-formed catalog -/

theorem firstFault_of_not_wellFormed {cat : Catalog} (h : wellFormed cat = false) : ∃ ft, firstFault cat = some ft := by
  simpa [wellFormed, Option.isSome_iff_exists] using h

theorem inOrder_nodup : WfCheck.inOrder.Nodup := by decide

/-- What a refusal names is the first failing check in the order of `WfCheck.inOrder`. -/
theorem firstFault_eq_some {cat : Catalog} {ft : CatalogFault} (h : firstFault cat = some ft) :
    firstBadDefinition ft.check cat cat 0 = some ft ∧
      ∀ before after, WfCheck.inOrder = before ++ ft.check :: after →
        ∀ k ∈ before, firstBadDefinition k cat cat 0 = none := by
  obtain ⟨before, k, after, horder, hbad, hnone⟩ := List.findSome?_eq_some_iff.mp h
  obtain ⟨rfl, -⟩ := firstBadDefinition_eq_some k cat cat 0 ft hbad
  refine ⟨hbad, fun before' after' horder' => ?_⟩
  obtain ⟨hbefore, hafter⟩ : ft.check ∉ before ∧ ft.check ∉ after := by
    have hnodup := inOrder_nodup
    rw [horder, List.nodup_middle, List.nodup_cons, List.mem_append, not_or] at hnodup
    exact hnodup.1
  rw [horder] at horder'
  obtain ⟨rfl, -⟩ := (List.append_cons_inj_of_notMem hbefore hafter).mp horder'
  exact hnone

/-- Settles O39. -/
theorem illFormedCatalogIsRefusedByName : Obligations.IllFormedCatalogIsRefusedByName := by
  refine ⟨fun s hwf => ?_, fun cat hwf => ?_, fun cat ft h => ⟨?_, ?_⟩⟩
  · obtain ⟨ft, hft⟩ := firstFault_of_not_wellFormed hwf
    exact ⟨ft, hft, by rw [step, hft], by rw [boot, hft]⟩
  · rw [boot, (wellFormed_eq_true_iff cat).mp hwf]
  · obtain ⟨hbad, -⟩ := firstFault_eq_some h
    obtain ⟨-, n, d, hn, hd, hfail⟩ := firstBadDefinition_eq_some _ cat cat 0 ft hbad
    rw [Nat.zero_add] at hn
    exact ⟨d, hn ▸ hd, hfail⟩
  · obtain ⟨-, hnone⟩ := firstFault_eq_some h
    intro before after horder k hk i d hd
    have hpasses := (firstBadDefinition_eq_none k cat cat 0).mp (hnone before after horder k hk) i d hd
    rwa [Nat.zero_add] at hpasses

end Sys2Proof.MessageCatalog
end

section
/-! SUPPORT. The proofs of the statements about LOOKUP, the catalog index of a command, the conversion of values in
range and the layout of bit fields (40_catalog.md R107, R110 to R113). -/

namespace Sys2Proof.MessageCatalog

open Sys2Proof.Machine Sys2Proof.Safety Sys2Proof.Scope

/-! ## LOOKUP -/

theorem lookupIdx_of_id {s : State} (hwf : wellFormed s.catalog = true) {idx : Nat} {d : Definition}
    (hd : s.catalog[idx]? = some d) (hid : d.id = s.qid.toNat) : s.lookupIdx = some idx := by
  obtain ⟨-, hdistinct, -⟩ := (wellFormed_iff_definitions _).mp hwf
  obtain ⟨hlt, hget⟩ := List.getElem?_eq_some_iff.mp hd
  refine List.findIdx?_eq_some_iff_getElem.mpr ⟨hlt, by simp [hget, hid], fun j hj => ?_⟩
  have hne := hdistinct j idx _ d (List.getElem?_eq_getElem (hj.trans hlt)) hd hj.ne
  rw [hid] at hne
  simpa using hne

theorem lookupIdx_eq_none {s : State} (h : ∀ d ∈ s.catalog, d.id ≠ s.qid.toNat) : s.lookupIdx = none :=
  List.findIdx?_eq_none_iff.mpr fun d hd => by simpa using h d hd

/-- Settles O6: ids are distinct, and an index is below 256. -/
theorem lookupFindsTheDefinition : Obligations.LookupFindsTheDefinition := by
  refine ⟨Encoding.decode_eq_lookup_iff, fun s hwf => ⟨fun idx d hd hid => ⟨?_, ?_⟩, fun hnone => ?_⟩⟩
  · simp only [exec, execLookup, lookupIdx_of_id hwf hd hid]
    rfl
  · exact Nat.mod_eq_of_lt (wellFormed_index_lt hwf hd)
  · simp only [exec, execLookup, lookupIdx_eq_none hnone]
    rfl

/-! ## The catalog index of a command -/

theorem exec_encode_of_cat_eq_none {s : State} {idx : Nat} (h : s.cat idx = none) :
    exec (.encode idx) s = .next (s.setStatus 1) := by
  simp only [exec, execEncode, h]
  rfl

theorem exec_decode_of_cat_eq_none {s : State} {idx : Nat} (h : s.cat idx = none) :
    exec (.decode idx) s = .next (s.setStatus 1) := by
  simp only [exec, execDecode, h]
  rfl

theorem statusCode_encode_ne_one {s t : State} {idx : Nat} (hcat : s.cat idx ≠ none)
    (h : exec (.encode idx) s = .next t) : statusCode t.status ≠ 1 := by
  rcases execEncode_cases idx s t h with ⟨hnone, _⟩ | ⟨_, _, ⟨_, _, rfl⟩ | ⟨_, _, ⟨_, _, rfl⟩ | ⟨_, rfl⟩⟩⟩
  · exact absurd hnone hcat
  · exact (by decide : statusCode 0 ≠ 1)
  · simp [statusCode_statusWord, ErrorKind.code]
  · simp [statusCode_statusWord, ErrorKind.code]

theorem statusCode_decode_ne_one {s t : State} {idx : Nat} (hcat : s.cat idx ≠ none)
    (h : exec (.decode idx) s = .next t) : statusCode t.status ≠ 1 := by
  rcases execDecode_cases idx s t h with ⟨hnone, _⟩ | ⟨_, _, ⟨_, rfl⟩ | ⟨_, rfl⟩⟩
  · exact absurd hnone hcat
  · simp [statusCode_statusWord, ErrorKind.code]
  · exact (by decide : statusCode 0 ≠ 1)

/-- Settles O7: no other end of either command has the code of UnknownMessage. -/
theorem unknownIndexRaisesUnknownMessage : Obligations.UnknownIndexRaisesUnknownMessage := by
  refine fun s idx => ⟨fun hle => ?_, fun hlt t h => ?_⟩
  · have hcat : s.cat idx = none := List.getElem?_eq_none hle
    exact ⟨exec_encode_of_cat_eq_none hcat, exec_decode_of_cat_eq_none hcat⟩
  · have hcat : s.cat idx ≠ none := fun hnone => absurd (List.getElem?_eq_none_iff.mp hnone) (by omega)
    exact h.elim (statusCode_encode_ne_one hcat) (statusCode_decode_ne_one hcat)

/-! ## Values in range convert -/

theorem inRange_bits_iff {f : FieldSpec} (hkind : f.kind = .bits) (x : Word) :
    inRange f x = true ↔ f.min.toNat ≤ x.toNat ∧ x.toNat ≤ f.max.toNat := by
  simp [inRange, hkind]

theorem inRange_numeric_iff {f : FieldSpec} (hkind : f.kind ≠ .bits) (x : Word) :
    inRange f x = true ↔ le64 f.min x = true ∧ le64 x f.max = true := by
  cases hk : f.kind
  case bits => exact absurd hk hkind
  all_goals simp [inRange, hk]

theorem order64_le_of_le64 {a b : Word} (h : le64 a b = true) : order64 a ≤ order64 b := by
  simp only [le64, Bool.and_eq_true, decide_eq_true_eq] at h
  exact h.2

/-- A value between two finite ones is finite. -/
theorem isFinite64_of_between {lo x hi : Word} (hlo : isFinite64 lo = true) (hhi : isFinite64 hi = true)
    (hlx : order64 lo ≤ order64 x) (hxh : order64 x ≤ order64 hi) : isFinite64 x = true := by
  rw [isFinite64_iff] at *
  rcases mag64_le_of_between hlx hxh with h | h <;> omega

theorem isSome_rawConv_of_inRange {d : Definition} {f : FieldSpec} {x : Word} (draw : Draw) (hf : FieldChecks d f)
    (hin : inRange f x = true) : (rawConv draw f x).isSome = true := by
  obtain ⟨-, -, -, -, hbits, hnumeric⟩ := (fieldChecks_iff d f).mp hf
  by_cases hk : f.kind = .bits
  · obtain ⟨-, -, -, hmax⟩ := hbits hk
    obtain ⟨-, hle⟩ := (inRange_bits_iff hk x).mp hin
    rw [isSome_rawConv_iff draw fun hne => absurd hk hne]
    simp only [Converts, hk, Nat.shiftLeft_eq, Nat.one_mul]
    exact fun _ => hle.trans_lt hmax
  · obtain ⟨-, hscale, -, hmin, hmax, -, hconv⟩ := hnumeric hk
    obtain ⟨hlo, hhi⟩ := (inRange_numeric_iff hk x).mp hin
    obtain ⟨hconvMin, hconvMax⟩ := hconv draw
    have hlx := order64_le_of_le64 hlo
    have hxh := order64_le_of_le64 hhi
    rw [isSome_rawConv_iff draw fun _ => ⟨hscale, hmin⟩] at hconvMin
    rw [isSome_rawConv_iff draw fun _ => ⟨hscale, hmax⟩] at hconvMax
    rw [isSome_rawConv_iff draw fun _ => ⟨hscale, isFinite64_of_between hmin hmax hlx hxh⟩]
    exact hconvMin.of_between hk hconvMax hlx hxh

theorem fieldChecks_of_wellFormed {c : Catalog} (hwf : wellFormed c = true) {d : Definition} (hd : d ∈ c)
    {f : FieldSpec} (hf : f ∈ d.fields) : FieldChecks d f := by
  obtain ⟨-, -, -, hdefs⟩ := (wellFormed_iff_definitions c).mp hwf
  obtain ⟨-, -, -, -, -, hfields⟩ := (definitionChecks_iff d).mp (hdefs d hd)
  exact hfields f hf

/-- Under a well-formed catalog the range check is the only one that a field of ENCODE fails. -/
theorem encodeField_error_eq {d : Definition} {f : FieldSpec} {draw : Draw} {x : Word} {e : FieldError}
    (hf : FieldChecks d f) (h : encodeField draw f x = .error e) : e = .outOfRange 0 := by
  rcases encodeField_eq_error.mp h with ⟨-, he⟩ | ⟨hin, hnone, -⟩
  · exact he
  · have hsome := isSome_rawConv_of_inRange draw hf hin
    rw [hnone] at hsome
    cases hsome

theorem encode_sub_and_code {s t : State} {idx : Nat} (hwf : wellFormed s.catalog = true)
    (h : exec (.encode idx) s = .next t) : statusSub t.status ≠ 1 ∧ statusCode t.status ≠ 4 := by
  rcases execEncode_cases idx s t h with ⟨_, rfl⟩ | ⟨d, hd, ⟨_, _, rfl⟩ | ⟨e, he, hfail⟩⟩
  · exact (by decide : statusSub 1 ≠ 1 ∧ statusCode 1 ≠ 4)
  · exact (by decide : statusSub 0 ≠ 1 ∧ statusCode 0 ≠ 4)
  · obtain ⟨hfield, draw, x, herror⟩ := encodeFields_error_field he
    have hchecks := fieldChecks_of_wellFormed hwf (List.mem_of_getElem? hd) (List.mem_of_getElem? hfield)
    have hsub := encodeField_error_eq hchecks herror
    have hindex : e.index < 256 := ((List.getElem?_eq_some_iff.mp hfield).1.trans_le
      (wellFormed_fieldCount_le hwf hd)).trans (by decide)
    rcases hfail with ⟨sub, hsub', rfl⟩ | ⟨hover, _⟩
    · obtain rfl : sub = 0 := by
        rw [hsub] at hsub'
        cases hsub'
        rfl
      simp [statusSub_statusWord, statusCode_statusWord, hindex, ErrorKind.code]
    · rw [hsub] at hover
      cases hover

/-- V[0] holds 2^128 - 2^103, the least magnitude that binary32 does not reach. -/
def truncfOverflowState : State := { State.afterReset [] with v := Vector.replicate 16 0x47EFFFFFF0000000 }

theorem truncf_can_leave_sub_one : ∃ t, exec (.truncf 3) truncfOverflowState = .next t ∧
    statusCode t.status = 2 ∧ statusSub t.status = 1 := by
  have hnone : cvt64to32 (drawAt truncfOverflowState.nanDraws 0).nan32 (truncfOverflowState.vAt 0) = none := by
    decide +kernel
  refine ⟨truncfOverflowState.setStatus 0x1000002, ?_, by decide, by decide⟩
  simp only [exec, execTruncf, hnone]
  rfl

/-- V[0] holds 2, and its width is 1. -/
def packbitsOverflowState : State := { State.afterReset [] with widlo := 1, v := Vector.replicate 16 2 }

theorem packbits_can_leave_bitFieldOverflow :
    ∃ t, exec (.packbits 1) packbitsOverflowState = .next t ∧ statusCode t.status = 4 :=
  ⟨_, rfl, by decide⟩

/-- Settles O10: both ends of a range convert, and rounding is monotone. -/
theorem inRangeValuesAlwaysConvert : Obligations.InRangeValuesAlwaysConvert := by
  refine ⟨fun c d f draw x hwf hd hf hin => ?_, fun s t idx hwf h => encode_sub_and_code hwf h,
    ⟨truncfOverflowState, truncf_can_leave_sub_one⟩, packbitsOverflowState, packbits_can_leave_bitFieldOverflow⟩
  exact isSome_rawConv_of_inRange draw (fieldChecks_of_wellFormed hwf hd hf) hin

/-! ## Fields of the payload -/

/-- What ENCODE of one field asks and leaves: the value's raw form is the field's bits of the payload. -/
theorem encode_field {s t : State} {idx i : Nat} {d : Definition} {f : FieldSpec} (hwf : wellFormed s.catalog = true)
    (hd : s.catalog[idx]? = some d) (h : exec (.encode idx) s = .next t) (hst : t.status = 0)
    (hf : d.fields[i]? = some f) :
    ∃ r, rawConv (drawAt s.nanDraws i) f (s.vAt i) = some r ∧
      extractBits t.payload f.off f.w = extractBits r 0 f.w := by
  have hp := encodeFields_of_exec_encode hd h hst
  obtain ⟨raws, hlen, hraw, -⟩ := (encodeFields_eq_ok s d.fields 0 0 t.payload).mp hp
  obtain ⟨hi, -⟩ := List.getElem?_eq_some_iff.mp hf
  obtain ⟨-, hr⟩ := encodeField_eq_ok.mp (hraw i f _ hf (List.getElem?_eq_getElem (hlen ▸ hi)))
  rw [Nat.zero_add] at hr
  refine ⟨_, hr, ?_⟩
  ext k hk
  simp only [← BitVec.getLsbD_eq_getElem, getLsbD_extractBits, Nat.zero_add]
  by_cases hkw : k < f.w
  · rw [getLsbD_encodeFields hwf hd hp hf hr hkw]
  · simp [hkw]

theorem bitsRaw_eq_some {f : FieldSpec} {x r : Word} (hw : f.w ≤ 64) (h : bitsRaw f x = some r) :
    x.toNat < 2 ^ f.w ∧ r.toNat = x.toNat := by
  rw [bitsRaw, Nat.shiftLeft_eq, Nat.one_mul] at h
  split at h <;> rename_i hfit
  · cases h
  · have hx : x.toNat < 2 ^ f.w := by
      rcases Nat.lt_or_eq_of_le hw with hlt | heq
      · omega
      · rw [heq]
        exact x.isLt
    cases h
    exact ⟨hx, by rw [extractBits_toNat, Nat.pow_zero, Nat.div_one, Nat.mod_eq_of_lt hx]⟩

/-- A BITS field of the payload is its value as a number (42_bitfield_packer.md R181). -/
theorem encode_bits_field {s t : State} {idx i : Nat} {d : Definition} {f : FieldSpec}
    (hwf : wellFormed s.catalog = true) (hd : s.catalog[idx]? = some d) (h : exec (.encode idx) s = .next t)
    (hst : t.status = 0) (hf : d.fields[i]? = some f) (hkind : f.kind = .bits) :
    (s.vAt i).toNat < 2 ^ f.w ∧ t.payload.toNat / 2 ^ f.off % 2 ^ f.w = (s.vAt i).toNat := by
  obtain ⟨r, hr, hpayload⟩ := encode_field hwf hd h hst hf
  rw [rawConv, hkind] at hr
  obtain ⟨hx, hrx⟩ := bitsRaw_eq_some (wellFormed_width hwf hd hf).2 hr
  refine ⟨hx, ?_⟩
  rw [← extractBits_toNat, hpayload, extractBits_toNat, hrx, Nat.pow_zero, Nat.div_one, Nat.mod_eq_of_lt hx]

/-! ## A run of BITS fields -/

/-- The pairs of value and width of the fields `fs`, the first of them with the value `v k`. -/
def runPairs (v : Nat → Word) (fs : List FieldSpec) (k : Nat) : List (Word × Nat) :=
  (fs.zipIdx k).map fun q => (v q.2, q.1.w)

theorem map_snd_runPairs (v : Nat → Word) (fs : List FieldSpec) (k : Nat) :
    (runPairs v fs k).map Prod.snd = fs.map FieldSpec.w := by
  induction fs generalizing k with
  | nil => rfl
  | cons f rest ih => exact congrArg (f.w :: ·) (ih (k + 1))

/-- Fields that stand end to end from `off` on compose to the bits of `p` from `off` on. -/
theorem packValue_runPairs {p : Nat} {v : Nat → Word} {fs : List FieldSpec} {k off : Nat}
    (hhead : ∀ f, fs[0]? = some f → f.off = off)
    (hnext : ∀ (i : Nat) (f g : FieldSpec), fs[i]? = some f → fs[i + 1]? = some g → g.off = f.off + f.w)
    (hvalue : ∀ (i : Nat) (f : FieldSpec), fs[i]? = some f → p / 2 ^ f.off % 2 ^ f.w = (v (k + i)).toNat) :
    packValue (runPairs v fs k) = p / 2 ^ off % 2 ^ (fs.map FieldSpec.w).sum := by
  induction fs generalizing k off with
  | nil => simp [runPairs, packValue, Nat.mod_one]
  | cons f rest ih =>
    obtain rfl := hhead f rfl
    have hrest := ih (k := k + 1) (off := f.off + f.w) (fun g hg => hnext 0 f g rfl hg)
      (fun i g g' hg hg' => hnext (i + 1) g g' hg hg')
      (fun i g hg => by rw [Nat.add_assoc, Nat.add_comm 1]; exact hvalue (i + 1) g hg)
    have hfirst := hvalue 0 f rfl
    calc packValue (runPairs v (f :: rest) k)
        = (v k).toNat + 2 ^ f.w * packValue (runPairs v rest (k + 1)) := rfl
      _ = p / 2 ^ f.off % 2 ^ f.w + 2 ^ f.w * (p / 2 ^ f.off / 2 ^ f.w % 2 ^ (rest.map FieldSpec.w).sum) := by
        rw [hrest, hfirst, Nat.add_zero, Nat.pow_add, Nat.div_div_eq_div_mul]
      _ = p / 2 ^ f.off % 2 ^ ((f :: rest).map FieldSpec.w).sum := by
        rw [List.map_cons, List.sum_cons, Nat.pow_add, Nat.mod_mul]

theorem mem_runPairs {v : Nat → Word} {fs : List FieldSpec} {q : Word × Nat} (h : q ∈ runPairs v fs 0) :
    ∃ i f, fs[i]? = some f ∧ q = (v i, f.w) := by
  obtain ⟨⟨f, i⟩, hmem, rfl⟩ := List.mem_map.mp h
  exact ⟨i, f, List.mem_zipIdx_iff_getElem?.mp hmem, rfl⟩

theorem getElem?_of_run {α : Type} {l : List α} {a m i : Nat} {x : α} (h : ((l.drop a).take m)[i]? = some x) :
    l[a + i]? = some x := by
  rw [List.getElem?_take, List.getElem?_drop] at h
  split at h
  · exact h
  · cases h

theorem sum_width_run_le {cat : Catalog} (hwf : wellFormed cat = true) {d : Definition} (hd : d ∈ cat) (a m : Nat) :
    (((d.fields.drop a).take m).map FieldSpec.w).sum ≤ 64 := by
  obtain ⟨-, h64⟩ := fieldWidthsFitThePayload cat d hwf hd
  have hsub : ((d.fields.drop a).take m).Sublist d.fields := (List.take_sublist _ _).trans (List.drop_sublist _ _)
  exact ((hsub.map FieldSpec.w).sum_le_sum fun _ _ => Nat.zero_le _).trans h64

/-- WF9: a BITS field starts where the one before it ends. -/
theorem wellFormed_contiguous {cat : Catalog} (hwf : wellFormed cat = true) {d : Definition} (hd : d ∈ cat) {i : Nat}
    {f g : FieldSpec} (hf : d.fields[i]? = some f) (hg : d.fields[i + 1]? = some g) (hkf : f.kind = .bits)
    (hkg : g.kind = .bits) : g.off = f.off + f.w := by
  obtain ⟨-, -, -, hdefs⟩ := (wellFormed_iff_definitions _).mp hwf
  obtain ⟨-, -, -, -, hcontiguous, -⟩ := (definitionChecks_iff d).mp (hdefs d hd)
  exact hcontiguous i f g hf hg hkf hkg

/-- Settles O14: the fields of the run stand end to end, each with its value as its bits. -/
theorem runOfBitsIsPackBits : Obligations.RunOfBitsIsPackBits := by
  intro s t idx a m d f0 hwf hd h hst hf0 _ _ hbits
  have hmem := List.mem_of_getElem? hd
  have hsum := sum_width_run_le hwf hmem a m
  have hindex : ∀ (i : Nat) (f : FieldSpec), ((d.fields.drop a).take m)[i]? = some f → d.fields[a + i]? = some f :=
    fun _ _ => getElem?_of_run
  have hkind : ∀ (i : Nat) (f : FieldSpec), ((d.fields.drop a).take m)[i]? = some f → f.kind = .bits :=
    fun i f hf => hbits f (List.mem_of_getElem? hf)
  have hplaced := fun i f hf => encode_bits_field hwf hd h hst (hindex i f hf) (hkind i f hf)
  generalize (d.fields.drop a).take m = run at *
  have hfits : ∀ q ∈ runPairs (fun n => s.vAt (a + n)) run 0, q.1.toNat < 2 ^ q.2 := fun q hq => by
    obtain ⟨i, f, hf, rfl⟩ := mem_runPairs hq
    exact (hplaced i f hf).1
  obtain ⟨acc, hacc⟩ := (packFrom_isOk _ 0 0 0).mpr hfits
  refine ⟨acc, hacc, ?_⟩
  have hnumber := packFrom_toNat _ 0 0 acc 0 (by decide) (by rwa [map_snd_runPairs, Nat.zero_add]) hacc
  rw [hnumber, packValue_runPairs (p := t.payload.toNat) (off := f0.off)]
  · simp
  · intro f hf
    obtain rfl : f0 = f := Option.some.inj (hf0.symm.trans (hindex 0 f hf))
    rfl
  · intro i f g hf hg
    exact wellFormed_contiguous hwf hmem (hindex i f hf) (hindex (i + 1) g hg) (hkind i f hf) (hkind (i + 1) g hg)
  · intro i f hf
    rw [Nat.zero_add]
    exact (hplaced i f hf).2

/-! ## The control register message -/

/-- Kind, offset and width of each field, the table of 40_catalog.md R113. -/
def controlRegisterRows : List (Kind × Nat × Nat) :=
  [(.f32, 0, 32), (.bits, 32, 3), (.bits, 35, 3), (.bits, 38, 1), (.bits, 39, 1), (.trunc, 40, 24)]

theorem controlRegisterShape_field {d : Definition} (h : controlRegisterShape d = true) {i : Nat} {k : Kind}
    {off w : Nat} (hi : controlRegisterRows[i]? = some (k, off, w)) :
    ∃ f, d.fields[i]? = some f ∧ f.kind = k ∧ f.off = off ∧ f.w = w := by
  rw [controlRegisterShape, Bool.and_eq_true, decide_eq_true_iff, decide_eq_true_iff] at h
  obtain ⟨-, hfields⟩ := h
  rw [controlRegisterRows, ← hfields, List.getElem?_map, Option.map_eq_some_iff] at hi
  obtain ⟨f, hf, hrow⟩ := hi
  cases hrow
  exact ⟨f, hf, rfl, rfl, rfl⟩

/-- Settles O16: the four bit fields make up byte 4, and the kept bytes of the resistance the bytes above it. -/
theorem controlRegisterLayout : Obligations.ControlRegisterLayout := by
  intro s t idx d res hwf hd hshape hres h hst
  constructor
  · have hbits : ∀ i off w, controlRegisterRows[i]? = some (.bits, off, w) →
        t.payload.toNat / 2 ^ off % 2 ^ w = (s.vAt i).toNat := by
      intro i off w hi
      obtain ⟨f, hf, hk, rfl, rfl⟩ := controlRegisterShape_field hshape hi
      exact (encode_bits_field hwf hd h hst hf hk).2
    have h1 := hbits 1 32 3 rfl
    have h2 := hbits 2 35 3 rfl
    have h3 := hbits 3 38 1 rfl
    have h4 := hbits 4 39 1 rfl
    rw [BitVec.extractLsb'_toNat, Nat.shiftRight_eq_div_pow]
    omega
  · obtain ⟨f, hf, hk, hoff, hw⟩ := controlRegisterShape_field hshape (i := 5) rfl
    obtain rfl : res = f := Option.some.inj (hres.symm.trans hf)
    obtain ⟨r, hr, hpayload⟩ := encode_field hwf hd h hst hres
    rw [rawConv, hk] at hr
    obtain ⟨c, hc, rfl⟩ := Option.map_eq_some_iff.mp hr
    refine ⟨c, hc, ?_⟩
    rw [hoff, hw] at hpayload
    ext k hk
    have hbit := congrArg (fun p => p.getLsbD k) hpayload
    simp only [getLsbD_extractBits, hk, decide_true, Bool.true_and] at hbit
    rw [BitVec.getElem_extractLsb', hbit, BitVec.getElem_extractLsb', BitVec.getLsbD_setWidth,
      BitVec.getLsbD_ushiftRight, decide_eq_true (by omega), Bool.true_and, Nat.zero_add]

end Sys2Proof.MessageCatalog
end

section
/-! SUPPORT. The proofs of the statements about the range check and the raw conversions (41_scalar_codec.md R131 to
R135; 42_bitfield_packer.md R182). -/

namespace Sys2Proof.ScalarCodec

open Sys2Proof.Machine Sys2Proof.Safety Sys2Proof.Scope Sys2Proof.MessageCatalog

/-! ## The range check -/

/-- The order tells the zeros apart neither on the right nor on the left. -/
theorem le64_zeros (x : Word) :
    le64 x 0x8000000000000000 = le64 x 0x0000000000000000 ∧ le64 0x8000000000000000 x = le64 0x0000000000000000 x := by
  have hnan : isNaN64 0x8000000000000000 = isNaN64 0x0000000000000000 := by decide
  have horder : order64 0x8000000000000000 = order64 0x0000000000000000 := by decide
  simp only [le64, hnan, horder, and_self]

/-- Settles O18: both zeros have the place 0 in the order, and no comparison with a NaN holds. -/
theorem rangeCheckComparesEngineeringValues : Obligations.RangeCheckComparesEngineeringValues := by
  intro f x
  refine ⟨fun hk => inRange_bits_iff hk x, fun hk => ⟨inRange_numeric_iff hk x, fun hnan => ?_, ?_⟩⟩
  · rw [Bool.eq_false_iff, Ne, inRange_numeric_iff hk, le64_of_isNaN64 (.inr hnan)]
    exact fun ⟨hmin, _⟩ => Bool.false_ne_true hmin
  · obtain ⟨hmin, -⟩ := le64_zeros f.min
    obtain ⟨-, hmax⟩ := le64_zeros f.max
    rw [Bool.eq_iff_iff, inRange_numeric_iff hk, inRange_numeric_iff hk, hmin, hmax]

/-! ## The integer kinds -/

theorem ofInt_eq_ofNat_toNat {r : Int} (h : 0 ≤ r) : BitVec.ofInt 64 r = BitVec.ofNat 64 r.toNat := by
  rw [← BitVec.ofInt_natCast, Int.toNat_of_nonneg h]

theorem twosComplement_eq (w : Nat) (r : Int) : twosComplement w r = BitVec.ofNat 64 (r % 2 ^ w).toNat := by
  have h : 0 ≤ r % 2 ^ w := Int.emod_nonneg _ (by positivity)
  rw [← ofInt_eq_ofNat_toNat h, twosComplement, Nat.one_shiftLeft]
  push_cast
  rfl

/-- SINT: the two's complement of the rounded product, where that is finite and fits (41_scalar_codec.md R132). -/
theorem rawConv_sint {f : FieldSpec} (hk : f.kind = .sint) (draw : Draw) (x : Word) :
    rawConv draw f x =
      if isFinite64 (mul64 draw.nan64 x f.scale) = true ∧ -2 ^ (f.w - 1) ≤ rneInt (mul64 draw.nan64 x f.scale) ∧
        rneInt (mul64 draw.nan64 x f.scale) ≤ 2 ^ (f.w - 1) - 1 then
        some (BitVec.ofNat 64 (rneInt (mul64 draw.nan64 x f.scale) % 2 ^ f.w).toNat)
      else none := by
  simp only [rawConv, hk, rawSint, scaledInt]
  cases hfin : isFinite64 (mul64 draw.nan64 x f.scale) with
  | false => simp
  | true =>
    simp only [if_true, twosComplement_eq, Nat.one_shiftLeft, Nat.cast_pow, Nat.cast_ofNat, true_and]
    by_cases hfit : -2 ^ (f.w - 1) ≤ rneInt (mul64 draw.nan64 x f.scale) ∧
        rneInt (mul64 draw.nan64 x f.scale) ≤ 2 ^ (f.w - 1) - 1
    · rw [if_neg (by omega), if_pos hfit]
    · rw [if_pos (by omega), if_neg hfit]

/-- UINT: the rounded product itself, where that is finite and fits (41_scalar_codec.md R133). -/
theorem rawConv_uint {f : FieldSpec} (hk : f.kind = .uint) (draw : Draw) (x : Word) :
    rawConv draw f x =
      if isFinite64 (mul64 draw.nan64 x f.scale) = true ∧ 0 ≤ rneInt (mul64 draw.nan64 x f.scale) ∧
        rneInt (mul64 draw.nan64 x f.scale) ≤ 2 ^ f.w - 1 then
        some (BitVec.ofNat 64 (rneInt (mul64 draw.nan64 x f.scale)).toNat)
      else none := by
  simp only [rawConv, hk, rawUint, scaledInt]
  cases hfin : isFinite64 (mul64 draw.nan64 x f.scale) with
  | false => simp
  | true =>
    simp only [if_true, Nat.one_shiftLeft, Nat.cast_pow, Nat.cast_ofNat, true_and]
    by_cases hfit : 0 ≤ rneInt (mul64 draw.nan64 x f.scale) ∧ rneInt (mul64 draw.nan64 x f.scale) ≤ 2 ^ f.w - 1
    · have ⟨hlo, _⟩ := hfit
      rw [if_neg (by omega), if_pos hfit, ofInt_eq_ofNat_toNat hlo]
    · rw [if_pos (by omega), if_neg hfit]

/-- Settles O17: of each kind the raw form is `some` under one condition, whose parts are the clauses. -/
theorem integerRawConversion : Obligations.IntegerRawConversion := by
  intro draw f x _
  refine ⟨fun hk hfin => ?_, fun hk hfin => ?_, fun hk hfin => ?_⟩
  · rcases hk with hk | hk
    · rw [rawConv_sint hk, if_neg (by simp [hfin])]
    · rw [rawConv_uint hk, if_neg (by simp [hfin])]
  · rw [rawConv_sint hk]
    exact ⟨fun hout => if_neg (by omega), fun hlo hhi => if_pos ⟨hfin, hlo, hhi⟩⟩
  · rw [rawConv_uint hk]
    exact ⟨fun hout => if_neg (by omega), fun hlo hhi => if_pos ⟨hfin, hlo, hhi⟩⟩

/-! ## Rounding to a format, whichever it is -/

/-- Rounding stays below an even magnitude exactly below the point halfway from the magnitude before it; at that point
the even one wins. -/
theorem roundFree_lt_iff {fb n d m : Nat} (hfb : 1 ≤ fb) (hd : 0 < d) (hpos : 0 < m) (heven : m % 2 = 0) :
    roundFree fb n d < m ↔ 2 * n < (unitsOf fb (m - 1) + unitsOf fb m) * d := by
  have hstep : unitsOf fb (m - 1) * d < unitsOf fb m * d :=
    Nat.mul_lt_mul_of_pos_right ((unitsOf_lt_iff _ _ _).mpr (by omega)) hd
  rw [Nat.add_mul]
  constructor
  · intro hlt
    by_contra hge
    have hle : unitsOf fb (roundFree fb n d) * d ≤ unitsOf fb (m - 1) * d :=
      Nat.mul_le_mul_right d ((unitsOf_le_iff _ _ _).mpr (by omega))
    have hnear := roundFree_nearest fb n d m hfb hd
    rw [abs_sub_comm, abs_of_nonneg (by zify at *; linarith)] at hnear
    rcases abs_cases ((unitsOf fb m : Int) * d - n) with ⟨habs, _⟩ | ⟨habs, _⟩ <;> rw [habs] at hnear
    · rcases hnear with hcloser | ⟨heq, htie⟩
      · zify at *
        linarith
      · have hsame : unitsOf fb (roundFree fb n d) * d = unitsOf fb (m - 1) * d := by
          zify at *
          linarith
        have := (unitsOf_inj fb _ _).mp (Nat.eq_of_mul_eq_mul_right hd hsame)
        omega
    · zify at *
      rcases hnear with hcloser | ⟨heq, -⟩ <;> linarith
  · intro hlt
    by_contra hge
    have hle : unitsOf fb m * d ≤ unitsOf fb (roundFree fb n d) * d :=
      Nat.mul_le_mul_right d ((unitsOf_le_iff _ _ _).mpr (by omega))
    have hcloser : |(unitsOf fb (m - 1) : Int) * d - n| < |(unitsOf fb (roundFree fb n d) : Int) * d - n| := by
      zify at *
      exact lt_of_lt_of_le (abs_lt.mpr ⟨by linarith, by linarith⟩) (le_abs_self _)
    rcases roundFree_nearest fb n d (m - 1) hfb hd with h | ⟨h, -⟩
    · exact h.not_gt hcloser
    · exact hcloser.ne' h

/-- Nearest with signs: against a value of the other sign, the magnitude 0 is the one to compare with. -/
theorem signed_roundFree_nearest {fb n d : Nat} (hfb : 1 ≤ fb) (hd : 0 < d) (s t : Bool) (m : Nat) :
    |signed s (unitsOf fb (roundFree fb n d)) * (d : Int) - signed s n| <
        |signed t (unitsOf fb m) * (d : Int) - signed s n| ∨
      (|signed s (unitsOf fb (roundFree fb n d)) * (d : Int) - signed s n| =
          |signed t (unitsOf fb m) * (d : Int) - signed s n| ∧
        (signed t (unitsOf fb m) = signed s (unitsOf fb (roundFree fb n d)) ∨ roundFree fb n d % 2 = 0)) := by
  rw [signed_mul_natCast, signed_mul_natCast, abs_signed_sub]
  by_cases hst : t = s
  · rw [hst, abs_signed_sub]
    push_cast
    refine (roundFree_nearest fb n d m hfb hd).imp_right ?_
    exact fun ⟨hdist, htie⟩ => ⟨hdist, htie.imp_left fun hm => by rw [hm]⟩
  · have hzero : |(unitsOf fb 0 : Int) * d - n| = n := by simp
    have hnear := roundFree_nearest fb n d 0 hfb hd
    have hm : (0 : Int) ≤ (unitsOf fb m : Int) * d := by positivity
    rw [hzero] at hnear
    rw [abs_signed_sub_of_ne hst]
    push_cast
    rcases hnear with hdist | ⟨hdist, htie⟩
    · exact .inl (by linarith)
    · rcases hm.lt_or_eq with hpos | h0
      · exact .inl (by linarith)
      · exact .inr ⟨by linarith, .inr (by omega)⟩

/-! ## Rounding to binary32 -/

theorem inf32_lt : inf32 < 2 ^ 31 := by decide

theorem unitRatio_pos : 0 < unitRatio := by decide +kernel

/-- `overflow32` is the point halfway between the greatest finite value and the next of its exponent. -/
theorem two_mul_overflow32 : 2 * overflow32 = (unitsOf frac32 (inf32 - 1) + unitsOf frac32 inf32) * unitRatio := by
  decide +kernel

/-- Rounding a number of binary64 units to binary32 stays finite exactly below `overflow32` (00_scope.md R10). -/
theorem roundFree_lt_inf32_iff (n : Nat) : roundFree frac32 n unitRatio < inf32 ↔ n < overflow32 := by
  rw [roundFree_lt_iff (by decide) unitRatio_pos (by decide) (by decide), ← two_mul_overflow32]
  omega

/-- `RoundsTo32` of a signed number of binary64 units. -/
theorem roundsTo32_ofMag32_roundFree (s : Bool) {n : Nat} (h : n < overflow32) :
    RoundsTo32 (ofMag32 s (roundFree frac32 n unitRatio)) (signed s n) unitRatio := by
  have hfin := (roundFree_lt_inf32_iff n).mpr h
  have hlt := hfin.trans inf32_lt
  have hmag := mag32_ofMag32 s _ hlt
  refine ⟨decide_eq_true (by rwa [hmag]), fun y _ => ?_⟩
  rw [value32_eq, value32_eq, units32, hmag, msb_ofMag32 s _ hlt]
  exact signed_roundFree_nearest (by decide) unitRatio_pos s y.msb (mag32 y)

theorem roundUnits_inf32_of_lt {n : Nat} (h : n < overflow32) :
    roundUnits frac32 inf32 n unitRatio = roundFree frac32 n unitRatio := by
  rw [roundUnits_eq]
  exact min_eq_right ((roundFree_lt_inf32_iff n).mpr h).le

theorem roundUnits_inf32_of_le {n : Nat} (h : overflow32 ≤ n) : roundUnits frac32 inf32 n unitRatio = inf32 := by
  rw [roundUnits_eq]
  exact min_eq_left (not_lt.mp fun hlt => absurd ((roundFree_lt_inf32_iff n).mp hlt) h.not_gt)

/-- A finite value from `overflow32` on does not convert to binary32. -/
theorem cvt64to32_eq_none (nan : Word32) {p : Word} (hfin : isFinite64 p = true) (h : overflow32 ≤ units64 p) :
    cvt64to32 nan p = none := by
  simp [cvt64to32, isNaN64_of_isFinite64 hfin, isInf64_of_isFinite64 hfin, roundUnits_inf32_of_le h]

/-- A finite value below `overflow32` converts to its nearest binary32. -/
theorem cvt64to32_eq_some (nan : Word32) {p : Word} (hfin : isFinite64 p = true) (h : units64 p < overflow32) :
    cvt64to32 nan p = some (ofMag32 p.msb (roundFree frac32 (units64 p) unitRatio)) := by
  have hne := ((roundFree_lt_inf32_iff _).mpr h).ne
  simp [cvt64to32, isNaN64_of_isFinite64 hfin, isInf64_of_isFinite64 hfin, roundUnits_inf32_of_lt h, hne]

/-! ## The float kinds -/

/-- A field of a float kind, F32 or TRUNC, at a width its kind allows (40_catalog.md R102). -/
def IsFloatField (f : FieldSpec) : Prop :=
  (f.kind = .f32 ∧ f.w = 32) ∨ (f.kind = .trunc ∧ (f.w = 8 ∨ f.w = 16 ∨ f.w = 24 ∨ f.w = 32))

/-- F32 and TRUNC: the `w` top bits of the binary32 of the product (41_scalar_codec.md R131; 42_bitfield_packer.md
R182). -/
theorem rawConv_float {f : FieldSpec} (hf : IsFloatField f) (draw : Draw) (x : Word) :
    rawConv draw f x =
      (scaledBinary32 draw f.scale x).map fun c => BitVec.ofNat 64 (c.toNat / 2 ^ (32 - f.w)) := by
  rcases hf with ⟨hk, hw⟩ | ⟨hk, -⟩ <;> simp only [rawConv, hk]
  · rw [rawF32, hw]
    congr 1
    funext c
    rw [Nat.sub_self, Nat.pow_zero, Nat.div_one, BitVec.ofNat_toNat]
  · rw [rawTrunc]
    congr 1
    funext c
    rw [← BitVec.ofNat_toNat, BitVec.toNat_ushiftRight, Nat.shiftRight_eq_div_pow]

/-- The product's class decides: an infinity fails, anything else is converted to binary32. -/
theorem scaledBinary32_of_not_isInf64 {draw : Draw} {scale x : Word}
    (h : isInf64 (mul64 draw.nan64 x scale) = false) :
    scaledBinary32 draw scale x = cvt64to32 draw.nan32 (mul64 draw.nan64 x scale) := by
  simp [scaledBinary32, h]

theorem isInf64_of_isNaN64 {x : Word} (h : isNaN64 x = true) : isInf64 x = false := by
  have hm : inf64 < mag64 x := of_decide_eq_true h
  exact decide_eq_false hm.ne'

/-- Settles O60, by the class of the product. -/
theorem floatRawConversion : Obligations.FloatRawConversion := by
  intro draw f x hf
  dsimp only
  rw [rawConv_float hf, value64_eq, natAbs_signed]
  refine ⟨fun hinf => ?_, fun hfin hover => ?_, fun hfin hlt => ?_, fun hnan hdraw => ?_⟩
  · simp [scaledBinary32, hinf]
  · rw [scaledBinary32_of_not_isInf64 (isInf64_of_isFinite64 hfin), cvt64to32_eq_none _ hfin hover, Option.map_none]
  · rw [scaledBinary32_of_not_isInf64 (isInf64_of_isFinite64 hfin), cvt64to32_eq_some _ hfin hlt]
    have hmag := ((roundFree_lt_inf32_iff _).mpr hlt).trans inf32_lt
    exact ⟨_, rfl, msb_ofMag32 _ _ hmag, roundsTo32_ofMag32_roundFree _ hlt⟩
  · rw [scaledBinary32_of_not_isInf64 (isInf64_of_isNaN64 hnan)]
    exact ⟨draw.nan32, by simp [cvt64to32, hnan], hdraw⟩

end Sys2Proof.ScalarCodec
end

section
/-! SUPPORT. The proofs of the statements about ENCODE: where it puts the fields, which error it reports, and that the
ranges decide (41_scalar_codec.md R140, R161). -/

namespace Sys2Proof.ScalarCodec

open Sys2Proof.Machine Sys2Proof.Safety Sys2Proof.Scope Sys2Proof.MessageCatalog

/-! ## The ends of ENCODE -/

theorem exec_encode_of_ok {s : State} {idx : Nat} {d : Definition} {p : Word} (hd : s.cat idx = some d)
    (hp : encodeFields s d.fields 0 0 = .ok p) :
    exec (.encode idx) s =
      .next ((((s.setPayload p).setPlen (BitVec.ofNat 4 d.length)).setFrame (frameOf d)).setStatus 0) := by
  simp only [exec, execEncode, hd, hp]
  rfl

theorem exec_encode_of_error {s : State} {idx : Nat} {d : Definition} {e : EncodeFailure} (hd : s.cat idx = some d)
    (he : encodeFields s d.fields 0 0 = .error e) : exec (.encode idx) s = raiseEncode e s := by
  simp only [exec, execEncode, hd, he]

/-! ## Where every field converts -/

/-- The loop of ENCODE ends well where every field does. -/
theorem exists_encodeFields_eq_ok {s : State} {fs : List FieldSpec}
    (h : ∀ (j : Nat) (f : FieldSpec), fs[j]? = some f →
      ∃ r, encodeField (drawAt s.nanDraws j) f (s.vAt j) = .ok r) : ∃ p, encodeFields s fs 0 0 = .ok p := by
  cases hres : encodeFields s fs 0 0 with
  | ok p => exact ⟨p, rfl⟩
  | error e =>
    obtain ⟨j, -, hfield, herror, -⟩ := (encodeFields_eq_error s fs 0 0 e).mp hres
    obtain ⟨r, hr⟩ := h j e.field hfield
    rw [Nat.zero_add, hr] at herror
    cases herror

/-- A payload bit that no field covers is 0. -/
theorem getLsbD_encodeFields_of_uncovered {s : State} {fs : List FieldSpec} {p : Word} {b : Nat}
    (hp : encodeFields s fs 0 0 = .ok p)
    (h : ∀ (i : Nat) (f : FieldSpec), fs[i]? = some f → ¬ (f.off ≤ b ∧ b < f.off + f.w)) : p.getLsbD b = false := by
  obtain ⟨raws, -, -, rfl⟩ := (encodeFields_eq_ok s fs 0 0 p).mp hp
  rw [getLsbD_foldl_insertBits_of_uncovered]
  · exact BitVec.getLsbD_zero
  · intro q hq
    obtain ⟨i, hi⟩ := List.mem_iff_getElem?.mp hq
    exact h i q.1 (List.getElem?_zip_eq_some.mp hi).1

/-- FRAME of a definition, written as a sum. -/
theorem frameOf_eq {d : Definition} (hid : d.id < 2 ^ 29) (hlen : d.length < 16) :
    frameOf d = BitVec.ofNat 36 (d.id + d.ext.toNat * 2 ^ 29 + d.length * 2 ^ 32) := by
  have hext := d.ext.toNat_le
  apply BitVec.eq_of_toNat_eq
  rw [frameOf_toNat hid hlen, BitVec.toNat_ofNat]
  omega

/-- Settles O8: fields that share no bit keep their bits through the loop, and the loop starts from 0. -/
theorem encodePlacesEveryField : Obligations.EncodePlacesEveryField := by
  intro s idx d raw hwf hd hconv
  have hlen := wellFormed_length_le hwf hd
  obtain ⟨p, hp⟩ := exists_encodeFields_eq_ok fun j f hf => ⟨raw j, encodeField_eq_ok.mpr (hconv j f hf)⟩
  refine ⟨p, ?_, fun i f hf j hj => ?_, fun b hb => getLsbD_encodeFields_of_uncovered hp hb⟩
  · rw [exec_encode_of_ok hd hp, frameOf_eq (wellFormed_id_lt hwf hd) (by omega)]
    rfl
  · obtain ⟨-, hraw⟩ := hconv i f hf
    exact getLsbD_encodeFields hwf hd hp hf hraw hj

/-! ## The first field that fails -/

/-- ENCODE takes the error of a field that fails where every field before it ends well. -/
theorem exec_encode_of_first_error {s : State} {idx i : Nat} {d : Definition} {f : FieldSpec} {e : FieldError}
    (hd : s.cat idx = some d) (hf : d.fields[i]? = some f)
    (hbefore : ∀ (j : Nat) (g : FieldSpec), j < i → d.fields[j]? = some g →
      inRange g (s.vAt j) = true ∧ (rawConv (drawAt s.nanDraws j) g (s.vAt j)).isSome = true)
    (he : encodeField (drawAt s.nanDraws i) f (s.vAt i) = .error e) :
    exec (.encode idx) s = raiseEncode ⟨i, f, e⟩ s := by
  refine exec_encode_of_error hd ((encodeFields_eq_error s d.fields 0 0 _).mpr
    ⟨i, (Nat.zero_add i).symm, hf, by rwa [Nat.zero_add], fun j g hj hg => ?_⟩)
  obtain ⟨hin, hsome⟩ := hbefore j g hj hg
  obtain ⟨r, hr⟩ := Option.isSome_iff_exists.mp hsome
  rw [Nat.zero_add]
  exact ⟨r, encodeField_eq_ok.mpr ⟨hin, hr⟩⟩

/-- STATUS of an error, written as a sum (60_exceptions.md R210). -/
theorem statusWord_eq {e : ErrorInfo} (hf : e.field < 256) (hw : e.width < 256) (hs : e.sub < 16) :
    e.statusWord = BitVec.ofNat 28 (e.kind.code + 2 ^ 8 * e.field + 2 ^ 16 * e.width + 2 ^ 24 * e.sub) := by
  have hcode := e.kind.code_le
  apply BitVec.eq_of_toNat_eq
  rw [statusWord_toNat hf hw hs, BitVec.toNat_ofNat, Nat.mod_eq_of_lt (by omega)]

theorem raiseEncode_outOfRange {i sub : Nat} (hi : i < 16) (hsub : sub < 16) (f : FieldSpec) (s : State) :
    raiseEncode ⟨i, f, .outOfRange sub⟩ s = .next { s with
      status := BitVec.ofNat 28 (2 + 2 ^ 8 * i + 2 ^ 24 * sub), errmin := f.min, errmax := f.max } := by
  have hfield : i < 256 := by omega
  have hword := statusWord_eq (e := { kind := .fieldOutOfRange, field := i, sub := sub }) hfield
    (Nat.zero_lt_succ _) hsub
  simp only [raiseEncode, raise_eq, hword]
  rfl

theorem raiseEncode_overflow {i : Nat} (hi : i < 16) {f : FieldSpec} (hw : f.w < 256) (s : State) :
    raiseEncode ⟨i, f, .overflow⟩ s = .next { s with status := BitVec.ofNat 28 (4 + 2 ^ 8 * i + 2 ^ 16 * f.w) } := by
  have hfield : i < 256 := by omega
  have hword := statusWord_eq (e := { kind := .bitFieldOverflow, field := i, width := f.w }) hfield hw
    (Nat.zero_lt_succ _)
  simp only [raiseEncode, raise_eq, hword]
  rfl

theorem rawError_of_numeric {f : FieldSpec} (hk : f.kind ≠ .bits) : rawError f = .outOfRange 1 := by
  cases hf : f.kind
  case bits => exact absurd hf hk
  all_goals simp only [rawError, hf]

/-- Settles O9: the loop ends at field `i`, by its range check or by the error of its kind. -/
theorem encodeReportsFirstFailingField : Obligations.EncodeReportsFirstFailingField := by
  intro s idx d i f hi hd hf hbefore
  have herror : ∀ {e : FieldError}, encodeField (drawAt s.nanDraws i) f (s.vAt i) = .error e →
      exec (.encode idx) s = raiseEncode ⟨i, f, e⟩ s := exec_encode_of_first_error hd hf hbefore
  refine ⟨fun hout => ?_, fun hin hk hnone => ?_, fun hin hk hw hover => ?_⟩
  · rw [herror (encodeField_eq_error.mpr (.inl ⟨hout, rfl⟩)), raiseEncode_outOfRange hi (by decide)]
    rfl
  · rw [herror (encodeField_eq_error.mpr (.inr ⟨hin, hnone, (rawError_of_numeric hk).symm⟩)),
      raiseEncode_outOfRange hi (by decide)]
    rfl
  · have hnone : rawConv (drawAt s.nanDraws i) f (s.vAt i) = none := by
      rw [rawConv, hk]
      exact if_pos ⟨hw, by rwa [Nat.one_shiftLeft]⟩
    have hkind : rawError f = .overflow := by rw [rawError, hk]
    rw [herror (encodeField_eq_error.mpr (.inr ⟨hin, hnone, hkind.symm⟩)), raiseEncode_overflow hi (by omega)]

/-! ## The ranges decide -/

/-- Under a well-formed catalog ENCODE of one field succeeds exactly where the value is in range. -/
theorem exists_encodeField_iff {d : Definition} {f : FieldSpec} (hf : FieldChecks d f) (draw : Draw) (x : Word) :
    (∃ r, encodeField draw f x = .ok r) ↔ inRange f x = true := by
  constructor
  · rintro ⟨r, hr⟩
    exact (encodeField_eq_ok.mp hr).1
  · intro hin
    obtain ⟨r, hr⟩ := Option.isSome_iff_exists.mp (isSome_rawConv_of_inRange draw hf hin)
    exact ⟨r, encodeField_eq_ok.mpr ⟨hin, hr⟩⟩

theorem le64_refl {x : Word} (h : isFinite64 x = true) : le64 x x = true :=
  (le64_iff (isNaN64_of_isFinite64 h) (isNaN64_of_isFinite64 h)).mpr le_rfl

/-- WF11: both ends of a field's range are in it. -/
theorem inRange_ends {d : Definition} {f : FieldSpec} (hf : FieldChecks d f) :
    inRange f f.min = true ∧ inRange f f.max = true := by
  obtain ⟨-, -, -, -, hbits, hnumeric⟩ := (fieldChecks_iff d f).mp hf
  by_cases hk : f.kind = .bits
  · obtain ⟨-, -, hle, -⟩ := hbits hk
    exact ⟨(inRange_bits_iff hk _).mpr ⟨le_rfl, hle⟩, (inRange_bits_iff hk _).mpr ⟨hle, le_rfl⟩⟩
  · obtain ⟨-, -, -, hmin, hmax, hle, -⟩ := hnumeric hk
    exact ⟨(inRange_numeric_iff hk _).mpr ⟨le64_refl hmin, hle⟩, (inRange_numeric_iff hk _).mpr ⟨hle, le64_refl hmax⟩⟩

/-- Settles O11: the loop ends well exactly where every field is in range, and fails by a range check only. -/
theorem encodeSucceedsExactlyInRange : Obligations.EncodeSucceedsExactlyInRange := by
  intro s idx d hwf hd
  have hchecks : ∀ (i : Nat) (f : FieldSpec), d.fields[i]? = some f → FieldChecks d f := fun i f hf =>
    fieldChecks_of_wellFormed hwf (List.mem_of_getElem? hd) (List.mem_of_getElem? hf)
  refine ⟨fun ⟨i, f, hf, hout⟩ => ?_, fun hin => ?_, fun i f draw hf => ?_⟩
  · cases hres : encodeFields s d.fields 0 0 with
    | ok p =>
      obtain ⟨raws, hlen, hraw, -⟩ := (encodeFields_eq_ok s d.fields 0 0 p).mp hres
      obtain ⟨hi, -⟩ := List.getElem?_eq_some_iff.mp hf
      have hok := hraw i f _ hf (List.getElem?_eq_getElem (hlen ▸ hi))
      obtain ⟨hin, -⟩ := encodeField_eq_ok.mp hok
      rw [Nat.zero_add, hout] at hin
      cases hin
    | error e =>
      obtain ⟨hfield, draw, x, herror⟩ := encodeFields_error_field hres
      have hrange := encodeField_error_eq (hchecks e.index e.field hfield) herror
      rw [exec_encode_of_error hd hres, raiseEncode, hrange]
      exact ⟨_, rfl, statusCode_statusWord _⟩
  · obtain ⟨p, hp⟩ := exists_encodeFields_eq_ok fun j f hf =>
      (exists_encodeField_iff (hchecks j f hf) _ _).mpr (hin j f hf)
    exact ⟨_, exec_encode_of_ok hd hp, rfl⟩
  · obtain ⟨hmin, hmax⟩ := inRange_ends (hchecks i f hf)
    exact ⟨(exists_encodeField_iff (hchecks i f hf) draw _).mpr hmin,
      (exists_encodeField_iff (hchecks i f hf) draw _).mpr hmax⟩

end Sys2Proof.ScalarCodec
end

section
/-! SUPPORT. The proofs of the statements about DECODE: its length check, the value of each field, the bits it reads,
and what it gives back after ENCODE (41_scalar_codec.md R150 to R160; 42_bitfield_packer.md R183 to R185). -/

namespace Sys2Proof.ScalarCodec

open Sys2Proof.Machine Sys2Proof.Safety Sys2Proof.Scope Sys2Proof.MessageCatalog

/-! ## The ends of DECODE -/

theorem exec_decode_of_length {s : State} {idx : Nat} {d : Definition} (hd : s.cat idx = some d)
    (hlen : s.plen.toNat = d.length) :
    exec (.decode idx) s = .next { s with
      v := decodeFields s.nanDraws s.payload d.fields 0 s.v, status := 0, nanDraws := s.nanDraws + 1 } := by
  simp only [exec, execDecode, hd, hlen, ne_eq, not_true_eq_false, if_false]
  rfl

theorem exec_decode_of_length_ne {s : State} {idx : Nat} {d : Definition} (hd : s.cat idx = some d)
    (hlen : s.plen.toNat ≠ d.length) : exec (.decode idx) s = .next { s with status := 0x0000003 } := by
  simp only [exec, execDecode, hd, if_pos hlen]
  rfl

/-- Settles O20: no definition of a well-formed catalog is longer than 8. -/
theorem decodeChecksTheLength : Obligations.DecodeChecksTheLength := by
  refine fun s idx d hd => ⟨exec_decode_of_length_ne hd, fun hwf hlong => exec_decode_of_length_ne hd ?_⟩
  have hlen := wellFormed_length_le hwf hd
  omega

/-! ## The bits DECODE reads -/

theorem extractBits_congr {p q : Word} {off w : Nat}
    (h : ∀ b, off ≤ b → b < off + w → p.getLsbD b = q.getLsbD b) : extractBits p off w = extractBits q off w := by
  ext k hk
  simp only [← BitVec.getLsbD_eq_getElem, getLsbD_extractBits]
  by_cases hkw : k < w
  · rw [h (off + k) (by omega) (by omega)]
  · simp [hkw]

/-- The loop of DECODE reads the bits of its fields only. -/
theorem decodeFields_congr {p q : Word} {fs : List FieldSpec}
    (h : ∀ f ∈ fs, ∀ b, f.off ≤ b → b < f.off + f.w → p.getLsbD b = q.getLsbD b) (cmd i : Nat) (v : Vector Word 16) :
    decodeFields cmd p fs i v = decodeFields cmd q fs i v := by
  induction fs generalizing i v with
  | nil => rfl
  | cons f rest ih =>
    rw [decodeFields, decodeFields, extractBits_congr (h f List.mem_cons_self)]
    exact ih (fun g hg => h g (List.mem_cons_of_mem f hg)) _ _

/-- Settles O21, end by end of DECODE. -/
theorem decodeIgnoresUncoveredBits : Obligations.DecodeIgnoresUncoveredBits := by
  intro s t idx p' hbits h
  rcases execDecode_cases idx s t h with ⟨hd, rfl⟩ | ⟨d, hd, ⟨hlen, rfl⟩ | ⟨hlen, rfl⟩⟩
  · exact exec_decode_of_cat_eq_none (s := s.setPayload p') hd
  · exact exec_decode_of_length_ne (s := s.setPayload p') hd hlen
  · rw [decodeFields_congr (hbits d hd)]
    exact exec_decode_of_length (s := s.setPayload p') hd hlen

/-! ## The value of a field, by its kind -/

/-- WF5: a field of a float kind has a width of its kind. -/
theorem isFloatField_of_wellFormed {cat : Catalog} (hwf : wellFormed cat = true) {idx i : Nat} {d : Definition}
    {f : FieldSpec} (hd : cat[idx]? = some d) (hf : d.fields[i]? = some f) (hk : f.kind = .f32 ∨ f.kind = .trunc) :
    IsFloatField f := by
  obtain ⟨hf32, -, htrunc, -⟩ := (wf5_iff f).mp (wellFormed_widthLegal hwf hd hf)
  exact hk.imp (fun hk => ⟨hk, hf32 hk⟩) fun hk => ⟨hk, htrunc hk⟩

theorem IsFloatField.width_le {f : FieldSpec} (h : IsFloatField f) : f.w ≤ 32 := by
  rcases h with ⟨-, hw⟩ | ⟨-, hw⟩ <;> omega

theorem refillTrunc_eq (w : Nat) (raw : Word) : refillTrunc w raw = BitVec.ofNat 32 (raw.toNat * 2 ^ (32 - w)) := by
  apply BitVec.eq_of_toNat_eq
  rw [refillTrunc, BitVec.toNat_shiftLeft, BitVec.toNat_setWidth, BitVec.toNat_ofNat, Nat.shiftLeft_eq]
  exact (Nat.mod_modEq _ _).mul_right _

/-- F32 and TRUNC: the refilled binary32, widened and divided by the scale (41_scalar_codec.md R151;
42_bitfield_packer.md R183). -/
theorem decodeField_float {f : FieldSpec} (hf : IsFloatField f) (draw : Draw) (raw : Word) :
    decodeField draw f raw =
      div64 draw.nan64 (cvt32to64 draw.nan64 (BitVec.ofNat 32 (raw.toNat * 2 ^ (32 - f.w)))) f.scale := by
  rcases hf with ⟨hk, hw⟩ | ⟨hk, -⟩ <;> simp only [decodeField, hk]
  · rw [hw, Nat.sub_self, Nat.pow_zero, Nat.mul_one, BitVec.ofNat_toNat]
  · rw [refillTrunc_eq]

/-- The signed value of `w` raw bits (00_scope.md R7). -/
theorem sintOf_eq {w : Nat} {raw : Word} (hw : 1 ≤ w) (hraw : raw.toNat < 2 ^ w) :
    sintOf w raw = if raw.toNat < 2 ^ (w - 1) then (raw.toNat : Int) else (raw.toNat : Int) - 2 ^ w := by
  have hdouble : 2 ^ (w - 1) * 2 = 2 ^ w := Nat.two_pow_pred_mul_two hw
  have hall : (extractBits raw 0 w).toNat = raw.toNat := by
    rw [extractBits_toNat, Nat.pow_zero, Nat.div_one, Nat.mod_eq_of_lt hraw]
  have hsign : raw.getLsbD (w - 1) = decide (2 ^ (w - 1) ≤ raw.toNat) := by
    have hpos : 0 < 2 ^ (w - 1) := Nat.two_pow_pos _
    have hquot : raw.toNat / 2 ^ (w - 1) < 2 := Nat.div_lt_of_lt_mul (by omega)
    have hle := Nat.one_le_div_iff (a := raw.toNat) hpos
    rw [← BitVec.testBit_toNat, Nat.testBit_eq_decide_div_mod_eq]
    generalize raw.toNat / 2 ^ (w - 1) = quot at *
    exact decide_eq_decide.mpr (by omega)
  simp only [sintOf, hall, hsign, decide_eq_true_eq, Nat.one_shiftLeft, Nat.cast_pow, Nat.cast_ofNat]
  by_cases h : raw.toNat < 2 ^ (w - 1)
  · rw [if_pos h, if_neg (by omega)]
  · rw [if_neg h, if_pos (by omega)]

/-- SINT: the signed value of the raw bits, divided by the scale (41_scalar_codec.md R152). -/
theorem decodeField_sint {f : FieldSpec} (hk : f.kind = .sint) (hw : 1 ≤ f.w) (draw : Draw) {raw : Word}
    (hraw : raw.toNat < 2 ^ f.w) :
    decodeField draw f raw = div64 draw.nan64
      (cvtInt64 (if raw.toNat < 2 ^ (f.w - 1) then (raw.toNat : Int) else (raw.toNat : Int) - 2 ^ f.w)) f.scale := by
  simp only [decodeField, hk, sintOf_eq hw hraw]

/-- UINT: the unsigned value of the raw bits, divided by the scale (41_scalar_codec.md R153). -/
theorem decodeField_uint {f : FieldSpec} (hk : f.kind = .uint) (draw : Draw) (raw : Word) :
    decodeField draw f raw = div64 draw.nan64 (cvtInt64 raw.toNat) f.scale := by
  simp only [decodeField, hk]

/-- BITS: the raw bits themselves (42_bitfield_packer.md R184). -/
theorem decodeField_bits {f : FieldSpec} (hk : f.kind = .bits) (draw : Draw) (raw : Word) :
    decodeField draw f raw = raw := by
  simp only [decodeField, hk]

theorem getElem_decodeFields_of_field {cmd : Nat} {p : Word} {fs : List FieldSpec} {v : Vector Word 16} {i : Nat}
    {f : FieldSpec} (hf : fs[i]? = some f) (hi : i < 16) :
    (decodeFields cmd p fs 0 v)[i] = decodeField (drawAt cmd i) f (extractBits p f.off f.w) := by
  obtain ⟨hlen, rfl⟩ := List.getElem?_eq_some_iff.mp hf
  rw [decodeFields_getElem, dif_pos ⟨Nat.zero_le i, by rwa [Nat.sub_zero]⟩]
  rfl

/-- Settles O19: the loop gives each register the value of its field, and the raw bits are a number of the payload. -/
theorem decodeWritesEveryField : Obligations.DecodeWritesEveryField := by
  intro s idx d hwf hd hlen
  refine ⟨_, exec_decode_of_length hd hlen, fun i hi => ⟨fun hle => ?_, fun f hf => ?_⟩⟩
  · rw [decodeFields_getElem, dif_neg (by omega)]
  · obtain ⟨hw, -⟩ := wellFormed_width hwf hd hf
    have hfloat := isFloatField_of_wellFormed hwf hd hf
    dsimp only
    rw [getElem_decodeFields_of_field hf hi, ← extractBits_toNat]
    have hraw := extractBits_lt s.payload f.off f.w
    cases hk : f.kind with
    | f32 =>
      obtain ⟨-, hw32⟩ := (hfloat (.inl hk)).resolve_right (by simp [hk])
      simpa [hw32] using decodeField_float (hfloat (.inl hk)) (drawAt s.nanDraws i) (extractBits s.payload f.off f.w)
    | sint => exact decodeField_sint hk hw _ hraw
    | uint => exact decodeField_uint hk _ _
    | trunc => exact decodeField_float (hfloat (.inr hk)) _ _
    | bits =>
      rw [decodeField_bits hk]
      exact ((BitVec.ofNat_toNat _ _).trans (BitVec.setWidth_eq _)).symm

/-! ## NaN values -/

/-- Dividing by a finite scale that is not zero gives a NaN for a NaN only. -/
theorem isNaN64_div64_scale {nan scale : Word} (hnan : isNaN64 nan = true) (hscale : isFinite64 scale = true)
    (hzero : isZero64 scale = false) (a : Word) : isNaN64 (div64 nan a scale) = isNaN64 a := by
  rw [Bool.eq_iff_iff, (isNaN64_iff_of_cases hnan (div64_cases nan a scale)).1]
  simp [DivIsNaN, isNaN64_of_isFinite64 hscale, isInf64_of_isFinite64 hscale, hzero]

theorem isNaN64_cvt32to64 {nan : Word} (hnan : isNaN64 nan = true) (b : Word32) :
    isNaN64 (cvt32to64 nan b) = isNaN32 b := by
  rw [cvt32to64]
  cases hb : isNaN32 b with
  | true => simp [hnan]
  | false =>
    rw [if_neg Bool.false_ne_true]
    split
    · exact isNaN64_ofMag64 _ le_rfl
    · exact isNaN64_ofMag64 _ (roundUnits_le_inf _ _ _ _)

theorem isNaN64_cvtInt64 (n : Int) : isNaN64 (cvtInt64 n) = false :=
  isNaN64_ofMag64 _ (roundUnits_le_inf _ _ _ _)

/-- What a successful DECODE leaves in the register of a field. -/
theorem vAt_of_exec_decode {s t : State} {idx i : Nat} {d : Definition} {f : FieldSpec}
    (hwf : wellFormed s.catalog = true) (hd : s.catalog[idx]? = some d) (h : exec (.decode idx) s = .next t)
    (hst : t.status = 0) (hf : d.fields[i]? = some f) :
    t.vAt i = decodeField (drawAt s.nanDraws i) f (extractBits s.payload f.off f.w) := by
  have hi : i < 16 := (List.getElem?_eq_some_iff.mp hf).1.trans_le (wellFormed_fieldCount_le hwf hd)
  rcases execDecode_cases idx s t h with ⟨_, rfl⟩ | ⟨d', hd', ⟨_, rfl⟩ | ⟨_, rfl⟩⟩
  · exact absurd hst (statusWord_ne_zero _)
  · exact absurd hst (statusWord_ne_zero _)
  · obtain rfl : d = d' := Option.some.inj (hd.symm.trans hd')
    rw [State.setStatus_vAt, State.drewNaN_vAt, Encoding.vAt_setV _ _ hi, getElem_decodeFields_of_field hf]

/-- WF10: the scale of a numeric field is finite and not zero. -/
theorem wellFormed_scale {cat : Catalog} (hwf : wellFormed cat = true) {idx i : Nat} {d : Definition} {f : FieldSpec}
    (hd : cat[idx]? = some d) (hf : d.fields[i]? = some f) (hk : f.kind ≠ .bits) :
    isFinite64 f.scale = true ∧ isZero64 f.scale = false :=
  (wf10_iff f).mp (((wellFormed_iff_passes cat).mp hwf .wf10 idx d hd).2 i f hf) hk

/-- Settles O22: the division by the scale neither makes nor loses a NaN, and no integer is one. -/
theorem onlyNaNPatternsDecodeToNaN : Obligations.OnlyNaNPatternsDecodeToNaN := by
  intro s t idx d i f hwf hd h hst hf
  obtain ⟨hw, -⟩ := wellFormed_width hwf hd hf
  have hdraw : isNaN64 (drawAt s.nanDraws i).nan64 = true := isNaN64_asNaN64 _
  have hdiv : f.kind ≠ .bits → ∀ a, isNaN64 (div64 (drawAt s.nanDraws i).nan64 a f.scale) = isNaN64 a := fun hk => by
    obtain ⟨hfin, hzero⟩ := wellFormed_scale hwf hd hf hk
    exact isNaN64_div64_scale hdraw hfin hzero
  have hfloat : f.kind = .f32 ∨ f.kind = .trunc → isNaN64 (t.vAt i) =
      isNaN32 (BitVec.ofNat 32 (s.payload.toNat / 2 ^ f.off % 2 ^ f.w * 2 ^ (32 - f.w))) := fun hk => by
    rw [vAt_of_exec_decode hwf hd h hst hf, decodeField_float (isFloatField_of_wellFormed hwf hd hf hk),
      hdiv (by rcases hk with hk | hk <;> simp [hk]), isNaN64_cvt32to64 hdraw, extractBits_toNat]
  refine ⟨fun hk => ?_, fun hk => hfloat (.inr hk), fun hk => ?_⟩
  · obtain ⟨-, hw32⟩ := (isFloatField_of_wellFormed hwf hd hf (.inl hk)).resolve_right (by simp [hk])
    simpa [hw32] using hfloat (.inl hk)
  · rw [vAt_of_exec_decode hwf hd h hst hf]
    rcases hk with hk | hk
    · rw [decodeField_sint hk hw _ (extractBits_lt _ _ _), hdiv (by simp [hk]), isNaN64_cvtInt64]
    · rw [decodeField_uint hk, hdiv (by simp [hk]), isNaN64_cvtInt64]

/-! ## DECODE after ENCODE, field by field -/

theorem shiftRight_shiftLeft_eq (c : Word32) (k : Nat) :
    c >>> k <<< k = BitVec.ofNat 32 (c.toNat / 2 ^ k * 2 ^ k) := by
  apply BitVec.eq_of_toNat_eq
  rw [BitVec.toNat_shiftLeft, BitVec.toNat_ushiftRight, Nat.shiftRight_eq_div_pow, Nat.shiftLeft_eq, BitVec.toNat_ofNat]

/-- A float field gives back the binary32 of the product with its dropped bits cleared. -/
theorem decodeField_rawConv_float {draw : Draw} {f : FieldSpec} {x r : Word} (hf : IsFloatField f)
    (h : rawConv draw f x = some r) :
    ∃ c, cvt64to32 draw.nan32 (mul64 draw.nan64 x f.scale) = some c ∧
      decodeField draw f (extractBits r 0 f.w) =
        div64 draw.nan64 (cvt32to64 draw.nan64 (c >>> (32 - f.w) <<< (32 - f.w))) f.scale := by
  rw [rawConv_float hf] at h
  obtain ⟨c, hc, rfl⟩ := Option.map_eq_some_iff.mp h
  refine ⟨c, ?_, ?_⟩
  · rw [scaledBinary32] at hc
    split at hc
    · cases hc
    · exact hc
  · have hw := hf.width_le
    have hkept : c.toNat / 2 ^ (32 - f.w) < 2 ^ f.w := by
      refine Nat.div_lt_of_lt_mul ?_
      rw [← Nat.pow_add, Nat.sub_add_cancel hw]
      exact c.isLt
    have h64 : 2 ^ f.w ≤ 2 ^ 64 := Nat.pow_le_pow_right (by decide) (by omega)
    rw [decodeField_float hf, extractBits_toNat, Nat.pow_zero, Nat.div_one, BitVec.toNat_ofNat,
      Nat.mod_eq_of_lt (hkept.trans_le h64), Nat.mod_eq_of_lt hkept, shiftRight_shiftLeft_eq]

/-- Two's complement gives back every integer it holds (00_scope.md R7; 41_scalar_codec.md R132). -/
theorem signedValue_emod {w : Nat} (hw : 1 ≤ w) {r : Int} (hlo : -2 ^ (w - 1) ≤ r) (hhi : r ≤ 2 ^ (w - 1) - 1) :
    (if (r % 2 ^ w).toNat < 2 ^ (w - 1) then ((r % 2 ^ w).toNat : Int) else ((r % 2 ^ w).toNat : Int) - 2 ^ w) = r := by
  have hdouble : (2 : Int) ^ (w - 1) * 2 = 2 ^ w := by exact_mod_cast Nat.two_pow_pred_mul_two hw
  have hcast : ((2 ^ (w - 1) : Nat) : Int) = 2 ^ (w - 1) := by push_cast; rfl
  by_cases hneg : r < 0
  · have hmod : r % 2 ^ w = r + 2 ^ w := by
      rw [← Int.add_emod_right, Int.emod_eq_of_lt (by omega) (by omega)]
    rw [hmod, if_neg (by omega)]
    omega
  · have hmod : r % 2 ^ w = r := Int.emod_eq_of_lt (by omega) (by omega)
    rw [hmod, if_pos (by omega)]
    omega

/-- An integer field gives back the rounded product. -/
theorem decodeField_rawConv_int {draw : Draw} {f : FieldSpec} {x r : Word} (hk : f.kind = .sint ∨ f.kind = .uint)
    (hw : 1 ≤ f.w) (hw64 : f.w ≤ 64) (h : rawConv draw f x = some r) :
    decodeField draw f (extractBits r 0 f.w) =
      div64 draw.nan64 (cvtInt64 (rneInt (mul64 draw.nan64 x f.scale))) f.scale := by
  have h64 : 2 ^ f.w ≤ 2 ^ 64 := Nat.pow_le_pow_right (by decide) hw64
  have hraw : ∀ n < 2 ^ f.w, (extractBits (BitVec.ofNat 64 n) 0 f.w).toNat = n := fun n hn => by
    rw [extractBits_toNat, Nat.pow_zero, Nat.div_one, BitVec.toNat_ofNat, Nat.mod_eq_of_lt (hn.trans_le h64),
      Nat.mod_eq_of_lt hn]
  have hcast : ((2 ^ f.w : Nat) : Int) = 2 ^ f.w := by push_cast; rfl
  rcases hk with hk | hk
  · rw [rawConv_sint hk, Option.ite_none_right_eq_some] at h
    obtain ⟨⟨-, hlo, hhi⟩, hr⟩ := h
    cases hr
    generalize rneInt (mul64 draw.nan64 x f.scale) = n at *
    have hn : (n % 2 ^ f.w).toNat < 2 ^ f.w := by
      have := Int.emod_lt_of_pos n (show (0 : Int) < 2 ^ f.w by positivity)
      omega
    rw [decodeField_sint hk hw _ (extractBits_lt _ _ _), hraw _ hn, signedValue_emod hw hlo hhi]
  · rw [rawConv_uint hk, Option.ite_none_right_eq_some] at h
    obtain ⟨⟨-, hlo, hhi⟩, hr⟩ := h
    cases hr
    rw [decodeField_uint hk, hraw _ (by omega), Int.toNat_of_nonneg hlo]

/-- A BITS field gives back its value. -/
theorem decodeField_rawConv_bits {draw : Draw} {f : FieldSpec} {x r : Word} (hk : f.kind = .bits) (hw64 : f.w ≤ 64)
    (h : rawConv draw f x = some r) : decodeField draw f (extractBits r 0 f.w) = x := by
  rw [rawConv, hk] at h
  obtain ⟨hfits, hr⟩ := bitsRaw_eq_some hw64 h
  apply BitVec.eq_of_toNat_eq
  rw [decodeField_bits hk, extractBits_toNat, hr, Nat.pow_zero, Nat.div_one, Nat.mod_eq_of_lt hfits]

/-- A successful ENCODE leaves the length that DECODE checks, and CATALOG and the count of draws as they were. -/
theorem encode_leaves_for_decode {s t : State} {idx : Nat} {d : Definition} (hwf : wellFormed s.catalog = true)
    (hd : s.catalog[idx]? = some d) (h : exec (.encode idx) s = .next t) (hst : t.status = 0) :
    t.plen.toNat = d.length ∧ t.catalog = s.catalog ∧ t.nanDraws = s.nanDraws := by
  have hend := exec_encode_of_ok hd (encodeFields_of_exec_encode hd h hst)
  rw [h] at hend
  have ht := Host.Outcome.next.inj hend
  have hlen := wellFormed_length_le hwf hd
  refine ⟨?_, ?_, ?_⟩ <;> rw [ht]
  · exact Nat.mod_eq_of_lt (by omega)
  · rfl
  · rfl

/-- Settles O23: the field's bits of the payload are those of its raw form, whose value DECODE takes. -/
theorem encodeThenDecode : Obligations.EncodeThenDecode := by
  intro s t idx d hwf hd h hst
  obtain ⟨hplen, hcat, hdraws⟩ := encode_leaves_for_decode hwf hd h hst
  have hwf' : wellFormed t.catalog = true := hcat ▸ hwf
  have hd' : t.catalog[idx]? = some d := hcat ▸ hd
  obtain ⟨u, hdec, hu⟩ : ∃ u, exec (.decode idx) t = .next u ∧ u.status = 0 := ⟨_, exec_decode_of_length hd' hplen, rfl⟩
  refine ⟨u, hdec, hu, fun i f hf => ?_⟩
  obtain ⟨hw, hw64⟩ := wellFormed_width hwf hd hf
  have hfloat := isFloatField_of_wellFormed hwf hd hf
  obtain ⟨r, hr, hbits⟩ := encode_field hwf hd h hst hf
  dsimp only
  rw [vAt_of_exec_decode hwf' hd' hdec hu hf, hbits, hdraws]
  refine ⟨fun hk => ?_, fun hk => decodeField_rawConv_int hk hw hw64 hr, fun hk => ?_,
    fun hk => decodeField_rawConv_bits hk hw64 hr⟩
  · obtain ⟨-, hw32⟩ := (hfloat (.inl hk)).resolve_right (by simp [hk])
    simpa [hw32] using decodeField_rawConv_float (hfloat (.inl hk)) hr
  · exact decodeField_rawConv_float (hfloat (.inr hk)) hr

end Sys2Proof.ScalarCodec
end

section
/-! SUPPORT. The proofs of the statements about BITS fields and PACKBITS (42_bitfield_packer.md R180, R190, R193,
R195). -/

namespace Sys2Proof.BitfieldPacker

open Sys2Proof.Machine Sys2Proof.Safety Sys2Proof.MessageCatalog

/-! ## A BITS field in the payload -/

/-- After a successful ENCODE bit `j` of a BITS field's value is bit `off + j` of the payload. -/
theorem getLsbD_payload_of_bits {s t : State} {idx i j : Nat} {d : Definition} {f : FieldSpec}
    (hwf : wellFormed s.catalog = true) (hd : s.catalog[idx]? = some d) (h : exec (.encode idx) s = .next t)
    (hst : t.status = 0) (hf : d.fields[i]? = some f) (hkind : f.kind = .bits) (hj : j < f.w) :
    t.payload.getLsbD (f.off + j) = (s.vAt i).getLsbD j := by
  obtain ⟨-, hvalue⟩ := encode_bits_field hwf hd h hst hf hkind
  rw [← extractBits_toNat] at hvalue
  rw [← BitVec.eq_of_toNat_eq hvalue, getLsbD_extractBits, decide_eq_true hj, Bool.true_and]

/-- Settles O15: bit `off + j` of the payload is in byte `off / 8` up to the byte boundary, and in the next from there
on. -/
theorem bitsFieldCrossesByteBoundary : Obligations.BitsFieldCrossesByteBoundary := by
  intro s t idx d i f hwf hd h hst hf hkind hcross
  have hbit : ∀ j < f.w, t.payload.getLsbD (f.off + j) = (s.vAt i).getLsbD j := fun j hj =>
    getLsbD_payload_of_bits hwf hd h hst hf hkind hj
  refine ⟨fun j hj => ?_, fun j hj hjw => ?_⟩
  · have hpos : 8 * (f.off / 8) + (f.off % 8 + j) = f.off + j := by omega
    rw [BitVec.getLsbD_extractLsb', hpos, hbit j (by omega), decide_eq_true (by omega), Bool.true_and]
  · have hpos : 8 * (f.off / 8 + 1) + (j - (8 - f.off % 8)) = f.off + j := by omega
    rw [hpos, hbit j hjw]

/-! ## The pairs of PACKBITS -/

theorem packPairs_succ (s : State) (n : Nat) : s.packPairs (n + 1) = s.packPairs n ++ [(s.vAt n, s.wid n)] := by
  rw [State.packPairs, List.range_succ, List.map_append]
  rfl

theorem getElem?_packPairs (s : State) {n i : Nat} (hi : i < n) : (s.packPairs n)[i]? = some (s.vAt i, s.wid i) := by
  rw [State.packPairs, List.getElem?_map, List.getElem?_range hi]
  rfl

theorem forall_mem_packPairs_iff (s : State) (n : Nat) (P : Word × Nat → Prop) :
    (∀ q ∈ s.packPairs n, P q) ↔ ∀ i, i < n → P (s.vAt i, s.wid i) := by
  simp [State.packPairs]

theorem sum_map_snd_packPairs (s : State) (n : Nat) :
    ((s.packPairs n).map Prod.snd).sum = ∑ i ∈ Finset.range n, s.wid i := by
  induction n with
  | zero => rfl
  | succ n ih => rw [packPairs_succ, List.map_append, List.sum_append, ih, Finset.sum_range_succ]; rfl

theorem widthsLegal_packPairs_iff (s : State) (n : Nat) :
    widthsLegal ((s.packPairs n).map Prod.snd) = true ↔
      (∀ i, i < n → 1 ≤ s.wid i ∧ s.wid i ≤ 64) ∧ ∑ i ∈ Finset.range n, s.wid i ≤ 64 := by
  rw [widthsLegal_iff, sum_map_snd_packPairs, List.forall_mem_map, forall_mem_packPairs_iff]

theorem packValue_append (ps qs : List (Word × Nat)) :
    packValue (ps ++ qs) = packValue ps + packValue qs * 2 ^ (ps.map Prod.snd).sum := by
  induction ps with
  | nil => simp [packValue]
  | cons p ps ih =>
    obtain ⟨x, w⟩ := p
    rw [List.cons_append, packValue, packValue, ih, List.map_cons, List.sum_cons, Nat.pow_add]
    ring

/-- Each value stands at the sum of the widths before it (42_bitfield_packer.md R180). -/
theorem packValue_packPairs (s : State) (n : Nat) :
    packValue (s.packPairs n) =
      ∑ i ∈ Finset.range n, (s.vAt i).toNat * 2 ^ (∑ j ∈ Finset.range i, s.wid j) := by
  induction n with
  | zero => rfl
  | succ n ih =>
    rw [packPairs_succ, packValue_append, ih, sum_map_snd_packPairs, Finset.sum_range_succ]
    simp [packValue]

/-! ## The ends of PACKBITS -/

theorem exec_packbits_of_widths_illegal {s : State} {n : Nat}
    (h : ¬ widthsLegal ((s.packPairs n).map Prod.snd) = true) : exec (.packbits n) s = .next (s.setStatus 5) := by
  simp only [exec, execPackbits, if_neg h]
  rfl

theorem exec_packbits_of_ok {s : State} {n : Nat} {acc : Word}
    (hw : widthsLegal ((s.packPairs n).map Prod.snd) = true) (h : packBits (s.packPairs n) = .ok acc) :
    exec (.packbits n) s = .next ((s.setAcc acc).setStatus 0) := by
  simp only [exec, execPackbits, hw, h]
  rfl

theorem exec_packbits_of_error {s : State} {n : Nat} {e : PackFailure}
    (hw : widthsLegal ((s.packPairs n).map Prod.snd) = true) (h : packBits (s.packPairs n) = .error e) :
    exec (.packbits n) s =
      raise { kind := .bitFieldOverflow, field := e.index, width := e.width } s := by
  simp only [exec, execPackbits, hw, h]
  rfl

/-- Settles O25: the loop composes the pairs' number, in which each value stands at its cumulative offset. -/
theorem packbitsComposesByCumulativeOffset : Obligations.PackbitsComposesByCumulativeOffset := by
  intro s n _ _ hwidth hsum hfit
  have hfits : ∀ q ∈ s.packPairs n, q.1.toNat < 2 ^ q.2 := (forall_mem_packPairs_iff s n _).mpr hfit
  obtain ⟨acc, hacc⟩ := (packFrom_isOk (s.packPairs n) 0 0 0).mpr hfits
  have hnumber : acc.toNat = packValue (s.packPairs n) := by
    simpa using packFrom_toNat (s.packPairs n) 0 0 acc 0 (by decide) (by rwa [sum_map_snd_packPairs, Nat.zero_add]) hacc
  refine ⟨acc, exec_packbits_of_ok ((widthsLegal_packPairs_iff s n).mpr ⟨hwidth, hsum⟩) hacc, ?_, ?_⟩
  · rw [hnumber, packValue_packPairs]
  · rw [hnumber, ← sum_map_snd_packPairs]
    exact packValue_lt _ hfits

/-- Settles O26: the loop fails at the first value that does not fit, and STATUS records it. -/
theorem packbitsReportsFirstOverflow : Obligations.PackbitsReportsFirstOverflow := by
  intro s n i hi hn hwidth hsum hbefore hover
  have hfail : packBits (s.packPairs n) = .error ⟨i, s.wid i⟩ := by
    refine (packFrom_eq_error _ 0 0 0 _).mpr
      ⟨i, s.vAt i, (Nat.zero_add i).symm, getElem?_packPairs s hi, hover, fun k q hk hq => ?_⟩
    rw [getElem?_packPairs s (hk.trans hi)] at hq
    cases hq
    exact hbefore k hk
  obtain ⟨-, hw64⟩ := hwidth i hi
  have hword := ScalarCodec.statusWord_eq (e := { kind := .bitFieldOverflow, field := i, width := s.wid i })
    (by omega : i < 256) (by omega : s.wid i < 256) (Nat.zero_lt_succ 15)
  rw [exec_packbits_of_error ((widthsLegal_packPairs_iff s n).mpr ⟨hwidth, hsum⟩) hfail, raise_eq, hword]
  rfl

/-- Settles O24: the widths are checked before any value is looked at. -/
theorem packbitsRejectsUnusableWidths : Obligations.PackbitsRejectsUnusableWidths := by
  intro s n _ _ hbad
  refine exec_packbits_of_widths_illegal fun hlegal => ?_
  obtain ⟨hwidth, hsum⟩ := (widthsLegal_packPairs_iff s n).mp hlegal
  rcases hbad with ⟨i, hi, hout⟩ | hover
  · have hin := hwidth i hi
    omega
  · omega

/-- Settles O27, by running the loop on the four pairs. -/
theorem registerByteFixture : Obligations.RegisterByteFixture := ⟨rfl, rfl⟩

end Sys2Proof.BitfieldPacker
end

section
/-! SUPPORT. The proofs of the statements about TRUNCF and about what keeping the top bytes of a binary32 does to it
(42_bitfield_packer.md R182, R183, R185, R192, R194). -/

namespace Sys2Proof.BitfieldPacker

open Sys2Proof.Machine Sys2Proof.Safety Sys2Proof.Scope Sys2Proof.ScalarCodec

/-! ## The ends of TRUNCF -/

theorem exec_truncf_of_none {s : State} {k : Nat} (h : cvt64to32 (drawAt s.nanDraws 0).nan32 (s.vAt 0) = none) :
    exec (.truncf k) s = .next (s.setStatus 0x1000002) := by
  simp only [exec, execTruncf, h]
  rfl

theorem exec_truncf_of_some {s : State} {k : Nat} {b : Word32}
    (h : cvt64to32 (drawAt s.nanDraws 0).nan32 (s.vAt 0) = some b) :
    exec (.truncf k) s =
      .next { s with acc := keepBytes k b, status := 0, nanDraws := s.nanDraws + 1 } := by
  simp only [exec, execTruncf, h]
  rfl

/-- Where TRUNCF ends well, V[0] converts, and ACC holds the kept bytes. -/
theorem exists_cvt64to32_of_exec_truncf {s t : State} {k : Nat} (h : exec (.truncf k) s = .next t)
    (hst : t.status = 0) :
    ∃ b, cvt64to32 (drawAt s.nanDraws 0).nan32 (s.vAt 0) = some b ∧
      t = { s with acc := keepBytes k b, status := 0, nanDraws := s.nanDraws + 1 } := by
  rcases execTruncf_cases k s t h with ⟨_, rfl⟩ | ⟨b, hb, rfl⟩
  · exact absurd hst (statusWord_ne_zero _)
  · exact ⟨b, hb, rfl⟩

/-! ## The kept bytes -/

theorem keepBytes_toNat (k : Nat) (b : Word32) : (keepBytes k b).toNat = b.toNat / 2 ^ (32 - 8 * k) := by
  rw [keepBytes, BitVec.toNat_setWidth_of_le (by decide), BitVec.toNat_ushiftRight, Nat.shiftRight_eq_div_pow]

theorem keepBytes_eq_ofNat (k : Nat) (b : Word32) :
    keepBytes k b = BitVec.ofNat 64 (b.toNat / 2 ^ (32 - 8 * k)) := by
  rw [← keepBytes_toNat, BitVec.ofNat_toNat, BitVec.setWidth_eq]

/-- The top `k` bytes are the top of all four. -/
theorem keepBytes_eq_shiftRight (k : Nat) (b : Word32) : keepBytes k b = keepBytes 4 b >>> (32 - 8 * k) := by
  apply BitVec.eq_of_toNat_eq
  rw [BitVec.toNat_ushiftRight, Nat.shiftRight_eq_div_pow, keepBytes_toNat, keepBytes_toNat, Nat.sub_self, Nat.pow_zero,
    Nat.div_one]

theorem cvt64to32_of_isInf64 (nan : Word32) {x : Word} (h : isInf64 x = true) :
    cvt64to32 nan x = some (if x.msb then 0xFF800000 else 0x7F800000) := by
  have hnan : isNaN64 x = false := decide_eq_false (by rw [(isInf64_iff x).mp h]; exact lt_irrefl _)
  have hinf : ofMag32 x.msb inf32 = if x.msb then 0xFF800000 else 0x7F800000 := by cases x.msb <;> rfl
  simp [cvt64to32, hnan, h, hinf]

theorem cvt64to32_of_isNaN64 (nan : Word32) {x : Word} (h : isNaN64 x = true) : cvt64to32 nan x = some nan := by
  rw [cvt64to32, if_pos h]

/-- Settles O28, by the class of V[0]. -/
theorem truncfRoundsThenKeepsTopBytes : Obligations.TruncfRoundsThenKeepsTopBytes := by
  intro s k _ _
  simp only [← keepBytes_eq_ofNat, value64_eq, natAbs_signed]
  refine ⟨fun hfin hover => ?_, fun hfin hlt => ?_, fun hinf => ?_, fun hnan => ?_⟩
  · exact exec_truncf_of_none (cvt64to32_eq_none _ hfin hover)
  · have hmag := ((roundFree_lt_inf32_iff _).mpr hlt).trans inf32_lt
    exact ⟨_, exec_truncf_of_some (cvt64to32_eq_some _ hfin hlt), msb_ofMag32 _ _ hmag,
      roundsTo32_ofMag32_roundFree _ hlt⟩
  · exact exec_truncf_of_some (cvt64to32_of_isInf64 _ hinf)
  · exact ⟨_, exec_truncf_of_some (cvt64to32_of_isNaN64 _ hnan), isNaN32_asNaN32 _⟩

/-- Settles O29: every `k` keeps the top of one binary32, which takes the draw for a NaN only. -/
theorem truncfIsTopOfFullEncoding : Obligations.TruncfIsTopOfFullEncoding := by
  refine ⟨fun s t k _ _ h hst => ?_, fun s s' t k hv hnan h hst => ?_⟩
  · obtain ⟨b, hb, rfl⟩ := exists_cvt64to32_of_exec_truncf h hst
    refine ⟨?_, ?_⟩
    · rw [exec_truncf_of_some hb, keepBytes_eq_shiftRight k b]
    · rw [keepBytes_toNat, Nat.sub_self, Nat.pow_zero, Nat.div_one]
      exact b.isLt
  · obtain ⟨b, hb, rfl⟩ := exists_cvt64to32_of_exec_truncf h hst
    have hb' : cvt64to32 (drawAt s'.nanDraws 0).nan32 (s'.vAt 0) = some b := by
      rw [← hv, ← hb, cvt64to32_eq_of_not_isNaN64 _ _ hnan]
    exact exec_truncf_of_some hb'

/-! ## Keeping and refilling -/

theorem refillTrunc_keepBytes_toNat (k : Nat) (c : Word32) :
    (refillTrunc (8 * k) (keepBytes k c)).toNat = c.toNat - c.toNat % 2 ^ (32 - 8 * k) := by
  have hkept : c.toNat / 2 ^ (32 - 8 * k) * 2 ^ (32 - 8 * k) = c.toNat - c.toNat % 2 ^ (32 - 8 * k) :=
    Nat.div_mul_self_eq_mod_sub_self
  rw [refillTrunc_eq, keepBytes_toNat, hkept, BitVec.toNat_ofNat,
    Nat.mod_eq_of_lt ((Nat.sub_le _ _).trans_lt c.isLt)]

/-- Where `m` bits of a binary32 below its sign are cleared, the sign stays and the magnitude has the same bits
cleared. -/
theorem msb_and_mag32_of_cleared {c r : Word32} {m : Nat} (hm : m ≤ 31) (h : r.toNat = c.toNat - c.toNat % 2 ^ m) :
    r.msb = c.msb ∧ mag32 r = mag32 c - mag32 c % 2 ^ m := by
  have hdvd : 2 ^ m ∣ 2 ^ 31 := Nat.pow_dvd_pow 2 hm
  have hlow : mag32 c % 2 ^ m = c.toNat % 2 ^ m := Nat.mod_mod_of_dvd _ hdvd
  have hle := Nat.mod_le (mag32 c) (2 ^ m)
  have hr := toNat_eq_sign_mag32 r
  have hc := toNat_eq_sign_mag32 c
  have hrlt := mag32_lt r
  have hclt := mag32_lt c
  cases hmr : r.msb <;> cases hmc : c.msb <;> simp only [hmr, hmc, if_true, if_false, Bool.false_eq_true] at hr hc
  case false.false | true.true => exact ⟨rfl, by omega⟩
  all_goals omega

/-- From `k = 2` on the dropped bits are fraction bits, so that the cleared magnitude of a NaN whose other fraction bits
are 0 is infinity's (42_bitfield_packer.md R185). -/
theorem sub_mod_eq_inf32 {k n : Nat} (hk : 2 ≤ k) (hlo : inf32 < n) (hhi : n < inf32 + 2 ^ (32 - 8 * k)) :
    n - n % 2 ^ (32 - 8 * k) = inf32 := by
  have hdvd : 2 ^ (32 - 8 * k) ∣ inf32 := (Nat.pow_dvd_pow 2 (by omega : 32 - 8 * k ≤ 16)).trans (by decide)
  have hmod : n % 2 ^ (32 - 8 * k) = n - inf32 := by
    rw [← Nat.add_sub_of_le hlo.le, Nat.add_mod, Nat.mod_eq_zero_of_dvd hdvd, Nat.zero_add, Nat.mod_mod,
      Nat.mod_eq_of_lt (by omega), Nat.add_sub_cancel_left]
  omega

/-- Settles O30: the refilled encoding is the encoding less its dropped bits, which lie below the sign. -/
theorem truncationClearsLowBits : Obligations.TruncationClearsLowBits := by
  intro c k hk _
  have hclear := refillTrunc_keepBytes_toNat k c
  obtain ⟨hmsb, hmag⟩ := msb_and_mag32_of_cleared (by omega) hclear
  have hle : mag32 (refillTrunc (8 * k) (keepBytes k c)) ≤ mag32 c := hmag ▸ Nat.sub_le _ _
  refine ⟨hclear, hmsb, hle, ?_, fun _ => ?_, fun hk2 hnan hlt => ?_⟩
  · have hlow := Nat.mod_le c.toNat (2 ^ (32 - 8 * k))
    rw [← BitVec.toNat_inj, hclear]
    omega
  · rw [value32_eq, value32_eq, natAbs_signed, natAbs_signed]
    exact (unitsOf_le_iff frac32 _ _).mpr hle
  · exact decide_eq_true (hmag.trans (sub_mod_eq_inf32 hk2 (of_decide_eq_true hnan) hlt))

end Sys2Proof.BitfieldPacker
end

section
/-! SUPPORT. The proofs of the statements about what an error records in STATUS and about what STATUS held before a
command (60_exceptions.md R210, R216; 10_state.md R22, R37). -/

namespace Sys2Proof.Exceptions

open Sys2Proof.Machine

/-! ## The error record -/

/-- Settles O46: the four ranges of STATUS do not overlap, so that the word is a sum of which each field is a digit. -/
theorem statusHoldsTheErrorRecord : Obligations.StatusHoldsTheErrorRecord := by
  refine ⟨fun e s => raise_eq e s, fun e hfield hwidth hsub => ⟨?word, ?code, ?field, ?width, ?sub⟩⟩
  case word => exact Scope.statusWord_toNat hfield hwidth hsub
  case code => exact statusCode_statusWord e
  case field => exact Scope.statusField_statusWord hfield hwidth hsub
  case width => exact Scope.statusWidth_statusWord hfield hwidth hsub
  case sub => exact Scope.statusSub_statusWord hfield hwidth hsub

/-! ## What STATUS held is never seen

Each command reads the same operands whatever STATUS held, and each of its ends, `complete` or `raise`, writes STATUS
over. -/

section
variable (s : State) (w : BitVec 28)

theorem execLookup_setStatus : execLookup (s.setStatus w) = execLookup s := by
  rw [execLookup, execLookup, State.setStatus_lookupIdx]
  cases s.lookupIdx with
  | some idx => rfl
  | none => rfl

theorem raiseEncode_setStatus (e : EncodeFailure) : raiseEncode e (s.setStatus w) = raiseEncode e s := by
  rw [raiseEncode, raiseEncode]
  cases e.error with
  | outOfRange sub => rfl
  | overflow => rfl

theorem execEncode_setStatus (idx : Nat) : execEncode idx (s.setStatus w) = execEncode idx s := by
  rw [execEncode, execEncode, State.setStatus_cat]
  cases s.cat idx with
  | none => rfl
  | some d =>
    have hfields : encodeFields (s.setStatus w) d.fields 0 0 = encodeFields s d.fields 0 0 :=
      Scope.encodeFields_congr (State.setStatus_nanDraws s w) (State.setStatus_v s w) d.fields 0 0
    simp only [hfields]
    cases encodeFields s d.fields 0 0 with
    | ok p => rfl
    | error e => exact raiseEncode_setStatus s w e

theorem execDecode_setStatus (idx : Nat) : execDecode idx (s.setStatus w) = execDecode idx s := by
  rw [execDecode, execDecode, State.setStatus_cat]
  cases s.cat idx with
  | none => rfl
  | some d => rfl

theorem execPackbits_setStatus (n : Nat) : execPackbits n (s.setStatus w) = execPackbits n s := by
  rw [execPackbits, execPackbits, State.setStatus_packPairs]
  cases packBits (s.packPairs n) with
  | ok acc => rfl
  | error e => rfl

theorem execTruncf_setStatus (k : Nat) : execTruncf k (s.setStatus w) = execTruncf k s := by
  rw [execTruncf, execTruncf, State.setStatus_nanDraws, State.setStatus_vAt]
  cases cvt64to32 (drawAt s.nanDraws 0).nan32 (s.vAt 0) with
  | none => rfl
  | some b => rfl

theorem exec_setStatus (i : Instr) : exec i (s.setStatus w) = exec i s := by
  cases i with
  | lookup => exact execLookup_setStatus s w
  | encode idx => exact execEncode_setStatus s w idx
  | decode idx => exact execDecode_setStatus s w idx
  | packbits n => exact execPackbits_setStatus s w n
  | truncf k => exact execTruncf_setStatus s w k

theorem performCommand_setStatus (v : Word) : performCommand v (s.setStatus w) = performCommand v s := by
  cases hv : Sys2Proof.decode v with
  | ok i => rw [Scope.performCommand_of_decode hv, Scope.performCommand_of_decode hv, exec_setStatus]
  | error e =>
    rw [performCommand, performCommand, hv]
    rfl

end

/-- Settles O49: every end of every command, and of an illegal word, writes STATUS over. -/
theorem statusIsNotSticky : Obligations.StatusIsNotSticky :=
  fun s v w => performCommand_setStatus s w v

end Sys2Proof.Exceptions
end

section
/-! SUPPORT. The proof of the statement about the commands issued straight after reset (70_reset_and_hazards.md R242). -/

namespace Sys2Proof.ResetAndHazards

open Sys2Proof.Machine Sys2Proof.Scope

/-- The widths that PACKBITS meets straight after reset (10_state.md R29, R42). -/
@[simp] theorem wid_afterReset (c : Catalog) (i : Nat) : (State.afterReset c).wid i = 0 := by
  have hbyte (off : Nat) : (extractBits 0 off 8).toNat = 0 := by simp [extractBits_toNat]
  rw [State.wid]
  split
  · exact hbyte _
  · exact hbyte _

/-- Settles O54: WID(0) and PLEN are 0, and every value ENCODE checks against its field's range is 0. -/
theorem commandsStraightAfterReset : Obligations.CommandsStraightAfterReset := by
  intro cat hwf
  refine ⟨fun n hpos hle => ?packbits, fun idx d hd => ?_⟩
  case packbits =>
    exact BitfieldPacker.packbitsRejectsUnusableWidths _ n hpos hle (.inl ⟨0, hpos, .inl (wid_afterReset cat 0)⟩)
  obtain ⟨hencodeOut, hencodeIn, -⟩ := ScalarCodec.encodeSucceedsExactlyInRange (State.afterReset cat) idx d hwf hd
  refine ⟨fun hlen => ?decode, fun hin => ?inRange, fun f hf hout => ?outOfRange⟩
  case decode => exact ScalarCodec.exec_decode_of_length_ne hd hlen.symm
  case inRange =>
    refine hencodeIn fun i f hf => ?_
    rw [vAt_afterReset]
    exact hin f (List.mem_of_getElem? hf)
  case outOfRange =>
    obtain ⟨i, hi⟩ := List.mem_iff_getElem?.mp hf
    exact hencodeOut ⟨i, f, hi, by rwa [vAt_afterReset]⟩

end Sys2Proof.ResetAndHazards
end
